-- ==== Sys2Proof/Word.lean ====
section
/-! DEFINITION. The words of the huff core: the types of its register, store and channel values (spec 00_scope.md
R8 and R9). Every value is unsigned. -/

namespace Sys2Proof

/-- A host data word and a command word: 32 bits (R9, R22, R90). -/
abbrev Word := BitVec 32

/-- A byte value, the symbols 0 to 255 (R8). -/
abbrev Byte := BitVec 8

/-- A symbol field: 9 bits, of which 0 to 256 are symbols and 256 is `EOS` (R8, R32). -/
abbrev Sym := BitVec 9

/-- A node weight: `WT_W` = 40 bits (R31). -/
abbrev Weight := BitVec 40

/-- The number of node slots, `NODE_CAP` (R8, R30). -/
abbrev nodeCap : Nat := 513

/-- The index of a node slot, 0 to 512 (R30). The spec holds an index in 10 bits. The values 513 to 1023 name
no slot and R60 says that every index is in range by construction, so the type holds the 513 slots only. -/
abbrev NodeIx := Fin nodeCap

/-- A bit string, in channel order: the first element goes on the channel first (R10). -/
abbrev Bits := List Bool

/-- `EOS`, the end-of-stream symbol (R8). -/
def eos : Sym := 256#9

end Sys2Proof
end

