-- ==== Sys2Proof/Config.lean ====
section
/-! DEFINITION. What the spec leaves open: the parameters a model takes as arguments and the draws of the
environment. Each is a constant with no body, so a claim that names it holds for every value of it. -/

namespace Sys2Proof.Config

/-- `MAGIC`, the 32-bit magic constant, OPEN (R8, R27, decision D3; log entry 1). -/
opaque magic : Word

/-- `TIE`: the answer of the `n`-th draw. An extraction with `k` admissible entries takes entry
`tieDraw n % k` (R12, R122, decision D21; log entry 2). -/
opaque tieDraw : Nat → Nat

/-- The value of a readback register read while BUSY = 1, at the `n`-th draw (R76 item 4, R268, decision D17;
log entry 3). -/
opaque busyRead : Nat → Word

/-- `PAD`: the bit that the output channel appends at bit position `n` when the host closes it, OPEN (R72,
decision D14; log entry 4). -/
opaque padBit : Nat → Bool

/-- The bit at position `n` of an input channel that never ends (R17, R232; log entry 5). -/
opaque endlessBit : Nat → Bool

/-- The answer of an oracle input channel to a read of `n` bits at the `k`-th draw: `none` is `End`, and
`some v` is `Val (v mod 2^n)` (R71, decision D14; log entry 5). -/
opaque oracleRead : Nat → Nat → Option Nat

end Sys2Proof.Config
end

