-- ==== Sys2Proof/Syntax.lean ====
section
/-! DEFINITION. The commands of the huff core: one constructor per row of spec/opcode_table.json (30_encoding.md
R93). No command takes an operand in its word (R92), so no constructor has an argument. -/

namespace Sys2Proof

/-- The 13 commands, in the order of their opcodes (R93). -/
inductive Instr where
  /-- 0x00: nothing (R200). -/
  | nop
  /-- 0x01: clear all block state except SEL and leave the error state (R201). -/
  | clear
  /-- 0x02: zero `cnt` and count the bytes of the input (R110). -/
  | count
  /-- 0x03: build the tree from `cnt` (R120). -/
  | build
  /-- 0x04: fill the code table from the tree (R140). -/
  | gencodes
  /-- 0x05: write the magic and the preorder tree (R150). -/
  | wrhdr
  /-- 0x06: reposition the input to its start (R202). -/
  | rewind
  /-- 0x07: encode the input bytes, then the EOS code (R180). -/
  | encode
  /-- 0x08: read 32 bits and compare them with the magic (R152). -/
  | rdmagic
  /-- 0x09: parse a preorder tree from the input (R153). -/
  | rdtree
  /-- 0x0A: decode input bits until the EOS leaf (R190). -/
  | decode
  /-- 0x0B: COUNT, BUILD, GENCODES, WRHDR, REWIND, ENCODE (R203). -/
  | compress
  /-- 0x0C: RDMAGIC, RDTREE, DECODE (R204). -/
  | decompress
  deriving DecidableEq, Repr

end Sys2Proof
end

