-- ==== Sys2Proof/WellFormed.lean ====
section
/-! DEFINITION. What is well formed: a command word (30_encoding.md R90 to R96) and a host access (20_memory.md R62).
A command has no operands, so every term of `Instr` is a command. What can be ill formed is the word that the host
writes and the access that it makes. -/

namespace Sys2Proof

/-- A word is legal iff RSVD = 0 and OP ≤ 0x0C (R93). -/
def legalWord (w : Word) : Bool := w.extractLsb' 8 24 == 0#24 && decide ((w.extractLsb' 0 8).toNat ≤ 0x0C)

/-- A host access as the host may try it: `data` is `some v` for a write of `v` and `none` for a read, `offset`
the byte offset from the start of the window, `bytes` the width of the access. -/
structure Access where
  offset : Nat
  bytes : Nat
  data : Option Word
  deriving DecidableEq, Repr

/-- The access is one whole 32-bit word (R62). -/
def Access.wordWide (a : Access) : Bool := a.bytes == 4

/-- The access is aligned: its offset is a multiple of 4 (R62). -/
def Access.aligned (a : Access) : Bool := a.offset % 4 == 0

/-- The access lies in the 256-byte window (R61). -/
def Access.inWindow (a : Access) : Bool := decide (a.offset < 0x100)

/-- The accesses that the host port accepts (R61, R62). -/
def Access.wellFormed (a : Access) : Bool := a.wordWide && a.aligned && a.inWindow

end Sys2Proof
end

