-- ==== Sys2Proof/Decode.lean ====
section
/-! DEFINITION. The command decoder of 30_encoding.md R97, total on all 2^32 words, and the encoder written from
the same table (R93). A word that is no command is rejected by name. -/

namespace Sys2Proof

/-- OP, bits 7:0 of a command word (R90). -/
def opField (w : Word) : Byte := w.extractLsb' 0 8

/-- RSVD, bits 31:8 of a command word (R90). -/
def rsvdField (w : Word) : BitVec 24 := w.extractLsb' 8 24

/-- Why a word is no command. Either way it raises ILLEGAL_CMD when it is accepted (R94, R95). -/
inductive Illegal where
  /-- RSVD, bits 31:8, is not 0 (R95). -/
  | reservedBits
  /-- RSVD = 0 and OP is one of 0x0D to 0xFF (R94). -/
  | reservedOpcode
  deriving DecidableEq, Repr

/-- The decoder of R97: first RSVD, then OP, then the row of R93. -/
def decode (w : Word) : Except Illegal Instr :=
  if rsvdField w ≠ 0#24 then .error .reservedBits
  else match (opField w).toNat with
    | 0x00 => .ok .nop
    | 0x01 => .ok .clear
    | 0x02 => .ok .count
    | 0x03 => .ok .build
    | 0x04 => .ok .gencodes
    | 0x05 => .ok .wrhdr
    | 0x06 => .ok .rewind
    | 0x07 => .ok .encode
    | 0x08 => .ok .rdmagic
    | 0x09 => .ok .rdtree
    | 0x0A => .ok .decode
    | 0x0B => .ok .compress
    | 0x0C => .ok .decompress
    | _ => .error .reservedOpcode

/-- The opcode of a command, column OP of R93. -/
def opcode : Instr → Byte
  | .nop => 0x00
  | .clear => 0x01
  | .count => 0x02
  | .build => 0x03
  | .gencodes => 0x04
  | .wrhdr => 0x05
  | .rewind => 0x06
  | .encode => 0x07
  | .rdmagic => 0x08
  | .rdtree => 0x09
  | .decode => 0x0A
  | .compress => 0x0B
  | .decompress => 0x0C

/-- The command word of a command: OP in bits 7:0, RSVD = 0 (R90). -/
def encode (i : Instr) : Word := (opcode i).setWidth 32

/-- The command that the decoder reads from the word whose bits are `w`, numbered as spec/opcode_table.json
numbers them. Every command is one 32-bit word (R91), so bits above bit 31 must be 0. -/
def decodeTableWord (nbits w : Nat) : Option Instr :=
  if nbits ≤ 32 ∧ w < 2 ^ 32 then (decode (BitVec.ofNat 32 w)).toOption else none

end Sys2Proof
end

