-- ==== Sys2Proof/Machine/State.lean ====
section
/-! DEFINITION. The state of the huff core and of what stands around it, as plain data: the host-visible registers,
the internal stores and the hidden state of 10_state.md, the two bit channels of 20_memory.md, and the host's
script, which says what lands next between two core steps (R76). -/

namespace Sys2Proof.Machine

/-- What stops the machine. No command of the block faults: an error is a state (R225), not a stop. -/
inductive Fault where
  /-- A host access at an offset of 0x100 or more: no register window stands there (R61). Raised by the host
  port. Safe: the access gets no meaning. -/
  | outsideWindow
  deriving DecidableEq, Repr

/-- What the model gives no meaning. -/
inductive Refusal where
  /-- An instruction whose arm has no meaning yet. Raised by a refused arm of `exec`; no arm is one. Safe. -/
  | notModelled (mnemonic : String)
  /-- A host access in the window that is not one aligned 32-bit word: "A model refuses any other access: narrower,
  wider or misaligned. It gives such an access no step and no meaning" (R62). Raised by the host port. Safe. -/
  | hostAccessForm
  deriving DecidableEq, Repr

/-- The error codes of R220, apart from NONE. -/
inductive ErrCode where
  | format
  | truncated
  | internalTable
  | hdrSymbol
  | hdrCapacity
  | hdrShape
  | sequence
  | illegalCmd
  deriving DecidableEq, Repr

/-- A node entry (R32). `left` and `right` mean something only in an internal node, `sym` only in a leaf. -/
structure NodeEntry where
  leaf : Bool
  sym : Sym
  weight : Weight
  left : NodeIx
  right : NodeIx
  deriving DecidableEq, Repr

/-- A code-table entry (R33): bit `j` of the code stands at position `j` of `bits`; positions from `len` on hold 0. -/
structure CodeEntry where
  valid : Bool
  len : BitVec 9
  bits : BitVec 256
  deriving DecidableEq, Repr

/-- An entry of the walk stack (R36), one per open call of a recursive procedure (R13). -/
inductive Frame where
  /-- `walk(i, p)` of GENCODES or `ser(i)` of WRHDR (with `p` empty), still to be run. -/
  | visit (i : NodeIx) (p : Bits)
  /-- The open `parse()` that allocated node `i` and waits for its left subtree. -/
  | left (i : NodeIx)
  /-- The open `parse()` that allocated node `i` and waits for its right subtree. -/
  | right (i : NodeIx)
  deriving DecidableEq, Repr

/-- The command sequencer's position inside the running pseudocode (R21), with the internal variables that the
pseudocode holds there. One core step leaves one position and makes at most one store write or channel
transaction (R251). -/
inductive Pos where
  /-- No command runs. -/
  | idle
  /-- The body has returned: the next sub-command starts, or the command completes (R223). -/
  | ret
  /-- CLEAR: about to write `cnt[s]`. -/
  | clearCnt (s : Nat)
  /-- CLEAR: about to write `code[s]`. -/
  | clearCode (s : Nat)
  /-- CLEAR: about to write the registers. -/
  | clearRegs
  /-- COUNT: about to write 0 to `cnt[s]`. -/
  | countZero (s : Nat)
  /-- COUNT: about to read 8 bits. -/
  | countRead
  /-- COUNT: about to write `cnt[v]`. -/
  | countBump (v : Byte)
  /-- BUILD: about to clear the flags and the tree registers. -/
  | buildStart
  /-- BUILD: at symbol `s` of the leaf loop; 256 is EOS. -/
  | buildLeaf (s : Nat)
  /-- BUILD: at the test of the merge loop. -/
  | buildMerge
  /-- GENCODES: about to clear CODES_VALID and start. -/
  | genStart
  /-- GENCODES: about to invalidate `code[s]`. -/
  | genZero (s : Nat)
  /-- GENCODES: about to run the top of the walk stack. -/
  | genWalk
  /-- WRHDR: about to write the magic. -/
  | hdrMagic
  /-- WRHDR: about to run the top of the walk stack. -/
  | hdrWalk
  /-- WRHDR: about to write the 9-bit symbol of a leaf whose tag bit is written. -/
  | hdrSym (sym : Sym)
  /-- REWIND: about to rewind. -/
  | rewind
  /-- ENCODE: about to read 8 bits. -/
  | encRead
  /-- ENCODE: about to write the first of the code bits that `emit` has left; `last` marks the terminator. -/
  | encEmit (left : Bits) (last : Bool)
  /-- RDMAGIC: about to read 32 bits. -/
  | rdMagic
  /-- RDTREE: about to clear the flags and the tree registers. -/
  | treeStart
  /-- RDTREE: a `parse()` is about to read its 1 bit. -/
  | parseBit
  /-- RDTREE: a `parse()` has read 0 and is about to allocate an internal node. -/
  | parseInternal
  /-- RDTREE: a `parse()` has read 1 and is about to read the 9-bit symbol. -/
  | parseSym
  /-- RDTREE: a `parse()` is about to allocate a leaf. -/
  | parseLeaf (sym : Sym)
  /-- RDTREE: a `parse()` has returned node `i`. -/
  | parseRet (i : NodeIx)
  /-- DECODE: about to look at the root. -/
  | decStart
  /-- DECODE: about to read 1 bit; at-root or at-intermediate-node (R191). -/
  | decRead
  /-- DECODE: the cursor is a byte leaf; about to write its byte. -/
  | decEmit
  deriving DecidableEq, Repr

/-- What the input channel presents (R66 to R71). -/
inductive Source where
  /-- A finite bit string, then `End`: the reference channel of R71, and any finite input. -/
  | bits (bs : Bits)
  /-- A channel that never answers `End` (R17, R232). Its bits are free, and the same after a rewind. -/
  | endless
  /-- A channel as an oracle: each read gets any `Val` of its width, or `End` (R71). -/
  | oracle
  deriving DecidableEq, Repr

/-- What lands next: a host access, another event from outside, or a core step (R7, R76 item 2). -/
inductive Move where
  /-- One host register access (R62, R63). A write of CMD starts the command and runs none of its steps. -/
  | access (a : Access)
  /-- A host write of `w` to CMD, after which nothing lands until the core has run the command. -/
  | call (w : Word)
  /-- `WAIT`: the host polls STATUS until BUSY reads 0 (R100). -/
  | wait
  /-- `CHECK`: a read of the register at `offset`; the test fails unless it equals `v` (R100). -/
  | check (offset : Nat) (v : Word)
  /-- One core step. -/
  | core
  /-- The `RST` input is asserted (R250). -/
  | rst
  /-- The input channel is given a new source, at position 0. -/
  | present (src : Source)
  /-- The host closes the output channel, which pads it (R72, R265). -/
  | closeOutput
  /-- The output channel is given a fresh, empty bit string. -/
  | freshOutput
  deriving DecidableEq, Repr

/-- The whole state. -/
@[ext]
structure State where
  /-- STATUS.BUSY (R24). -/
  busy : Bool
  /-- STATUS.DONE (R24). -/
  done : Bool
  /-- STATUS.ERR (R24). -/
  err : Bool
  /-- STATUS.TREE_VALID (R24). -/
  treeValid : Bool
  /-- STATUS.CODES_VALID (R24). -/
  codesValid : Bool
  /-- STATUS.CMD_DROPPED (R24). -/
  cmdDropped : Bool
  /-- STATUS.LAST_OP (R24). -/
  lastOp : Byte
  /-- ERRINFO.CODE (R25). -/
  errCode : BitVec 4
  /-- ERRINFO.OP (R25). -/
  errOp : Byte
  /-- SEL.SYM (R39). -/
  selSym : Sym
  /-- SEL.WIDX (R39). -/
  selWidx : BitVec 3
  /-- The count store `cnt[0..255]` (R29). -/
  cnt : Vector Word 256
  /-- The node store `node[0..512]` (R30, R32). -/
  node : Vector NodeEntry nodeCap
  /-- `nNodes`, the slots allocated (R30). -/
  nNodes : BitVec 10
  /-- `nLeaf`, the leaves (R30). -/
  nLeaf : BitVec 9
  /-- `nInt`, the internal nodes (R30). -/
  nInt : BitVec 9
  /-- `root`, the index of the root (R30). -/
  root : NodeIx
  /-- The code table `code[0..256]` (R33). -/
  code : Vector CodeEntry 257
  /-- The priority queue `PQ` (R35). -/
  pq : List NodeIx
  /-- The walk stack (R36), its top first. -/
  stack : List Frame
  /-- The decoder cursor `cur` (R37). -/
  cur : NodeIx
  /-- `curop`, the opcode of the running command or sub-command (R21). -/
  curop : Byte
  /-- The sequencer's position (R21). -/
  pos : Pos
  /-- The sub-commands that COMPRESS or DECOMPRESS has still to start (R203, R204). -/
  todo : List Instr
  /-- What the input channel presents (R38, R66). -/
  source : Source
  /-- The input channel's read position, in bits (R38, R66). -/
  inPos : Nat
  /-- The output channel's bit string (R38, R69). -/
  out : Bits
  /-- The host's script: what lands next (R76, R99). The model's own. -/
  script : List Move
  /-- The value that the host's last register read returned (R63, R99). The model's own. -/
  rdata : Word
  /-- A `CHECK` of the script has failed (R100). The model's own. -/
  checkFailed : Bool
  /-- How many draws the environment has made (R12). The model's own: it indexes the free values of Config. -/
  draws : Nat
  deriving DecidableEq, Repr

/-- The code entry of a symbol with no code (R33). -/
def noCode : CodeEntry := { valid := false, len := 0#9, bits := 0#256 }

/-- The contents of a node slot after reset. The spec leaves them unspecified and no command reads them (R30);
DESIGN CHOICE, log entry 6. -/
def blankNode : NodeEntry := { leaf := false, sym := 0#9, weight := 0#40, left := 0, right := 0 }

/-- The state right after power-on: the block as R45 and R250 say, an empty input at its start, an empty output and
no script (log entries 6, 7 and 8). -/
def State.reset : State where
  busy := false
  done := false
  err := false
  treeValid := false
  codesValid := false
  cmdDropped := false
  lastOp := 0#8
  errCode := 0#4
  errOp := 0#8
  selSym := 0#9
  selWidx := 0#3
  cnt := Vector.replicate 256 0#32
  node := Vector.replicate nodeCap blankNode
  nNodes := 0#10
  nLeaf := 0#9
  nInt := 0#9
  root := 0
  code := Vector.replicate 257 noCode
  pq := []
  stack := []
  cur := 0
  curop := 0#8
  pos := .idle
  todo := []
  source := .bits []
  inPos := 0
  out := []
  script := []
  rdata := 0#32
  checkFailed := false
  draws := 0

end Sys2Proof.Machine
end

