-- ==== Sys2Proof/Machine/Operands.lean ====
section
/-! DEFINITION. The operands of the commands, all implicit (30_encoding.md R92): fields on a channel, the channel
transactions (20_memory.md R66 to R75), and the accesses to the stores `cnt`, `node` and `code` (10_state.md R29 to R33). -/

namespace Sys2Proof.Machine

/-- `bin_n(v)`: the `n`-bit string of `v`, most significant bit first (R10). -/
def bin (n : Nat) (v : BitVec n) : Bits := (List.range n).map v.getMsbD

/-- The number whose bits are `bs`, most significant bit first (R66, R70). -/
def natOfBits (bs : Bits) : Nat := bs.foldl (fun a b => 2 * a + b.toNat) 0

/-- The bit string of bytes on the reference channel: each byte most significant bit first, bytes in order (R71). -/
def bitsOfBytes (bytes : List Byte) : Bits := bytes.flatMap (bin 8)

/-- What `ChanRead(n)` answers at position `at_` and draw `k`: `none` is `End`, `some v` is `Val(v)`. A finite source
answers `End` when fewer than `n` bits remain (R66, R67); the other sources are those of R71 and R232. -/
def sourceRead (src : Source) (at_ k n : Nat) : Option (BitVec n) :=
  match src with
  | .bits bs => if n ≤ (bs.drop at_).length then some (BitVec.ofNat n (natOfBits ((bs.drop at_).take n))) else none
  | .endless => some (BitVec.ofNat n (natOfBits ((List.range n).map fun i => Config.endlessBit (at_ + i))))
  | .oracle => (Config.oracleRead k n).map (BitVec.ofNat n)

/-- Whether an answer of the source is a draw of the environment (log entry 5). -/
def Source.draws : Source → Nat
  | .oracle => 1
  | _ => 0

/-- `ChanRead(n)`: on `Val` the position advances by `n`, on `End` it does not move (R66, R67). -/
def chanRead (n : Nat) (s : State) : Option (BitVec n) × State :=
  match sourceRead s.source s.inPos s.draws n with
  | some v => (some v, { s with inPos := s.inPos + n, draws := s.draws + s.source.draws })
  | none => (none, { s with draws := s.draws + s.source.draws })

/-- `ChanWrite(n, v)`: appends `bin_n(v)` to the output; it never fails (R69). -/
def chanWrite (n : Nat) (v : BitVec n) (s : State) : State := { s with out := s.out ++ bin n v }

/-- `ChanRewind()`: the read position becomes 0 (R68). -/
def chanRewind (s : State) : State := { s with inPos := 0 }

/-- `sat_inc_32` (R11, R111). -/
def satInc (v : Word) : Word := if v = BitVec.allOnes 32 then v else v + 1#32

/-- `MemWrite(cnt, i, v)` (R11, R29). Every index used is below 256. -/
def writeCnt (i : Nat) (v : Word) (s : State) : State :=
  if h : i < 256 then { s with cnt := s.cnt.set i v h } else s

/-- `MemRead(cnt, i)` (R11, R29). Every index used is below 256. -/
def readCnt (i : Nat) (s : State) : Word := s.cnt.toList.getD i 0#32

/-- `MemWrite(code, i, e)` (R11, R33). An index above 256 names no entry, and none is written: R140 says that it does
not occur (log entry 11). -/
def writeCode (i : Nat) (e : CodeEntry) (s : State) : State :=
  if h : i < 257 then { s with code := s.code.set i e h } else s

/-- `MemRead(code, i)` (R11, R33). Every index used is at most 256. -/
def readCode (i : Nat) (s : State) : CodeEntry := s.code.toList.getD i noCode

/-- The number whose bit `j` is element `j` of `p` (R33). -/
def natOfPath (p : Bits) : Nat := p.foldr (fun b a => b.toNat + 2 * a) 0

/-- The entry `{valid=1, len=|p|, bits=p}` (R33, R140). -/
def codeOf (p : Bits) : CodeEntry :=
  { valid := true, len := BitVec.ofNat 9 p.length, bits := BitVec.ofNat 256 (natOfPath p) }

/-- The bit string that an entry holds: bits 0 to `len`-1 (R33, R181). -/
def codeBits (e : CodeEntry) : Bits := (List.range e.len.toNat).map e.bits.getLsbD

/-- `MemRead(node, i)` (R11, R32). -/
def readNode (i : NodeIx) (s : State) : NodeEntry := s.node.toList.getD i.val blankNode

/-- `MemWrite(node, i, e)` (R11, R32). -/
def writeNode (i : NodeIx) (e : NodeEntry) (s : State) : State := { s with node := s.node.set i e }

/-- The slot that the next allocation takes, `i <- nNodes` (R30, R120). It is below 513 whenever a command allocates
(R30; log entry 11). -/
def nextSlot (s : State) : NodeIx := Fin.ofNat nodeCap s.nNodes.toNat

/-- `newLeaf(sym, w)` without its result, which is `nextSlot` before it (R120). -/
def newLeaf (sym : Sym) (w : Weight) (s : State) : State :=
  { writeNode (nextSlot s) { leaf := true, sym := sym, weight := w, left := 0, right := 0 } s with
    nNodes := s.nNodes + 1#10, nLeaf := s.nLeaf + 1#9 }

/-- `newInternal(w, a, b)` without its result, which is `nextSlot` before it (R120). -/
def newInternal (w : Weight) (a b : NodeIx) (s : State) : State :=
  { writeNode (nextSlot s) { leaf := false, sym := 0#9, weight := w, left := a, right := b } s with
    nNodes := s.nNodes + 1#10, nInt := s.nInt + 1#9 }

end Sys2Proof.Machine
end

