-- ==== Sys2Proof/Machine/Flags.lean ====
section
/-! DEFINITION. The status and readback registers as the host reads them (10_state.md R24 to R28 and R39 to R43). The
block has no condition codes (R44). Its flags are the bits of STATUS, held as fields of State; reserved bits read 0. -/

namespace Sys2Proof.Machine

/-- A one-bit field at bit `k` of a 32-bit register. -/
def bitAt (b : Bool) (k : Nat) : Word := BitVec.ofNat 32 (b.toNat <<< k)

/-- STATUS (R24). -/
def statusWord (s : State) : Word :=
  bitAt s.busy 0 ||| bitAt s.done 1 ||| bitAt s.err 2 ||| bitAt s.treeValid 3 ||| bitAt s.codesValid 4
    ||| bitAt s.cmdDropped 5 ||| s.lastOp.setWidth 32 <<< 8

/-- ERRINFO (R25). -/
def errinfoWord (s : State) : Word := s.errCode.setWidth 32 ||| s.errOp.setWidth 32 <<< 8

/-- CTRL: SOFT_RESET reads 0, HDRSEL is hardwired 0 and the rest is reserved (R26). -/
def ctrlWord : Word := 0#32

/-- TREEINFO (R28): 0 when TREE_VALID = 0. -/
def treeInfoWord (s : State) : Word :=
  if s.treeValid then s.nLeaf.setWidth 32 ||| s.nInt.setWidth 32 <<< 16 else 0#32

/-- SEL (R39). -/
def selWord (s : State) : Word := s.selSym.setWidth 32 ||| s.selWidx.setWidth 32 <<< 16

/-- COUNT_RD (R40). -/
def countRdWord (s : State) : Word := if s.selSym.toNat ≤ 255 then readCnt s.selSym.toNat s else 0#32

/-- `code[SEL.SYM]` where SEL.SYM ≤ 256 and the entry is valid (R41, R42). -/
def selectedCode (s : State) : Option CodeEntry :=
  let e := readCode s.selSym.toNat s
  if s.selSym.toNat ≤ 256 ∧ e.valid = true then some e else none

/-- CODE_LEN (R41). -/
def codeLenWord (s : State) : Word :=
  match selectedCode s with
  | some e => bitAt true 31 ||| e.len.setWidth 32
  | none => 0#32

/-- Bit `j` of word `w` of a code: code bit `32 w + j` where it is below `len`, else 0 (R42). -/
def codeWordBit (e : CodeEntry) (w j : Nat) : Bool := decide (32 * w + j < e.len.toNat) && e.bits.getLsbD (32 * w + j)

/-- CODE_WORD (R42): code bit `32 w + j` stands at bit 31 - j. -/
def codeWordWord (s : State) : Word :=
  match selectedCode s with
  | some e => BitVec.ofNat 32 (natOfBits ((List.range 32).map (codeWordBit e s.selWidx.toNat)))
  | none => 0#32

end Sys2Proof.Machine
end

