-- ==== Sys2Proof/Machine/Ops.lean ====
section
/-! DEFINITION. The shared operations of the sequencer (60_exceptions.md): accepting and dropping a command word,
completing, taking an error (`raiseErr`, the abort of R225) and leaving the error state (`clearState`, R201 and
R230), and the reset of 70_reset_and_hazards.md R250. -/

namespace Sys2Proof.Machine

/-- The code of an error, as ERRINFO.CODE holds it (R220). -/
def errCodeOf : ErrCode → BitVec 4
  | .format => 0x1
  | .truncated => 0x2
  | .internalTable => 0x3
  | .hdrSymbol => 0x4
  | .hdrCapacity => 0x5
  | .hdrShape => 0x6
  | .sequence => 0x7
  | .illegalCmd => 0x8

/-- The sequencer goes to position `p`. -/
def goto (p : Pos) (s : State) : State := { s with pos := p }

/-- `raise E`, the abort (R225): ERRINFO records the code and `curop`, ERR is set, BUSY and DONE are cleared, and the
body stops: no position, no sub-command and no open call is left (log entry 12). Nothing is saved for a return. -/
def raiseErr (e : ErrCode) (s : State) : State :=
  { s with errCode := errCodeOf e, errOp := s.curop, err := true, busy := false, done := false,
           pos := .idle, todo := [], stack := [] }

/-- The last writes of CLEAR, the return from the error state (R201, R230): every register that CLEAR writes beside
the entries of `cnt` and `code`. `curop` is among them, so that CLEAR and a reset agree on it (R253; log entry 13). -/
def clearState (s : State) : State :=
  { s with nNodes := 0#10, nLeaf := 0#9, nInt := 0#9, root := 0, pq := [], cur := 0, err := false, treeValid := false,
           codesValid := false, cmdDropped := false, errCode := 0#4, errOp := 0#8, curop := 0#8 }

/-- Completion (R223). -/
def complete (s : State) : State := { s with busy := false, done := true, pos := .idle }

/-- A word that is dropped: nothing but CMD_DROPPED changes (R222). -/
def dropWord (s : State) : State := { s with cmdDropped := true }

/-- A word that is accepted: `STATUS.DONE <- 0; STATUS.LAST_OP <- w[7:0]; STATUS.BUSY <- 1; curop <- w[7:0]` (R222). -/
def acceptWord (w : Word) (s : State) : State :=
  { s with done := false, lastOp := opField w, busy := true, curop := opField w }

/-- A body whose pseudocode begins at `p` starts (R222). -/
def beginBody (p : Pos) (s : State) : State := { s with pos := p, todo := [], stack := [] }

/-- The reset of the block, by `RST` or CTRL.SOFT_RESET (R250): every piece of block state takes its reset value. The
channels (R38) and what is not the block's stay. -/
def resetBlock (s : State) : State :=
  { State.reset with
    source := s.source, inPos := s.inPos, out := s.out,
    script := s.script, rdata := s.rdata, checkFailed := s.checkFailed, draws := s.draws }

end Sys2Proof.Machine
end

