-- ==== Sys2Proof/Machine/CodeTable.lean ====
section
/-! DEFINITION. GENCODES, the code-table generator (42_code_table.md R140 to R143), one core step a definition. The
recursive `walk` runs on the walk stack (00_scope.md R13, 10_state.md R36). -/

namespace Sys2Proof.Machine

/-- Where GENCODES' body begins. -/
def gencodesEntry : Pos := .genStart

/-- `STATUS.CODES_VALID <- 0` (R140). -/
def genStartStep (s : State) : State := { s with codesValid := false, pos := .genZero 0 }

/-- `for s in 0..256: MemWrite(code, s, {valid=0, len=0, bits=0})`, at `s`, and after it the call of `walk(root, ε)`
(R140). -/
def genZeroStep (i : Nat) (s : State) : State :=
  if i + 1 < 257 then goto (.genZero (i + 1)) (writeCode i noCode s)
  else { writeCode i noCode s with stack := [.visit s.root []], pos := .genWalk }

/-- `walk(i, p)` of R140: a leaf writes its entry; an internal node calls the walk of its left child with edge 0, then
that of its right child with edge 1 (R141). -/
def walkNode (i : NodeIx) (p : Bits) (rest : List Frame) (s : State) : State :=
  let e := readNode i s
  if e.leaf then { writeCode e.sym.toNat (codeOf p) s with stack := rest }
  else { s with stack := .visit e.left (p ++ [false]) :: .visit e.right (p ++ [true]) :: rest }

/-- The top of the walk stack runs; with none left, `STATUS.CODES_VALID <- 1` (R140). Frames of a parse do not stand
on the stack of a walk. -/
def genWalkStep (s : State) : State :=
  match s.stack with
  | [] => { s with codesValid := true, pos := .ret }
  | .visit i p :: rest => walkNode i p rest s
  | _ :: rest => { s with stack := rest }

end Sys2Proof.Machine
end

