-- ==== Sys2Proof/Machine/Control.lean ====
section
/-! DEFINITION. CLEAR and REWIND and the order of the two pipelines (46_control.md R201 to R206), one core step a
definition. NOP changes no state and has no body (R200). -/

namespace Sys2Proof.Machine

/-- Where CLEAR's body begins. -/
def clearEntry : Pos := .clearCnt 0

/-- `for s in 0..255: MemWrite(cnt, s, 0)`, at `s` (R201). -/
def clearCntStep (i : Nat) (s : State) : State :=
  goto (if i + 1 < 256 then .clearCnt (i + 1) else .clearCode 0) (writeCnt i 0#32 s)

/-- `for s in 0..256: MemWrite(code, s, {valid=0, len=0, bits=0})`, at `s` (R201). -/
def clearCodeStep (i : Nat) (s : State) : State :=
  goto (if i + 1 < 257 then .clearCode (i + 1) else .clearRegs) (writeCode i noCode s)

/-- CLEAR's last lines: the registers, and with them the error state is left (R201, R230). -/
def clearRegsStep (s : State) : State := goto .ret (clearState s)

/-- Where REWIND's body begins. -/
def rewindEntry : Pos := .rewind

/-- `REWIND: ChanRewind()` (R202). -/
def rewindStep (s : State) : State := goto .ret (chanRewind s)

/-- The sub-commands of COMPRESS, in order (R203). -/
def compressSubs : List Instr := [.count, .build, .gencodes, .wrhdr, .rewind, .encode]

/-- The sub-commands of DECOMPRESS, in order (R204). -/
def decompressSubs : List Instr := [.rdmagic, .rdtree, .decode]

end Sys2Proof.Machine
end

