-- ==== Sys2Proof/Machine/Counter.lean ====
section
/-! DEFINITION. COUNT, the frequency counter (40_frequency_counter.md R110 to R112), one core step a definition. -/

namespace Sys2Proof.Machine

/-- Where COUNT's body begins. -/
def countEntry : Pos := .countZero 0

/-- `for s in 0..255: MemWrite(cnt, s, 0)`, at `s` (R110). -/
def countZeroStep (i : Nat) (s : State) : State :=
  goto (if i + 1 < 256 then .countZero (i + 1) else .countRead) (writeCnt i 0#32 s)

/-- `r <- ChanRead(8)`; `End` is the normal end of the pass (R110). -/
def countReadStep (s : State) : State :=
  match chanRead 8 s with
  | (some v, s') => goto (.countBump v) s'
  | (none, s') => goto .ret s'

/-- `MemWrite(cnt, r.v, sat_inc_32(MemRead(cnt, r.v)))` (R110, R111). -/
def countBumpStep (v : Byte) (s : State) : State :=
  goto .countRead (writeCnt v.toNat (satInc (readCnt v.toNat s)) s)

end Sys2Proof.Machine
end

