-- ==== Sys2Proof/Machine/Decoder.lean ====
section
/-! DEFINITION. DECODE, the stream decoder (45_stream_decoder.md R190 to R196), one core step a definition. -/

namespace Sys2Proof.Machine

/-- Where DECODE's body begins. -/
def decodeEntry : Pos := .decStart

/-- `if node[root].leaf = 1: return`, else `cur <- root` (R190, R192). -/
def decStartStep (s : State) : State :=
  if (readNode s.root s).leaf then goto .ret s else { s with cur := s.root, pos := .decRead }

/-- `cur <- (r.v = 0) ? node[cur].left : node[cur].right` (R190). -/
def childOf (v : BitVec 1) (e : NodeEntry) : NodeIx := if v = 0#1 then e.left else e.right

/-- The cursor has moved: an EOS leaf ends the decode, another leaf is written next, an internal node reads on (R190,
R191). -/
def decArrive (s : State) : State :=
  let e := readNode s.cur s
  if e.leaf then (if e.sym = eos then goto .ret s else goto .decEmit s) else goto .decRead s

/-- `r <- ChanRead(1)`: TRUNCATED on `End`, else the cursor moves (R190). -/
def decReadStep (s : State) : State :=
  match chanRead 1 s with
  | (none, s') => raiseErr .truncated s'
  | (some v, s') => decArrive { s' with cur := childOf v (readNode s'.cur s') }

/-- `ChanWrite(8, node[cur].sym[7:0]); cur <- root` (R190). -/
def decEmitStep (s : State) : State :=
  { chanWrite 8 ((readNode s.cur s).sym.extractLsb' 0 8) s with cur := s.root, pos := .decRead }

end Sys2Proof.Machine
end

