-- ==== Sys2Proof/Machine/Encoder.lean ====
section
/-! DEFINITION. ENCODE, the stream encoder (44_stream_encoder.md R180 to R184), one core step a definition. -/

namespace Sys2Proof.Machine

/-- Where ENCODE's body begins. -/
def encodeEntry : Pos := .encRead

/-- `if e.valid = 0: raise INTERNAL_TABLE`, else the call of `emit(e)` (R180, R182). -/
def emitEntry (e : CodeEntry) (last : Bool) (s : State) : State :=
  if e.valid then goto (.encEmit (codeBits e) last) s else raiseErr .internalTable s

/-- `r <- ChanRead(8)`: a byte's entry, or after `End` the entry of EOS (R180, R182). -/
def encReadStep (s : State) : State :=
  match chanRead 8 s with
  | (some v, s') => emitEntry (readCode v.toNat s') false s'
  | (none, s') => emitEntry (readCode 256 s') true s'

/-- `emit(e)`: one code bit a transaction, the edge at the root first (R181). After the terminator ENCODE returns. -/
def encEmitStep (left : Bits) (last : Bool) (s : State) : State :=
  match left with
  | b :: rest => goto (.encEmit rest last) (chanWrite 1 (BitVec.ofBool b) s)
  | [] => goto (if last then .ret else .encRead) s

end Sys2Proof.Machine
end

