-- ==== Sys2Proof/Machine/Builder.lean ====
section
/-! DEFINITION. BUILD, the tree builder (41_tree_builder.md R120 to R128), one core step a definition. The order among
equal weights is a draw of the environment (R122). -/

namespace Sys2Proof.Machine

/-- Where BUILD's body begins. -/
def buildEntry : Pos := .buildStart

/-- The flags and tree registers that BUILD and RDTREE clear at their start (R120, R153, R206). -/
def clearTree (s : State) : State :=
  { s with treeValid := false, codesValid := false, nNodes := 0#10, nLeaf := 0#9, nInt := 0#9 }

/-- BUILD's first line and `PQ <- {}` (R120). -/
def buildStartStep (s : State) : State := { clearTree s with pq := [], pos := .buildLeaf 0 }

/-- `PQ <- PQ ∪ { newLeaf(sym, w) }` (R120). -/
def queueLeaf (sym : Sym) (w : Weight) (s : State) : State :=
  { newLeaf sym w s with pq := s.pq ++ [nextSlot s] }

/-- The leaf loop at symbol `i`: a leaf for a byte with a positive count, and after the bytes the leaf of EOS with
weight 1 (R120, R121). -/
def buildLeafStep (i : Nat) (s : State) : State :=
  if i < 256 then
    goto (.buildLeaf (i + 1))
      (if 0 < (readCnt i s).toNat then queueLeaf (BitVec.ofNat 9 i) ((readCnt i s).setWidth 40) s else s)
  else goto .buildMerge (queueLeaf eos 1#40 s)

/-- The entries of `PQ` whose weight no entry of `PQ` is below (R122). -/
def minEntries (w : NodeIx → Weight) (pq : List NodeIx) : List NodeIx :=
  pq.filter fun a => pq.all fun b => decide ((w a).toNat ≤ (w b).toNat)

/-- The answer of a draw among `a :: rest`: with one admissible answer it is that one, else the environment's (R12,
R122). -/
def drawFrom (k : Nat) (a : NodeIx) (rest : List NodeIx) : NodeIx :=
  match rest with
  | [] => a
  | _ => (a :: rest).getD (Config.tieDraw k % (rest.length + 1)) a

/-- `extractMin()`: the drawn entry of minimal weight and what is left of `PQ` (R120, R122). An empty `PQ` gives none. -/
def extractMin (w : NodeIx → Weight) (k : Nat) (pq : List NodeIx) : Option (NodeIx × List NodeIx) :=
  match minEntries w pq with
  | [] => none
  | a :: rest => let m := drawFrom k a rest; some (m, pq.erase m)

/-- The weight of a node (R31). -/
def weightOf (s : State) (i : NodeIx) : Weight := (readNode i s).weight

/-- One merge: the first extracted node is the left child, the second the right child, and the new node's weight is
their sum (R123). The two extractions draw independently (R122). -/
def mergeStep (s : State) : State :=
  match extractMin (weightOf s) s.draws s.pq with
  | none => s
  | some (a, pq₁) =>
    match extractMin (weightOf s) (s.draws + 1) pq₁ with
    | none => s
    | some (b, pq₂) =>
      { newInternal (weightOf s a + weightOf s b) a b s with pq := pq₂ ++ [nextSlot s], draws := s.draws + 2 }

/-- `root <- the single element of PQ; PQ <- {}; STATUS.TREE_VALID <- 1` (R120, R124). -/
def buildEndStep (s : State) : State :=
  { s with root := s.pq.headD s.root, pq := [], treeValid := true, pos := .ret }

/-- The merge loop at its test, `while |PQ| > 1` (R120, R124). -/
def buildMergeStep (s : State) : State :=
  if 1 < s.pq.length then mergeStep s else buildEndStep s

end Sys2Proof.Machine
end

