-- ==== Sys2Proof/Machine/Header.lean ====
section
/-! DEFINITION. WRHDR, RDMAGIC and RDTREE, the header codec (43_header_codec.md R150 to R161), one core step a definition.
The recursive `ser` and `parse` run on the walk stack (00_scope.md R13, 10_state.md R36). -/

namespace Sys2Proof.Machine

/-- Where WRHDR's body begins. -/
def wrhdrEntry : Pos := .hdrMagic

/-- `ChanWrite(32, MAGIC)`, then the call of `ser(root)` (R150). -/
def hdrMagicStep (s : State) : State :=
  { chanWrite 32 Config.magic s with stack := [.visit s.root []], pos := .hdrWalk }

/-- `ser(i)` of R151 as far as its first transaction: a leaf writes 1 and then its symbol; an internal node writes 0 and
calls `ser` of its left child, then of its right child. -/
def serNode (i : NodeIx) (rest : List Frame) (s : State) : State :=
  let e := readNode i s
  if e.leaf then { chanWrite 1 1#1 s with stack := rest, pos := .hdrSym e.sym }
  else { chanWrite 1 0#1 s with stack := .visit e.left [] :: .visit e.right [] :: rest }

/-- The top of the walk stack runs; with none left, WRHDR returns (R151). -/
def hdrWalkStep (s : State) : State :=
  match s.stack with
  | [] => goto .ret s
  | .visit i _ :: rest => serNode i rest s
  | _ :: rest => { s with stack := rest }

/-- `ChanWrite(9, node[i].sym)` (R151). -/
def hdrSymStep (sym : Sym) (s : State) : State := goto .hdrWalk (chanWrite 9 sym s)

/-- Where RDMAGIC's body begins. -/
def rdmagicEntry : Pos := .rdMagic

/-- RDMAGIC: TRUNCATED on `End`, FORMAT on a mismatch (R152, R160). -/
def rdMagicStep (s : State) : State :=
  match chanRead 32 s with
  | (none, s') => raiseErr .truncated s'
  | (some v, s') => if v ≠ Config.magic then raiseErr .format s' else goto .ret s'

/-- Where RDTREE's body begins. -/
def rdtreeEntry : Pos := .treeStart

/-- RDTREE's first lines, then the call of `parse()` (R153). -/
def treeStartStep (s : State) : State := { clearTree s with stack := [], pos := .parseBit }

/-- `r <- ChanRead(1)` of `parse()`: TRUNCATED on `End`; on 0 the capacity check of R155, then an internal node; on 1 a
leaf (R154). -/
def parseBitStep (s : State) : State :=
  match chanRead 1 s with
  | (none, s') => raiseErr .truncated s'
  | (some v, s') =>
    if v = 0#1 then
      if s'.nInt = 256#9 then raiseErr .hdrCapacity s' else goto .parseInternal s'
    else goto .parseSym s'

/-- `i <- newInternal(0, 0, 0)`, then the call of `parse()` for the left subtree (R154). -/
def parseInternalStep (s : State) : State :=
  { newInternal 0#40 0 0 s with stack := .left (nextSlot s) :: s.stack, pos := .parseBit }

/-- `r9 <- ChanRead(9)`: TRUNCATED on `End`, HDR_SYMBOL above 256 (R154, R155). -/
def parseSymStep (s : State) : State :=
  match chanRead 9 s with
  | (none, s') => raiseErr .truncated s'
  | (some v, s') => if 256 < v.toNat then raiseErr .hdrSymbol s' else goto (.parseLeaf v) s'

/-- `return newLeaf(r9.v, 0)` (R154, R156). -/
def parseLeafStep (sym : Sym) (s : State) : State := goto (.parseRet (nextSlot s)) (newLeaf sym 0#40 s)

/-- `root <- parse()` has node `i`: HDR_SHAPE for a leaf other than EOS, else `STATUS.TREE_VALID <- 1` (R153, R157). -/
def parseEnd (i : NodeIx) (s : State) : State :=
  let s' := { s with root := i }
  if (readNode i s).leaf = true ∧ (readNode i s).sym ≠ eos then raiseErr .hdrShape s'
  else { s' with treeValid := true, pos := .ret }

/-- A `parse()` has returned node `i` to the call that waits for it: `node[j].left <- i` and the parse of the right
subtree, or `node[j].right <- i` and the return of `j`, or the end (R153, R154). -/
def parseRetStep (i : NodeIx) (s : State) : State :=
  match s.stack with
  | [] => parseEnd i s
  | .left j :: rest =>
    { writeNode j { readNode j s with left := i } s with stack := .right j :: rest, pos := .parseBit }
  | .right j :: rest =>
    { writeNode j { readNode j s with right := i } s with stack := rest, pos := .parseRet j }
  | .visit _ _ :: rest => { s with stack := rest }

end Sys2Proof.Machine
end

