-- ==== Sys2Proof/Machine/Sequencer.lean ====
section
/-! DEFINITION. The command sequencer: the handling of a word written to CMD (60_exceptions.md R222 to R224), one core
step (R251), and the run of a command. -/

namespace Sys2Proof.Machine

/-- Where the body of a command begins. A compound command has no steps of its own: its sub-commands start as a body
that has returned would start the next (R203, R204). NOP has no body (R200). -/
def entryOf : Instr → Pos
  | .nop => .ret
  | .clear => clearEntry
  | .count => countEntry
  | .build => buildEntry
  | .gencodes => gencodesEntry
  | .wrhdr => wrhdrEntry
  | .rewind => rewindEntry
  | .encode => encodeEntry
  | .rdmagic => rdmagicEntry
  | .rdtree => rdtreeEntry
  | .decode => decodeEntry
  | .compress => .ret
  | .decompress => .ret

/-- The sub-commands of a command (R203, R204). -/
def subsOf : Instr → List Instr
  | .compress => compressSubs
  | .decompress => decompressSubs
  | _ => []

/-- The prerequisite of a command (R205). -/
def prerequisite (i : Instr) (s : State) : Bool :=
  match i with
  | .gencodes => s.treeValid
  | .wrhdr => s.treeValid
  | .encode => s.codesValid
  | .decode => s.treeValid
  | _ => true

/-- `run the body of w[7:0]`: the sequencer goes to where the body begins (R222). -/
def startBody (i : Instr) (s : State) : State := { beginBody (entryOf i) s with todo := subsOf i }

/-- The acceptance of a word that is neither dropped nor NOP: ILLEGAL_CMD, then SEQUENCE, then the body (R222, R224). -/
def startWord (w : Word) (s : State) : State :=
  match decode w with
  | .error _ => raiseErr .illegalCmd (acceptWord w s)
  | .ok i =>
    if prerequisite i s then startBody i (acceptWord w s) else raiseErr .sequence (acceptWord w s)

/-- On a host write of `w` to CMD (R222): the conditions in the order of R224. -/
def submit (w : Word) (s : State) : State :=
  if s.busy then dropWord s
  else if s.err = true ∧ w ≠ 0#32 ∧ w ≠ 1#32 then dropWord s
  else if w = 0#32 then s
  else startWord w s

/-- A body has returned: the next sub-command starts under its own opcode, and with none left the command completes
(R203, R204, R222, R223). -/
def retStep (s : State) : State :=
  match s.todo with
  | [] => complete s
  | i :: rest => { s with pos := entryOf i, todo := rest, stack := [], curop := opcode i }

/-- The core step at a position. -/
def stepAt (p : Pos) (s : State) : State :=
  match p with
  | .idle => s
  | .ret => retStep s
  | .clearCnt i => clearCntStep i s
  | .clearCode i => clearCodeStep i s
  | .clearRegs => clearRegsStep s
  | .countZero i => countZeroStep i s
  | .countRead => countReadStep s
  | .countBump v => countBumpStep v s
  | .buildStart => buildStartStep s
  | .buildLeaf i => buildLeafStep i s
  | .buildMerge => buildMergeStep s
  | .genStart => genStartStep s
  | .genZero i => genZeroStep i s
  | .genWalk => genWalkStep s
  | .hdrMagic => hdrMagicStep s
  | .hdrWalk => hdrWalkStep s
  | .hdrSym sym => hdrSymStep sym s
  | .rewind => rewindStep s
  | .encRead => encReadStep s
  | .encEmit left last => encEmitStep left last s
  | .rdMagic => rdMagicStep s
  | .treeStart => treeStartStep s
  | .parseBit => parseBitStep s
  | .parseInternal => parseInternalStep s
  | .parseSym => parseSymStep s
  | .parseLeaf sym => parseLeafStep sym s
  | .parseRet i => parseRetStep i s
  | .decStart => decStartStep s
  | .decRead => decReadStep s
  | .decEmit => decEmitStep s

/-- One core step: at most one store write or channel transaction (R251; log entry 10). An idle block does nothing
(R239). -/
def coreStep (s : State) : State := if s.busy then stepAt s.pos s else s

/-- At most `n` core steps, until the block is idle. -/
def runCore : Nat → State → State
  | 0, s => s
  | n + 1, s => if s.busy then runCore n (coreStep s) else s

/-- The length of a finite source, in bits. -/
def Source.length : Source → Nat
  | .bits bs => bs.length
  | _ => 0

/-- A number of core steps in which every command on a finite source ends (R274 counts them). A command that still
runs after so many steps stays BUSY, and later steps go on with it (log entry 15). -/
def workBound (s : State) : Nat := 8192 + 128 * s.source.length

/-- A host write of `w` to CMD, and the core's run of the command that it starts with nothing landing between. -/
def runWord (w : Word) (s : State) : State :=
  if s.busy then submit w s else runCore (workBound s) (submit w s)

end Sys2Proof.Machine
end

