-- ==== Sys2Proof/Machine/Commands.lean ====
section
/-! DEFINITION. The meaning of each command: its word is written to CMD, and the core runs it to its end (00_scope.md
R17, 60_exceptions.md R222). The bodies are in Counter, Builder, CodeTable, Header, Encoder, Decoder and Control. No
meaning stops: an error is a next state in the error state (R225). -/

namespace Sys2Proof.Machine

/-- NOP (R200). -/
def execNop (s : State) : Host.Outcome State Fault Refusal := .next (runWord (encode .nop) s)

/-- CLEAR (R201). -/
def execClear (s : State) : Host.Outcome State Fault Refusal := .next (runWord (encode .clear) s)

/-- COUNT (R110). -/
def execCount (s : State) : Host.Outcome State Fault Refusal := .next (runWord (encode .count) s)

/-- BUILD (R120). -/
def execBuild (s : State) : Host.Outcome State Fault Refusal := .next (runWord (encode .build) s)

/-- GENCODES (R140). -/
def execGencodes (s : State) : Host.Outcome State Fault Refusal := .next (runWord (encode .gencodes) s)

/-- WRHDR (R150). -/
def execWrhdr (s : State) : Host.Outcome State Fault Refusal := .next (runWord (encode .wrhdr) s)

/-- REWIND (R202). -/
def execRewind (s : State) : Host.Outcome State Fault Refusal := .next (runWord (encode .rewind) s)

/-- ENCODE (R180). -/
def execEncode (s : State) : Host.Outcome State Fault Refusal := .next (runWord (encode .encode) s)

/-- RDMAGIC (R152). -/
def execRdmagic (s : State) : Host.Outcome State Fault Refusal := .next (runWord (encode .rdmagic) s)

/-- RDTREE (R153). -/
def execRdtree (s : State) : Host.Outcome State Fault Refusal := .next (runWord (encode .rdtree) s)

/-- DECODE (R190). -/
def execDecode (s : State) : Host.Outcome State Fault Refusal := .next (runWord (encode .decode) s)

/-- COMPRESS (R203). -/
def execCompress (s : State) : Host.Outcome State Fault Refusal := .next (runWord (encode .compress) s)

/-- DECOMPRESS (R204). -/
def execDecompress (s : State) : Host.Outcome State Fault Refusal := .next (runWord (encode .decompress) s)

end Sys2Proof.Machine
end

