-- ==== Sys2Proof/Machine/HostPort.lean ====
section
/-! DEFINITION. The host register port (10_state.md R22 to R28 and R39 to R43, 20_memory.md R61 to R65 and R76) and what
else lands from outside: `RST` (R250) and the ends of the channels (R71, R72, R265). -/

namespace Sys2Proof.Machine

/-- The value of a readback register: exact when idle, a draw of the environment while BUSY = 1 (R76 item 4, R268). -/
def readback (v : Word) (s : State) : Word × State :=
  if s.busy then (Config.busyRead s.draws, { s with draws := s.draws + 1 }) else (v, s)

/-- A read of the register at `offset` (R22): its value, and the state with the draw counted. A read has no other
effect (R43, R63). -/
def readRegister (offset : Nat) (s : State) : Word × State :=
  match offset with
  | 0x00 => (0#32, s)
  | 0x04 => (statusWord s, s)
  | 0x08 => (errinfoWord s, s)
  | 0x0C => (ctrlWord, s)
  | 0x10 => (Config.magic, s)
  | 0x14 => readback (treeInfoWord s) s
  | 0x18 => (selWord s, s)
  | 0x1C => readback (countRdWord s) s
  | 0x20 => readback (codeLenWord s) s
  | 0x24 => readback (codeWordWord s) s
  | _ => (0#32, s)

/-- A host read: the host port returns the value (R63). -/
def hostRead (offset : Nat) (s : State) : State :=
  { (readRegister offset s).2 with rdata := (readRegister offset s).1 }

/-- A write of CTRL: SOFT_RESET = 1 resets the block at once, even while BUSY = 1 (R26, R98). -/
def writeCtrl (v : Word) (s : State) : State := if v.getLsbD 0 then resetBlock s else s

/-- A write of SEL: reserved bits are ignored (R39). -/
def writeSel (v : Word) (s : State) : State :=
  { s with selSym := v.extractLsb' 0 9, selWidx := v.extractLsb' 16 3 }

/-- A host write of `v` to the register at `offset` (R22): CMD, CTRL and SEL act; read-only registers and unmapped
slots ignore it (R22, R43). -/
def hostWrite (offset : Nat) (v : Word) (s : State) : State :=
  match offset with
  | 0x00 => submit v s
  | 0x0C => writeCtrl v s
  | 0x18 => writeSel v s
  | _ => s

/-- A host access (R62): one aligned 32-bit word in the window; any other form in the window is refused, and outside the
window there is no register (log entry 14). -/
def hostAccess (a : Access) (s : State) : Host.Outcome State Fault Refusal :=
  if ¬ a.inWindow then .fault .outsideWindow
  else if ¬ a.wellFormed then .refused .hostAccessForm
  else match a.data with
    | some v => .next (hostWrite a.offset v s)
    | none => .next (hostRead a.offset s)

/-- One poll of `WAIT` (R100): a read of STATUS, after which the host goes on if BUSY reads 0; else the core moves and
the host polls again (log entry 16). -/
def waitPoll (rest : List Move) (s : State) : State :=
  if s.busy then coreStep (hostRead 0x04 s) else { hostRead 0x04 s with script := rest }

/-- `CHECK` (R100): a read; the test fails unless the result equals `v`. -/
def checkRead (offset : Nat) (v : Word) (s : State) : State :=
  { hostRead offset s with checkFailed := s.checkFailed || (hostRead offset s).rdata != v }

/-- The bits with which the output channel of length `n` is padded to a multiple of 8 (R72; log entry 4). -/
def padding (n : Nat) : Bits := (List.range ((8 - n % 8) % 8)).map fun j => Config.padBit (n + j)

/-- What lands next, apart from the call of a command: `rest` is the script after it. -/
def runMove (m : Move) (rest : List Move) (s : State) : Host.Outcome State Fault Refusal :=
  match m with
  | .access a => hostAccess a { s with script := rest }
  | .call w => .next (runWord w { s with script := rest })
  | .wait => .next (waitPoll rest s)
  | .check offset v =>
    if offset < 0x100 ∧ offset % 4 = 0 then .next (checkRead offset v { s with script := rest })
    else hostAccess { offset := offset, bytes := 4, data := none } { s with script := rest }
  | .core => .next (coreStep { s with script := rest })
  | .rst => .next (resetBlock { s with script := rest })
  | .present src => .next { s with script := rest, source := src, inPos := 0 }
  | .closeOutput => .next { s with script := rest, out := s.out ++ padding s.out.length }
  | .freshOutput => .next { s with script := rest, out := [] }

end Sys2Proof.Machine
end

