-- ==== Sys2Proof/Machine/HostScript.lean ====
section
/-! DEFINITION. Host scripts, the assembly language of the block (30_encoding.md R99 and R100): the statements, their
expansions into what the host does, and their encodings as lists of host writes. -/

namespace Sys2Proof.Machine

/-- The register names (R22). -/
inductive Reg where
  | cmd
  | status
  | errinfo
  | ctrl
  | magic
  | treeinfo
  | sel
  | countRd
  | codeLen
  | codeWord
  deriving DecidableEq, Repr

/-- A statement of a host script (R99), pseudo-instructions included (R100). -/
inductive Stmt where
  /-- `WR <reg>, <imm>`. -/
  | wr (r : Reg) (imm : Word)
  /-- `RD <reg>`. -/
  | rd (r : Reg)
  /-- `CMDW <imm>`. -/
  | cmdw (imm : Word)
  /-- `<MNEMONIC>`. -/
  | cmd (i : Instr)
  /-- `WAIT`. -/
  | wait
  /-- `RESET`. -/
  | reset
  /-- `SELECT <sym>`. -/
  | select (sym : Word)
  /-- `SELECT <sym>, <widx>`. -/
  | selectWord (sym widx : Word)
  /-- `CHECK <reg>, <imm>`. -/
  | check (r : Reg) (imm : Word)
  /-- `<MNEMONIC>!`. -/
  | cmdWait (i : Instr)
  deriving DecidableEq, Repr

/-- The offset of a register (R22). -/
def regOffset : Reg → Nat
  | .cmd => 0x00
  | .status => 0x04
  | .errinfo => 0x08
  | .ctrl => 0x0C
  | .magic => 0x10
  | .treeinfo => 0x14
  | .sel => 0x18
  | .countRd => 0x1C
  | .codeLen => 0x20
  | .codeWord => 0x24

/-- A host write of one word. -/
def wordWrite (offset : Nat) (v : Word) : Move := .access { offset := offset, bytes := 4, data := some v }

/-- A host read of one word. -/
def wordRead (offset : Nat) : Move := .access { offset := offset, bytes := 4, data := none }

/-- What the host does for a statement (R99, R100). `SELECT <sym>, <widx>` with a `widx` of 2^16 or more, whose immediate
does not fit in 32 bits, writes its low 32 bits: the spec gives `widx` no range (DESIGN CHOICE, log entry 21). -/
def expandStmt : Stmt → List Move
  | .wr r imm => [wordWrite (regOffset r) imm]
  | .rd r => [wordRead (regOffset r)]
  | .cmdw imm => [wordWrite 0x00 imm]
  | .cmd i => [wordWrite 0x00 (encode i)]
  | .wait => [.wait]
  | .reset => [wordWrite (regOffset .ctrl) 0x00000001]
  | .select sym => [wordWrite (regOffset .sel) sym]
  | .selectWord sym widx => [wordWrite (regOffset .sel) (widx <<< 16 ||| sym)]
  | .check r imm => [.check (regOffset r) imm]
  | .cmdWait i => [wordWrite 0x00 (encode i), .wait]

/-- What the host does for a script, with no core step between the accesses of two successive statements; the core moves
only inside a `WAIT`. How many core steps fall there the spec leaves open (R76, R273; DESIGN CHOICE, log entry 22): any
other number of them is a list of moves with `Move.core` in between. -/
def expandScript (p : List Stmt) : List Move := p.flatMap expandStmt

/-- The encoding of a statement: the host writes (offset, data) that it makes (R99; reads make none). They are the writes
of `expandStmt`, a `SELECT` whose immediate does not fit in 32 bits included (log entry 21). -/
def stmtWrites : Stmt → List (Nat × Word)
  | .wr r imm => [(regOffset r, imm)]
  | .rd _ => []
  | .cmdw imm => [(0x00, imm)]
  | .cmd i => [(0x00, encode i)]
  | .wait => []
  | .reset => [(regOffset .ctrl, 0x00000001)]
  | .select sym => [(regOffset .sel, sym)]
  | .selectWord sym widx => [(regOffset .sel, widx <<< 16 ||| sym)]
  | .check _ _ => []
  | .cmdWait i => [(0x00, encode i)]

end Sys2Proof.Machine
end

