-- ==== Sys2Proof/Machine/Step.lean ====
section
/-! DEFINITION. The step: what the script names lands, and with an empty script the core moves (20_memory.md R76). -/

namespace Sys2Proof.Machine

/-- A called word that is a command runs as `exec` says; one that is none raises ILLEGAL_CMD (R94, R95, R97). -/
def stepCall (w : Word) (s : State) : Host.Outcome State Fault Refusal :=
  match decode w with
  | .ok i => exec i s
  | .error _ => .next (runWord w s)

/-- One step of the whole. -/
def step (s : State) : Host.Outcome State Fault Refusal :=
  match s.script with
  | [] => .next (coreStep s)
  | .call w :: rest => stepCall w { s with script := rest }
  | m :: rest => runMove m rest s

/-- `s` with the host's next act a write of the word to CMD, after which the core runs the command (log entry 8). Every
command word has 32 bits (R91). -/
def State.withFetchWord (s : State) (_nbits w : Nat) : State :=
  { s with script := .call (BitVec.ofNat 32 w) :: s.script }

end Sys2Proof.Machine
end

