-- ==== Sys2Proof/Safety/Reference.lean ====
section
/-! DEFINITION. The codec of the spec as plain functions of trees and bit strings, apart from the machine: the preorder
description (30_encoding.md R103), the codes (42_code_table.md R141), the parse (43_header_codec.md R154), the payload
(30_encoding.md R104), the decode (45_stream_decoder.md R191) and the merges of a Huffman tree (41_tree_builder.md R122 to
R124). Claims compare the machine with them. -/

namespace Sys2Proof.Machine

/-- A tree of the spec: a leaf is its symbol, an internal node its two children (R14). -/
inductive Tree where
  | leaf (sym : Sym)
  | node (l r : Tree)
  deriving DecidableEq, Repr

/-- The number of leaves. -/
def Tree.leaves : Tree → Nat
  | .leaf _ => 1
  | .node l r => l.leaves + r.leaves

/-- The number of internal nodes. -/
def Tree.internals : Tree → Nat
  | .leaf _ => 0
  | .node l r => l.internals + r.internals + 1

/-- The leaf symbols, left to right. -/
def Tree.symbols : Tree → List Sym
  | .leaf s => [s]
  | .node l r => l.symbols ++ r.symbols

/-- The tree description `T` of R103: preorder, `0` for an internal node, `1` and 9 bits for a leaf. -/
def Tree.ser : Tree → Bits
  | .leaf s => true :: bin 9 s
  | .node l r => false :: (l.ser ++ r.ser)

/-- The leaves in preorder, each with its path from the root: left edge 0, right edge 1 (R141). -/
def Tree.paths : Tree → List (Sym × Bits)
  | .leaf s => [(s, [])]
  | .node l r => l.paths.map (fun q => (q.1, false :: q.2)) ++ r.paths.map (fun q => (q.1, true :: q.2))

/-- The path of the last leaf in preorder that has the symbol (R142). -/
def Tree.codeFor (t : Tree) (s : Sym) : Option Bits :=
  ((t.paths.filter fun q => q.1 == s).getLast?).map (·.2)

/-- The code table that a tree gives, by symbol number (R140, R142). -/
def treeLook (t : Tree) (x : Nat) : Option Bits := t.codeFor (BitVec.ofNat 9 x)

/-- The weight of a tree: the sum of the weights of its leaves (R15, R128). -/
def Tree.weight (w : Sym → Nat) : Tree → Nat
  | .leaf s => w s
  | .node l r => l.weight w + r.weight w

/-- Every internal node's left child weighs no more than its right child (R123). -/
def Tree.Ordered (w : Sym → Nat) : Tree → Prop
  | .leaf _ => True
  | .node l r => l.weight w ≤ r.weight w ∧ l.Ordered w ∧ r.Ordered w

/-- `T` comes from the forest by merging until one tree is left, each merge taking a tree `a` that no tree of the forest
weighs less than, then a tree `b` that no tree left weighs less than, with `a` the left child (R122 to R124). The
order among equal weights is free. -/
inductive Merges (w : Sym → Nat) : List Tree → Tree → Prop where
  | done (t : Tree) : Merges w [t] t
  | merge (forest rest : List Tree) (a b t : Tree) (hperm : forest.Perm (a :: b :: rest))
      (ha : ∀ x ∈ forest, a.weight w ≤ x.weight w) (hb : ∀ x ∈ b :: rest, b.weight w ≤ x.weight w)
      (hrest : Merges w (rest ++ [.node a b]) t) : Merges w forest t

/-- The weight of a symbol's leaf: a byte weighs its count, and EOS weighs 1 (R121). -/
def leafWeight (cnt : Vector Word 256) (s : Sym) : Nat := if h : s.toNat < 256 then cnt[s.toNat].toNat else 1

/-- The leaves that BUILD starts from: one for each byte with a positive count, in ascending order, then always that of
EOS (R121). -/
def leafForest (cnt : Vector Word 256) : List Tree :=
  (((List.range 256).map (BitVec.ofNat 9)).filter fun s => decide (0 < leafWeight cnt s)).map .leaf ++ [.leaf eos]

/-- The slots below `n` hold tree `t` with its root at slot `i` (R32, R34). -/
def HoldsAt (nodes : Vector NodeEntry nodeCap) (n : Nat) : NodeIx → Tree → Prop
  | i, .leaf s => i.val < n ∧ nodes[i].leaf = true ∧ nodes[i].sym = s
  | i, .node l r =>
    i.val < n ∧ nodes[i].leaf = false ∧ HoldsAt nodes n nodes[i].left l ∧ HoldsAt nodes n nodes[i].right r

/-- The slots of the tree at slot `i`, in preorder. -/
def slotsOf (nodes : Vector NodeEntry nodeCap) : NodeIx → Tree → List NodeIx
  | i, .leaf _ => [i]
  | i, .node l r => i :: (slotsOf nodes nodes[i].left l ++ slotsOf nodes nodes[i].right r)

/-- The weight field of every node of the tree at slot `i` is the weight of its subtree (R31, R128). -/
def WeightsAt (nodes : Vector NodeEntry nodeCap) (w : Sym → Nat) : NodeIx → Tree → Prop
  | i, .leaf s => nodes[i].weight.toNat = w s
  | i, .node l r =>
    nodes[i].weight.toNat = l.weight w + r.weight w ∧
      WeightsAt nodes w nodes[i].left l ∧ WeightsAt nodes w nodes[i].right r

/-- What a `parse()` gives: a tree and the bits it consumed, with the internal nodes allocated so far; or an error and
the bits consumed before it. -/
inductive Parsed where
  | tree (t : Tree) (used nInt : Nat)
  | error (e : ErrCode) (used : Nat)
  deriving DecidableEq, Repr

/-- `parse()` of R154 with the checks of R155, on the bits `bs` left and `n` internal nodes allocated. `fuel` bounds the
depth of the recursion, which the capacity check keeps at 257 (R36). -/
def refParse : Nat → Bits → Nat → Parsed
  | 0, _, _ => .error .hdrCapacity 0
  | fuel + 1, bs, n =>
    match bs with
    | [] => .error .truncated 0
    | false :: bs₁ =>
      if n = 256 then .error .hdrCapacity 1
      else match refParse fuel bs₁ (n + 1) with
        | .error e u => .error e (1 + u)
        | .tree l u n₁ =>
          match refParse fuel (bs₁.drop u) n₁ with
          | .error e v => .error e (1 + u + v)
          | .tree r v n₂ => .tree (.node l r) (1 + u + v) n₂
    | true :: bs₁ =>
      if bs₁.length < 9 then .error .truncated 1
      else if 256 < natOfBits (bs₁.take 9) then .error .hdrSymbol 10
      else .tree (.leaf (BitVec.ofNat 9 (natOfBits (bs₁.take 9)))) 10 n

/-- RDTREE of R153: the parse, then the root check of R157. -/
def refTree (bs : Bits) : Parsed :=
  match refParse 257 bs 0 with
  | .tree (.leaf s) u n => if s = eos then .tree (.leaf s) u n else .error .hdrShape u
  | p => p

/-- The whole bytes of a bit string, most significant bit first (R71). A trailing part-byte is no byte (R67). -/
def bytesOf : Bits → List Byte
  | b₀ :: b₁ :: b₂ :: b₃ :: b₄ :: b₅ :: b₆ :: b₇ :: rest =>
    BitVec.ofNat 8 (natOfBits [b₀, b₁, b₂, b₃, b₄, b₅, b₆, b₇]) :: bytesOf rest
  | _ => []

/-- What ENCODE emits for `bytes` under the code table `look`: the bits, the bytes read, and whether it ends done (R180
to R182). -/
def refEncode (look : Nat → Option Bits) : List Byte → Bits × Nat × Bool
  | [] =>
    match look 256 with
    | some c => (c, 0, true)
    | none => ([], 0, false)
  | b :: bytes =>
    match look b.toNat with
    | none => ([], 1, false)
    | some c => (c ++ (refEncode look bytes).1, (refEncode look bytes).2.1 + 1, (refEncode look bytes).2.2)

/-- The decoder of R191 on the bits, with the cursor at `cur` in the tree `root`: the bytes written, the bits read, and
whether the EOS leaf was reached. -/
def refDecode (root : Tree) : Tree → Bits → List Byte × Nat × Bool
  | _, [] => ([], 0, false)
  | .leaf _, _ :: _ => ([], 0, true)
  | .node l r, b :: bs =>
    match if b then r else l with
    | .leaf s =>
      if s = eos then ([], 1, true)
      else (s.extractLsb' 0 8 :: (refDecode root root bs).1, (refDecode root root bs).2.1 + 1, (refDecode root root bs).2.2)
    | .node l' r' =>
      ((refDecode root (.node l' r') bs).1, (refDecode root (.node l' r') bs).2.1 + 1, (refDecode root (.node l' r') bs).2.2)

/-- DECODE of R190: a leaf root ends at once (R192). -/
def refDecodeAll (t : Tree) (bs : Bits) : List Byte × Nat × Bool :=
  match t with
  | .leaf _ => ([], 0, true)
  | .node l r => refDecode (.node l r) (.node l r) bs

end Sys2Proof.Machine
end

