-- ==== Sys2Proof/Safety.lean ====
section
/-! DEFINITION. The terms in which claims speak of states: a ready block, how a command leaves its registers when it ends
(60_exceptions.md R223, R225), what the channels and stores hold, and the invariants of the machine. -/

namespace Sys2Proof.Machine

/-- The block is idle and not in the error state: it accepts any command word (R222). -/
def Ready (s : State) : Prop := s.busy = false ∧ s.err = false

/-- The registers as command `i` leaves them when it ends done (R222, R223). `last` is the sub-command that ran last, and
`i` itself for a command that has none (R203, R204). -/
def State.finished (i last : Instr) (s : State) : State :=
  { s with busy := false, done := true, lastOp := opcode i, curop := opcode last, pos := .idle, todo := [], stack := [] }

/-- The registers as command `i` leaves them when (sub-)command `sub` raises `e` (R222, R225). -/
def State.failed (i sub : Instr) (e : ErrCode) (s : State) : State :=
  { s with busy := false, done := false, err := true, errCode := errCodeOf e, errOp := opcode sub,
           lastOp := opcode i, curop := opcode sub, pos := .idle, todo := [], stack := [] }

/-- The bits that a finite input has left. -/
def State.rest (s : State) : Bits :=
  match s.source with
  | .bits bs => bs.drop s.inPos
  | _ => []

/-- The input is a finite bit string. -/
def FiniteInput (s : State) : Prop := ∃ bs, s.source = .bits bs

/-- The code table as a mapping: the bit string of a valid entry (R33). -/
def codeTable (s : State) (i : Nat) : Option Bits :=
  if (readCode i s).valid then some (codeBits (readCode i s)) else none

/-- The node store and tree registers describe the complete tree `t` (R30, R34). -/
def HoldsTree (s : State) (t : Tree) : Prop :=
  HoldsAt s.node s.nNodes.toNat s.root t ∧ t.leaves = s.nLeaf.toNat ∧ t.internals = s.nInt.toNat ∧
    t.internals ≤ 256 ∧ ∀ x ∈ t.symbols, x.toNat ≤ 256

/-- The state after `n` steps, none of which stops. -/
def stepN : Nat → State → Option State
  | 0, s => some s
  | n + 1, s =>
    match step s with
    | .next t => stepN n t
    | .fault _ => none
    | .refused _ => none

end Sys2Proof.Machine
end

