-- ==== Sys2Proof/Safety/Invariant.lean ====
section
/-! DEFINITION. The invariants that every step keeps: of the STATUS and ERRINFO registers (10_state.md R24, R25), of the
sequencer (60_exceptions.md R222, 46_control.md R203 to R205), and of the node store with the hidden state of the
algorithms (10_state.md R30 to R37, R60). -/

namespace Sys2Proof.Machine

/-! ### Status -/

/-- STATUS and ERRINFO agree: DONE excludes BUSY and ERR; ERRINFO = 0 whenever ERR = 0, and with ERR = 1 it holds one of
the codes 1 to 8; CODES_VALID needs TREE_VALID (R24, R25, R34, R220). -/
def StatusInv (s : State) : Prop :=
  (s.done = true → s.busy = false ∧ s.err = false) ∧
  (s.err = false → s.errCode = 0#4 ∧ s.errOp = 0#8) ∧
  (s.err = true → 1 ≤ s.errCode.toNat ∧ s.errCode.toNat ≤ 8) ∧
  (s.codesValid = true → s.treeValid = true)

/-! ### Sequencer -/

/-- The command whose body a position belongs to. -/
def bodyOf : Pos → Option Instr
  | .idle => none
  | .ret => none
  | .clearCnt _ | .clearCode _ | .clearRegs => some .clear
  | .countZero _ | .countRead | .countBump _ => some .count
  | .buildStart | .buildLeaf _ | .buildMerge => some .build
  | .genStart | .genZero _ | .genWalk => some .gencodes
  | .hdrMagic | .hdrWalk | .hdrSym _ => some .wrhdr
  | .rewind => some .rewind
  | .encRead | .encEmit _ _ => some .encode
  | .rdMagic => some .rdmagic
  | .treeStart | .parseBit | .parseInternal | .parseSym | .parseLeaf _ | .parseRet _ => some .rdtree
  | .decStart | .decRead | .decEmit => some .decode

/-- What may be left to start while (sub-)command `i` runs: nothing, or what follows it in its pipeline (R203, R204). -/
def mayFollow : Instr → List (List Instr)
  | .count => [[], [.build, .gencodes, .wrhdr, .rewind, .encode]]
  | .build => [[], [.gencodes, .wrhdr, .rewind, .encode]]
  | .gencodes => [[], [.wrhdr, .rewind, .encode]]
  | .wrhdr => [[], [.rewind, .encode]]
  | .rewind => [[], [.encode]]
  | .rdmagic => [[], [.rdtree, .decode]]
  | .rdtree => [[], [.decode]]
  | .compress => [compressSubs]
  | .decompress => [decompressSubs]
  | _ => [[]]

/-- What stays true of the validity bits while (sub-)command `i` runs, so that a prerequisite of a sub-command holds by
construction (R203, R204). -/
def ValidWhile (i : Instr) (s : State) : Prop :=
  match i with
  | .build => s.pos = .ret → s.treeValid = true
  | .gencodes => s.treeValid = true ∧ (s.pos = .ret → s.codesValid = true)
  | .wrhdr => s.treeValid = true ∧ (s.todo ≠ [] → s.codesValid = true)
  | .rewind => s.todo ≠ [] → s.codesValid = true
  | .encode => s.codesValid = true
  | .rdtree => s.pos = .ret → s.treeValid = true
  | .decode => s.treeValid = true
  | _ => True

/-- The sequencer stands at a position of the command that `curop` names, and BUSY tells whether it runs; once CLEAR has
cleared the registers `curop` is 0 (R253); only CLEAR runs in the error state (R21, R222, R231). -/
def SequencerInv (s : State) : Prop :=
  (s.busy = false ↔ s.pos = .idle) ∧ (s.busy = false → s.todo = []) ∧
  (s.busy = true → ∃ i, i ≠ .nop ∧ s.curop = (if i = .clear ∧ s.pos = .ret then 0x00#8 else opcode i) ∧ s.todo ∈ mayFollow i ∧
    (s.pos = .ret ∨ bodyOf s.pos = some i) ∧ ValidWhile i s) ∧
  (s.busy = true → s.err = true → bodyOf s.pos = some .clear)

/-- The invariant of the control state. -/
def ControlInv (s : State) : Prop := StatusInv s ∧ SequencerInv s

/-! ### Node store and hidden state -/

/-- Every symbol of the tree is in 0 to 256 (R32, R60). -/
def SymbolsInRange (t : Tree) : Prop := ∀ x ∈ t.symbols, x.toNat ≤ 256

/-- The queue's entries are roots of trees that together have `nLeaf` leaves and `nInt` internal nodes, in the slots
allocated (R35). -/
def QueueHolds (s : State) (f : List Tree) : Prop :=
  List.Forall₂ (HoldsAt s.node s.nNodes.toNat) s.pq f ∧ (∀ t ∈ f, SymbolsInRange t) ∧
  (f.map Tree.leaves).sum = s.nLeaf.toNat ∧ (f.map Tree.internals).sum = s.nInt.toNat

/-- The frames of a walk are visits of slots that hold trees; together these trees and the walk stack's entries are no
more than the stack's capacity (R36). -/
def WalkHolds (s : State) (ts : List Tree) : Prop :=
  List.Forall₂ (fun fr t => ∃ i p, fr = Frame.visit i p ∧ HoldsAt s.node s.nNodes.toNat i t) s.stack ts ∧
  (∀ t ∈ ts, SymbolsInRange t) ∧ (ts.map fun t => t.internals + 1).sum ≤ 257

/-- The slots from `lo` on and below `hi` hold tree `t` in preorder, its root at slot `i` (R154). -/
def PreorderAt (nodes : Vector NodeEntry nodeCap) : Nat → Nat → NodeIx → Tree → Prop
  | lo, hi, i, .leaf s => i.val = lo ∧ hi = lo + 1 ∧ nodes[i].leaf = true ∧ nodes[i].sym = s
  | lo, hi, i, .node l r => i.val = lo ∧ nodes[i].leaf = false ∧
      ∃ m, PreorderAt nodes (lo + 1) m nodes[i].left l ∧ PreorderAt nodes m hi nodes[i].right r

/-- The slots below `m` are those of the open calls of `parse()`, innermost first, and of the left subtrees that the calls
waiting for their right subtree have parsed (R154). -/
def OpenCalls (nodes : Vector NodeEntry nodeCap) : List Frame → Nat → Prop
  | [], m => m = 0
  | .left j :: rest, m => m = j.val + 1 ∧ nodes[j].leaf = false ∧ OpenCalls nodes rest j.val
  | .right j :: rest, m => nodes[j].leaf = false ∧
      (∃ l, PreorderAt nodes (j.val + 1) m nodes[j].left l ∧ SymbolsInRange l) ∧ OpenCalls nodes rest j.val
  | .visit _ _ :: _, _ => False

/-- The open calls that wait for their left subtree. -/
def waitLeft (st : List Frame) : Nat := st.countP fun fr => match fr with | .left _ => true | _ => false

/-- A `parse()` is about to begin, or has read its first bit: the open calls take all slots allocated. -/
def ParseBegins (s : State) : Prop :=
  s.treeValid = false ∧ OpenCalls s.node s.stack s.nNodes.toNat ∧ s.stack.length ≤ s.nInt.toNat ∧
  s.nNodes.toNat = s.nLeaf.toNat + s.nInt.toNat ∧ s.nLeaf.toNat + waitLeft s.stack = s.nInt.toNat

/-- A `parse()` has returned node `i`: the open calls take the slots below some `m`, and the rest hold its tree. -/
def ParseReturns (i : NodeIx) (s : State) : Prop :=
  s.treeValid = false ∧ s.stack.length ≤ s.nInt.toNat ∧
  s.nNodes.toNat = s.nLeaf.toNat + s.nInt.toNat ∧ s.nLeaf.toNat + waitLeft s.stack = s.nInt.toNat + 1 ∧
  ∃ m t, OpenCalls s.node s.stack m ∧ PreorderAt s.node m s.nNodes.toNat i t ∧ SymbolsInRange t

/-- What the node store and the hidden state hold at the sequencer's position. -/
def PosInv (s : State) : Prop :=
  match s.pos with
  | .buildLeaf i => s.treeValid = false ∧ i ≤ 256 ∧ s.pq.length ≤ i ∧ s.nNodes.toNat = s.nLeaf.toNat + s.nInt.toNat ∧
      s.nInt = 0#9 ∧ ∃ f, QueueHolds s f
  | .buildMerge => s.treeValid = false ∧ s.nNodes.toNat = s.nLeaf.toNat + s.nInt.toNat ∧
      ∃ f, QueueHolds s f ∧ eos ∈ f.flatMap Tree.symbols
  | .genWalk => ∃ ts, WalkHolds s ts
  | .hdrWalk => ∃ ts, WalkHolds s ts
  | .hdrSym sym => sym.toNat ≤ 256 ∧ ∃ ts, WalkHolds s ts
  | .parseBit => ParseBegins s
  | .parseInternal => ParseBegins s ∧ s.nInt.toNat < 256
  | .parseSym => ParseBegins s
  | .parseLeaf sym => ParseBegins s ∧ sym.toNat ≤ 256
  | .parseRet i => ParseReturns i s
  | .decRead => (∃ l r, HoldsTree s (.node l r)) ∧ ∃ l r, HoldsAt s.node s.nNodes.toNat s.cur (.node l r) ∧
      SymbolsInRange (.node l r)
  | .decEmit => (∃ l r, HoldsTree s (.node l r)) ∧ (readNode s.cur s).leaf = true ∧
      (readNode s.cur s).sym.toNat ≤ 255
  | _ => True

/-- The positions at which the walk stack is in use (R36). -/
def usesStack : Pos → Bool
  | .genWalk | .hdrWalk | .hdrSym _ | .parseBit | .parseInternal | .parseSym | .parseLeaf _ | .parseRet _ => true
  | _ => false

/-- The positions at which the priority queue is in use (R35). -/
def usesQueue : Pos → Bool
  | .buildLeaf _ | .buildMerge => true
  | _ => false

/-- TREE_VALID = 1 means that the node store and its registers describe one complete tree (R34), whose root is internal or
the leaf of EOS (R157); the counters, the queue and the stack stay in their capacities (R30, R35, R36); and the hidden
state is what the running body needs. -/
def TreeInv (s : State) : Prop :=
  (s.treeValid = true → ∃ t, HoldsTree s t ∧ ∀ x, t = .leaf x → x = eos) ∧
  (s.nNodes.toNat ≤ 513 ∧ s.nLeaf.toNat ≤ 257 ∧ s.nInt.toNat ≤ 256) ∧
  (s.pq.length ≤ 257 ∧ s.stack.length ≤ 257) ∧
  (usesQueue s.pos = false → s.pq = []) ∧ (usesStack s.pos = false → s.stack = []) ∧ PosInv s

end Sys2Proof.Machine
end

