-- ==== Sys2Proof/Certificates/Slice0/Obligations.lean ====
section
/-! DEFINITION. The statements for the provers. `State.finished` and `State.failed` (Sys2Proof/Safety.lean) are the registers as a
command leaves them when it ends done or aborts; a statement that gives the next state by them says its whole frame. -/

section

open Sys2Proof Sys2Proof.Machine

/-! ### The command word -/

/-- Every command is the word that the decoder reads as it, with its opcode in bits 7:0 and 0 in bits 31:8 (R90, R93). -/
def Obligations.DecodeInvertsEncode : Prop :=
  ∀ i : Instr, decode (encode i) = .ok i ∧ opField (encode i) = opcode i ∧ rsvdField (encode i) = 0#24 ∧
    legalWord (encode i) = true

/-- R96: the command words are the thirteen words 0x00000000 to 0x0000000C, each of one command, and no other word. -/
def Obligations.ExactlyThirteenWordsAreLegal : Prop :=
  (∀ (w : Word) (i : Instr), decode w = .ok i ↔ w = encode i) ∧
  (∀ w : Word, (∃ i, decode w = .ok i) ↔ w.toNat ≤ 0x0C) ∧
  ∀ w : Word, legalWord w = true ↔ ∃ i, decode w = .ok i

/-- R97: the decoder looks at bits 31:8 first, then at the opcode, and then gives the row of R93. -/
def Obligations.DecodeChecksReservedBitsThenOpcode : Prop :=
  (∀ w : Word,
    if w.extractLsb' 8 24 ≠ 0#24 then decode w = .error .reservedBits
    else if 0x0C < (w.extractLsb' 0 8).toNat then decode w = .error .reservedOpcode
    else ∃ i, decode w = .ok i ∧ opcode i = w.extractLsb' 0 8) ∧
  [Instr.nop, .clear, .count, .build, .gencodes, .wrhdr, .rewind, .encode, .rdmagic, .rdtree, .decode, .compress,
    .decompress].map (fun i => (opcode i).toNat) = List.range 13

/-- Words written out from R90 and R93 decode to the commands that they stand for. -/
def Obligations.WrittenOutWordsDecode : Prop :=
  decodeTableWord 32 0b00000000000000000000000000000010 = some .count ∧
  decodeTableWord 32 0b00000000000000000000000000000101 = some .wrhdr ∧
  decodeTableWord 32 0b00000000000000000000000000001010 = some .decode ∧
  decodeTableWord 32 0b00000000000000000000000000001100 = some .decompress ∧
  decodeTableWord 32 0b00000000000000000000000000001101 = none ∧
  decodeTableWord 32 0b00000000000000000000000100000010 = none

/-! ### The step -/

/-- A step on a called word that is a command is `exec` of that command, with the call taken off the script (log entry 8). -/
def Obligations.StepRunsTheDecodedCommand : Prop :=
  (∀ (s : State) (w : Word) (i : Instr) (rest : List Move), s.script = .call w :: rest → decode w = .ok i →
    step s = exec i { s with script := rest }) ∧
  ∀ (s : State) (w : Nat) (i : Instr), decodeTableWord 32 w = some i → step (s.withFetchWord 32 w) = exec i s

/-- A call is no more than a host write of the word to CMD and then core steps (R76, R222, R251): on an idle block it ends in a
state that single steps reach, the write first. -/
def Obligations.CallIsAWriteAndCoreSteps : Prop :=
  ∀ (i : Instr) (s : State) (rest : List Move), s.busy = false →
    ∃ n t, exec i { s with script := rest } = .next t ∧
      stepN (n + 1) { s with script := wordWrite 0x00 (encode i) :: (List.replicate n .core ++ rest) } = some t

/-- R239: an idle block with which nobody does anything does nothing. -/
def Obligations.IdleBlockDoesNothing : Prop :=
  ∀ s : State, s.busy = false → s.script = [] → step s = .next s

/-! ### Acceptance -/

/-- R222, R266: while BUSY = 1 every word written to CMD is dropped, and nothing but CMD_DROPPED changes. -/
def Obligations.WordIsDroppedWhileBusy : Prop :=
  ∀ s : State, s.busy = true →
    (∀ w : Word, hostWrite 0x00 w s = { s with cmdDropped := true }) ∧
    ∀ i : Instr, exec i s = .next { s with cmdDropped := true }

/-- R229: in the error state only the words 0x00000000, with no effect, and 0x00000001, which leaves it, are accepted; every other
word is dropped and sets CMD_DROPPED, so that ERRINFO is kept. -/
def Obligations.ErrorStateAcceptsOnlyNopAndClear : Prop :=
  ∀ s : State, s.busy = false → s.err = true →
    (∀ w : Word, w ≠ 0x00000000#32 → w ≠ 0x00000001#32 → hostWrite 0x00 w s = { s with cmdDropped := true }) ∧
    (∀ i : Instr, i ≠ .nop → i ≠ .clear → exec i s = .next { s with cmdDropped := true }) ∧
    hostWrite 0x00 0x00000000#32 s = s ∧
    (hostWrite 0x00 0x00000001#32 s).busy = true ∧ (hostWrite 0x00 0x00000001#32 s).cmdDropped = s.cmdDropped ∧
    ∃ t, exec .clear s = .next t ∧ t.err = false ∧ t.done = true

/-- R229, R231: from one step to the next ERRINFO keeps its record while ERR stays 1, and it reads 0 once ERR is 0. -/
def Obligations.FirstErrorIsKeptUntilErrIsCleared : Prop :=
  ∀ s t : State, ControlInv s → s.err = true → step s = .next t →
    (t.err = true → t.errCode = s.errCode ∧ t.errOp = s.errOp) ∧ (t.err = false → t.errCode = 0#4 ∧ t.errOp = 0#8)

/-- R222, R224: what a write to CMD does at once, its conditions in their order. -/
def Obligations.AcceptanceFollowsThePriority : Prop :=
  ∀ (s : State) (w : Word), hostWrite 0x00 w s =
    if s.busy = true then { s with cmdDropped := true }
    else if s.err = true ∧ w ≠ 0x00000000#32 ∧ w ≠ 0x00000001#32 then { s with cmdDropped := true }
    else if w = 0x00000000#32 then s
    else match decode w with
      | .error _ => { s with
          done := false, lastOp := w.extractLsb' 0 8, curop := w.extractLsb' 0 8, busy := false, err := true, errCode := 0x8#4,
          errOp := w.extractLsb' 0 8, pos := .idle, todo := [], stack := [] }
      | .ok i =>
        if prerequisite i s = true then { s with
          done := false, lastOp := w.extractLsb' 0 8, curop := w.extractLsb' 0 8, busy := true, pos := entryOf i,
          todo := subsOf i, stack := [] }
        else s.failed i i .sequence

/-- R94, R95: a word above 0x0C, be it for its opcode or for its reserved bits, raises ILLEGAL_CMD when it is accepted, changes
nothing but the status registers, and is dropped in the error state. -/
def Obligations.IllegalWordRaisesIllegalCmd : Prop :=
  ∀ (s : State) (w : Word), 0x0C < w.toNat →
    (Ready s → hostWrite 0x00 w s = { s with
      done := false, lastOp := w.extractLsb' 0 8, curop := w.extractLsb' 0 8, err := true, errCode := 0x8#4,
      errOp := w.extractLsb' 0 8, pos := .idle, todo := [], stack := [] }) ∧
    (∀ rest, Ready s → s.script = .call w :: rest → step s = .next { s with
      script := rest, done := false, lastOp := w.extractLsb' 0 8, curop := w.extractLsb' 0 8, err := true, errCode := 0x8#4,
      errOp := w.extractLsb' 0 8, pos := .idle, todo := [], stack := [] }) ∧
    (s.busy = false → s.err = true → hostWrite 0x00 w s = { s with cmdDropped := true })

/-- R205: GENCODES, WRHDR and DECODE without a tree and ENCODE without codes raise SEQUENCE before their bodies run; with the
prerequisite, and for every other command without one, the command starts. -/
def Obligations.UnmetPrerequisiteRaisesSequence : Prop :=
  ∀ s : State, Ready s →
    (∀ i ∈ [Instr.gencodes, .wrhdr, .decode],
      (s.treeValid = false → exec i s = .next (s.failed i i .sequence)) ∧
      (s.treeValid = true → (hostWrite 0x00 (encode i) s).busy = true)) ∧
    (s.codesValid = false → exec .encode s = .next (s.failed .encode .encode .sequence)) ∧
    (s.codesValid = true → (hostWrite 0x00 (encode .encode) s).busy = true) ∧
    ∀ i ∈ [Instr.clear, .count, .build, .rewind, .rdmagic, .rdtree, .compress, .decompress],
      (hostWrite 0x00 (encode i) s).busy = true

/-! ### NOP, CLEAR, REWIND -/

/-- R200: NOP, the word 0, changes no state, even in the error state; while BUSY = 1 it is dropped like any word. A word with
OP = 0 and other bits set is not NOP but illegal. -/
def Obligations.NopChangesNothing : Prop :=
  encode .nop = 0x00000000#32 ∧
  (∀ s : State, (s.busy = false → exec .nop s = .next s) ∧
    (s.busy = true → exec .nop s = .next { s with cmdDropped := true })) ∧
  ∀ r : Word, r.extractLsb' 8 24 ≠ 0#24 → r.extractLsb' 0 8 = 0x00#8 → ∃ e, decode r = .error e

/-- CLEAR, in the error state too, gives every piece of block state its cleared value but for SEL, which it keeps, and for the
contents of node slots, which stay as they are (the model's choice, log entry 6; I11 allows any value), and it touches no
channel (R201). `curop` ends as 0x00 (read from R201 and R253, log entry 13). STATUS then reads 0x00000102 and ERRINFO 0. A CLEAR
word with other bits set is illegal, and is dropped in the error state. -/
def Obligations.ClearClearsAllButSel : Prop :=
  encode .clear = 0x00000001#32 ∧
  ∀ s : State, s.busy = false →
    (∃ t, exec .clear s = .next t ∧
      t = { s with
        cnt := Vector.replicate 256 0#32, code := Vector.replicate 257 noCode, nNodes := 0#10, nLeaf := 0#9, nInt := 0#9,
        root := 0, pq := [], stack := [], cur := 0, curop := 0x00#8, pos := .idle, todo := [], busy := false, done := true,
        err := false, treeValid := false, codesValid := false, cmdDropped := false, lastOp := 0x01#8, errCode := 0#4,
        errOp := 0#8 } ∧
      statusWord t = 0x00000102#32 ∧ errinfoWord t = 0#32) ∧
    ∀ r : Word, r.extractLsb' 8 24 ≠ 0#24 → r.extractLsb' 0 8 = 0x01#8 →
      (∃ e, decode r = .error e) ∧ (s.err = true → hostWrite 0x00 r s = { s with cmdDropped := true })

/-- R202: REWIND sets the input position to 0 and does nothing else. -/
def Obligations.RewindGoesToTheStart : Prop :=
  encode .rewind = 0x00000006#32 ∧
  ∀ s : State, Ready s → exec .rewind s = .next (({ s with inPos := 0 } : State).finished .rewind .rewind)

/-- R253: CLEAR and a reset leave the same state, hidden state included (`curop`: log entry 13), but for SEL, for DONE and LAST_OP
and for the contents of node slots, which are any value after either (I11; log entry 6). -/
def Obligations.ClearAgreesWithResetApartFromSel : Prop :=
  ∀ s t : State, s.busy = false → exec .clear s = .next t →
    { t with selSym := 0#9, selWidx := 0#3, done := false, lastOp := 0x00#8, node := (resetBlock s).node } =
      resetBlock s

/-! ### COUNT -/

/-- R110, R111: on a finite input COUNT counts the whole bytes left, each count saturated at 2^32 - 1, moves past them, and does
nothing else: no rewind, no validity bit. -/
def Obligations.CountCountsTheBytesLeft : Prop :=
  ∀ s : State, Ready s → FiniteInput s →
    ∃ t, exec .count s = .next t ∧
      t = ({ s with cnt := t.cnt, inPos := s.inPos + 8 * (s.rest.length / 8) } : State).finished .count .count ∧
      ∀ b : Byte, (readCnt b.toNat t).toNat = min ((bytesOf s.rest).count b) (2 ^ 32 - 1)

/-- R17, R232 (log entries 5 and 15): on a channel that never ends COUNT runs for ever, and so does ENCODE when every byte has a code: after any number of
core steps BUSY is 1. -/
def Obligations.CountAndEncodeHangOnAnEndlessChannel : Prop :=
  ∀ (s : State) (n : Nat), Ready s → s.source = .endless →
    (runCore n (hostWrite 0x00 (encode .count) s)).busy = true ∧
    (s.codesValid = true → (∀ b : Byte, (readCode b.toNat s).valid = true) →
      (runCore n (hostWrite 0x00 (encode .encode) s)).busy = true)

/-! ### BUILD -/

/-- R120 to R124: whatever the draws, BUILD makes of the leaves of the counts, by minimum-weight-first merges with the first
extracted node on the left, one tree with exact weights, and changes nothing but the tree, the validity bits and the draws. -/
def Obligations.BuildMergesMinimumWeightsFirst : Prop :=
  ∀ s : State, Ready s →
    ∃ t u, exec .build s = .next u ∧
      u = ({ s with
        treeValid := true, codesValid := false, node := u.node, nNodes := u.nNodes, nLeaf := u.nLeaf, nInt := u.nInt,
        root := u.root, pq := [], draws := u.draws } : State).finished .build .build ∧
      HoldsTree u t ∧ WeightsAt u.node (leafWeight s.cnt) u.root t ∧ Merges (leafWeight s.cnt) (leafForest s.cnt) t

/-- R128, R124: under every draw the tree of BUILD shares no slot; its leaf symbols are the bytes with a positive count and EOS, each
once; every weight is the sum over the leaves below, the root's being the sum of all counts plus 1; the codes are prefix-free;
a leaf's depth is at most `nInt`, which is at most 256; and the counters are those of `nLeaf` - 1 merges. -/
def Obligations.BuiltTreeIsAProperHuffmanTree : Prop :=
  ∀ s : State, Ready s →
    ∃ t u, exec .build s = .next u ∧ u.treeValid = true ∧
      HoldsAt u.node u.nNodes.toNat u.root t ∧ (slotsOf u.node u.root t).Nodup ∧
      t.symbols.Nodup ∧ (∀ x, x ∈ t.symbols ↔ x = eos ∨ x.toNat < 256 ∧ 0 < (readCnt x.toNat s).toNat) ∧
      WeightsAt u.node (leafWeight s.cnt) u.root t ∧
      (weightOf u u.root).toNat = (s.cnt.toList.map BitVec.toNat).sum + 1 ∧
      (∀ p ∈ t.paths, ∀ q ∈ t.paths, p.2 <+: q.2 → p = q) ∧
      (∀ q ∈ t.paths, q.2.length ≤ u.nInt.toNat) ∧ u.nInt.toNat ≤ 256 ∧
      u.nInt.toNat + 1 = u.nLeaf.toNat ∧ u.nNodes.toNat + 1 = 2 * u.nLeaf.toNat ∧ t.leaves = u.nLeaf.toNat

/-- R126, R127: BUILD's root is a leaf exactly when all counts are 0, and then it is the leaf of EOS; with one distinct byte the tree
has two leaves, EOS on the left unless the byte's count is 1. -/
def Obligations.BuildOfFewSymbols : Prop :=
  ∀ s : State, Ready s →
    ∃ t u, exec .build s = .next u ∧ HoldsTree u t ∧
      ((∃ x, t = .leaf x) ↔ ∀ b : Byte, readCnt b.toNat s = 0#32) ∧
      ((∀ b : Byte, readCnt b.toNat s = 0#32) →
        t = .leaf eos ∧ u.nLeaf = 1#9 ∧ u.nInt = 0#9 ∧ u.nNodes = 1#10) ∧
      ∀ b : Byte, 0 < (readCnt b.toNat s).toNat → (∀ x : Byte, x ≠ b → readCnt x.toNat s = 0#32) →
        t = .node (.leaf eos) (.leaf (b.setWidth 9)) ∨
        readCnt b.toNat s = 1#32 ∧ t = .node (.leaf (b.setWidth 9)) (.leaf eos)

/-- R122: an extraction takes an entry of minimal weight and no other, and each entry of minimal weight is the answer of some draw,
whenever it was inserted. -/
def Obligations.EveryMinimalEntryCanBeDrawn : Prop :=
  ∀ (w : NodeIx → Weight) (pq : List NodeIx),
    (∀ k a rest, extractMin w k pq = some (a, rest) →
      a ∈ pq ∧ (∀ b ∈ pq, (w a).toNat ≤ (w b).toNat) ∧ rest = pq.erase a) ∧
    (pq ≠ [] → ∀ k, (extractMin w k pq).isSome = true) ∧
    ∀ a ∈ pq, (∀ b ∈ pq, (w a).toNat ≤ (w b).toNat) →
      ∃ m j, j < m ∧ ∀ k, Config.tieDraw k % m = j → extractMin w k pq = some (a, pq.erase a)

/-! ### GENCODES -/

/-- R140 to R143: GENCODES gives each symbol of the tree the path of its last leaf in preorder, gives every other symbol no code, and
changes nothing but the code table and CODES_VALID. -/
def Obligations.GencodesFillsTheTableWithPaths : Prop :=
  ∀ (s : State) (t : Machine.Tree), Ready s → s.treeValid = true → HoldsTree s t →
    ∃ u, exec .gencodes s = .next u ∧
      u = ({ s with code := u.code, codesValid := true } : State).finished .gencodes .gencodes ∧
      ∀ x : Sym, x.toNat ≤ 256 →
        codeTable u x.toNat = t.codeFor x ∧
        readCode x.toNat u = match t.codeFor x with
          | some p => codeOf p
          | none => noCode

/-- R144: after BUILD and GENCODES exactly the counted bytes and EOS have codes; no code is a prefix of another; each code has 1 to
256 bits unless all counts are 0; and the code lengths fill the code space, Σ 2^(-len) = 1. -/
def Obligations.CodesOfABuiltTreeAreComplete : Prop :=
  ∀ s : State, Ready s →
    ∃ u v, exec .build s = .next u ∧ exec .gencodes u = .next v ∧ v.codesValid = true ∧
      (∀ x ≤ 256, (readCode x v).valid = true ↔ x = 256 ∨ 0 < (readCnt x s).toNat) ∧
      (∀ x ≤ 256, ∀ y ≤ 256, ∀ p q, codeTable v x = some p → codeTable v y = some q → p <+: q → x = y) ∧
      (∀ x ≤ 256, (readCode x v).valid = true → (readCode x v).len.toNat ≤ 256 ∧
        ((∃ b : Byte, 0 < (readCnt b.toNat s).toNat) → 1 ≤ (readCode x v).len.toNat)) ∧
      ((List.range 257).map fun x => if (readCode x v).valid then 2 ^ (256 - (readCode x v).len.toNat) else 0).sum = 2 ^ 256

/-! ### WRHDR, ENCODE -/

/-- R150, R151, R103: WRHDR appends the magic and the preorder description of the tree, `nInt` + 10 `nLeaf` bits, and does nothing
else. -/
def Obligations.WrhdrAppendsMagicAndDescription : Prop :=
  ∀ (s : State) (t : Machine.Tree), Ready s → s.treeValid = true → HoldsTree s t →
    exec .wrhdr s = .next (({ s with out := s.out ++ bin 32 Config.magic ++ t.ser } : State).finished .wrhdr .wrhdr) ∧
    t.ser.length = s.nInt.toNat + 10 * s.nLeaf.toNat

/-- R180 to R182: on a finite input ENCODE appends the codes of the whole bytes left, in order, and then that of EOS; a byte or EOS
with no code ends it with INTERNAL_TABLE after the bits emitted so far. Nothing else changes. -/
def Obligations.EncodeAppendsCodesAndTerminator : Prop :=
  ∀ s : State, Ready s → s.codesValid = true → FiniteInput s →
    let r := refEncode (codeTable s) (bytesOf s.rest)
    let u : State := { s with out := s.out ++ r.1, inPos := s.inPos + 8 * r.2.1 }
    exec .encode s = .next (if r.2.2 then u.finished .encode .encode else u.failed .encode .encode .internalTable)

/-- R262: without a REWIND after COUNT, ENCODE ends done having emitted only the code of EOS. -/
def Obligations.EncodeWithoutRewindEmitsOnlyTheTerminator : Prop :=
  ∀ s : State, Ready s → FiniteInput s → s.codesValid = true → (readCode 256 s).valid = true →
    ∃ u v, exec .count s = .next u ∧ exec .encode u = .next v ∧ v.done = true ∧ v.err = false ∧ v.inPos = u.inPos ∧
      v.out = s.out ++ codeBits (readCode 256 s)

/-! ### RDMAGIC, RDTREE, DECODE -/

/-- R152, R160: RDMAGIC raises TRUNCATED, reading nothing, when fewer than 32 bits are left; else it reads 32 bits, and raises FORMAT
unless they are the magic. -/
def Obligations.RdmagicComparesThirtyTwoBits : Prop :=
  ∀ s : State, Ready s → FiniteInput s →
    let u : State := { s with inPos := s.inPos + 32 }
    exec .rdmagic s = .next
      (if s.rest.length < 32 then s.failed .rdmagic .rdmagic .truncated
      else if s.rest.take 32 = bin 32 Config.magic then u.finished .rdmagic .rdmagic
      else u.failed .rdmagic .rdmagic .format)

/-- R153 to R157: RDTREE parses a preorder description; when the parse accepts the bits it leaves that tree in the node store, every
weight 0, sharing no slot; else it raises the parse's error, with no tree and no codes valid. Either way it reads what the
parse reads and changes nothing else. -/
def Obligations.RdtreeParsesTheDescription : Prop :=
  ∀ s : State, Ready s → FiniteInput s →
    ∃ u, exec .rdtree s = .next u ∧
      match refTree s.rest with
      | .tree t n _ =>
        u = ({ s with
          treeValid := true, codesValid := false, node := u.node, nNodes := u.nNodes, nLeaf := u.nLeaf, nInt := u.nInt,
          root := u.root, inPos := s.inPos + n } : State).finished .rdtree .rdtree ∧
        HoldsTree u t ∧ WeightsAt u.node (fun _ => 0) u.root t ∧ (slotsOf u.node u.root t).Nodup
      | .error e n =>
        u = ({ s with
          treeValid := false, codesValid := false, node := u.node, nNodes := u.nNodes, nLeaf := u.nLeaf, nInt := u.nInt,
          root := u.root, inPos := s.inPos + n } : State).failed .rdtree .rdtree e

/-- R190 to R192: DECODE walks the tree bit by bit, appends the bytes of the leaves reached, and ends done at the EOS leaf, at once if
the root is that leaf; it raises TRUNCATED if the input ends first. Nothing else changes but the cursor. -/
def Obligations.DecodeWalksTheTree : Prop :=
  ∀ (s : State) (t : Machine.Tree), Ready s → s.treeValid = true → HoldsTree s t → FiniteInput s →
    let r := refDecodeAll t s.rest
    ∃ c, let u : State := { s with out := s.out ++ bitsOfBytes r.1, inPos := s.inPos + r.2.1, cur := c }
      exec .decode s = .next (if r.2.2 then u.finished .decode .decode else u.failed .decode .decode .truncated)

/-- R193: the bits after the terminator do not matter: with others in their place, or none, DECODE does the same. -/
def Obligations.DecodeIgnoresBitsAfterTheTerminator : Prop :=
  ∀ (s u : State) (t : Machine.Tree) (pre post post' : Bits), Ready s → s.treeValid = true → HoldsTree s t →
    s.source = .bits (pre ++ post) → s.inPos ≤ pre.length → exec .decode s = .next u → u.done = true →
    u.inPos ≤ pre.length →
    ∃ c, exec .decode { s with source := .bits (pre ++ post') } = .next { u with source := .bits (pre ++ post'), cur := c }

/-- R194: on a tree with no EOS leaf DECODE reads a finite input to its end and raises TRUNCATED, and on a channel that never ends it
runs for ever. -/
def Obligations.DecodeWithoutEosNeverEndsDone : Prop :=
  ∀ (s : State) (l r : Machine.Tree), Ready s → s.treeValid = true → HoldsTree s (.node l r) → eos ∉ (Machine.Tree.node l r).symbols →
    (FiniteInput s → ∃ bytes c, exec .decode s = .next (({ s with
      out := s.out ++ bitsOfBytes bytes, inPos := s.inPos + s.rest.length, cur := c } : State).failed .decode .decode
        .truncated)) ∧
    (s.source = .endless → ∀ n, (runCore n (hostWrite 0x00 (encode .decode) s)).busy = true)

/-! ### The pipelines -/

/-- R203: COMPRESS counts the bytes left, builds a tree of the counts, fills the code table, writes the header, goes back to the start
of the input and encodes it; the only error is INTERNAL_TABLE, in ENCODE. -/
def Obligations.CompressRunsItsSubcommands : Prop :=
  ∀ (s : State) (bs : Bits), Ready s → s.source = .bits bs →
    ∃ t u, exec .compress s = .next u ∧
      (∀ b : Byte, (readCnt b.toNat u).toNat = min ((bytesOf s.rest).count b) (2 ^ 32 - 1)) ∧
      HoldsTree u t ∧ WeightsAt u.node (leafWeight u.cnt) u.root t ∧ Merges (leafWeight u.cnt) (leafForest u.cnt) t ∧
      (∀ x ≤ 256, codeTable u x = treeLook t x) ∧
      let r := refEncode (treeLook t) (bytesOf bs)
      let w : State := { s with
        treeValid := true, codesValid := true, cnt := u.cnt, node := u.node, nNodes := u.nNodes, nLeaf := u.nLeaf,
        nInt := u.nInt, root := u.root, code := u.code, pq := [], draws := u.draws,
        out := s.out ++ bin 32 Config.magic ++ t.ser ++ r.1, inPos := 8 * r.2.1 }
      u = if r.2.2 then w.finished .compress .encode else w.failed .compress .encode .internalTable

/-- R184, R105, R183: from the start of a finite input COMPRESS ends done, whatever the draws, and appends 32 bits, 11 `nLeaf` - 1 bits
and the code of each byte and of EOS. -/
def Obligations.CompressFromTheStartEndsDone : Prop :=
  ∀ (s : State) (bs : Bits), Ready s → s.source = .bits bs → s.inPos = 0 →
    ∃ u, exec .compress s = .next u ∧ u.done = true ∧ u.err = false ∧ u.lastOp = 0x0B#8 ∧ u.treeValid = true ∧
      u.codesValid = true ∧ u.inPos = 8 * (bs.length / 8) ∧
      u.out.length = s.out.length + 32 + (11 * u.nLeaf.toNat - 1) +
        ((bytesOf bs).map fun b => (readCode b.toNat u).len.toNat).sum + (readCode 256 u).len.toNat

/-- R204: DECOMPRESS runs RDMAGIC, RDTREE and DECODE, and the first error ends it with the opcode of its sub-command in ERRINFO. -/
def Obligations.DecompressRunsItsSubcommands : Prop :=
  ∀ s : State, Ready s → FiniteInput s →
    ∃ u, exec .decompress s = .next u ∧
      if s.rest.length < 32 then u = s.failed .decompress .rdmagic .truncated
      else if s.rest.take 32 ≠ bin 32 Config.magic then
        u = ({ s with inPos := s.inPos + 32 } : State).failed .decompress .rdmagic .format
      else match refTree (s.rest.drop 32) with
        | .error e n =>
          u = ({ s with
            treeValid := false, codesValid := false, node := u.node, nNodes := u.nNodes, nLeaf := u.nLeaf, nInt := u.nInt,
            root := u.root, inPos := s.inPos + 32 + n } : State).failed .decompress .rdtree e
        | .tree t n _ =>
          let r := refDecodeAll t (s.rest.drop (32 + n))
          let w : State := { s with
            treeValid := true, codesValid := false, node := u.node, nNodes := u.nNodes, nLeaf := u.nLeaf, nInt := u.nInt,
            root := u.root, inPos := s.inPos + 32 + n + r.2.1, out := s.out ++ bitsOfBytes r.1, cur := u.cur }
          HoldsTree u t ∧
            u = if r.2.2 then w.finished .decompress .decode else w.failed .decompress .decode .truncated

/-- R159: what WRHDR writes of a tree, RDMAGIC and RDTREE read back, wherever it stands in their input: they end done with the same
tree, having read exactly what WRHDR wrote. -/
def Obligations.HeaderRoundTrip : Prop :=
  ∀ (s : State) (t : Machine.Tree), Ready s → s.treeValid = true → HoldsTree s t → (∀ x, t = .leaf x → x = eos) →
    ∃ u hdr, exec .wrhdr s = .next u ∧ u.out = s.out ++ hdr ∧
      ∀ (v : State) (pre post : Bits), Ready v → v.source = .bits (pre ++ hdr ++ post) → v.inPos = pre.length →
        ∃ v₁ v₂, exec .rdmagic v = .next v₁ ∧ exec .rdtree v₁ = .next v₂ ∧ v₂.done = true ∧ v₂.err = false ∧
          v₂.treeValid = true ∧ HoldsTree v₂ t ∧ v₂.inPos = pre.length + hdr.length

/-- R196: a COMPRESS of a finite byte sequence ends done, whatever the draws, and a DECOMPRESS of its output, with any padding behind it,
ends done, having written exactly those bytes and read exactly that output. -/
def Obligations.CompressThenDecompressGivesTheBytesBack : Prop :=
  ∀ (s : State) (bytes : List Byte), Ready s → s.source = .bits (bitsOfBytes bytes) → s.inPos = 0 → s.out = [] →
    ∃ u, exec .compress s = .next u ∧ u.done = true ∧ u.err = false ∧
      ∀ (v : State) (pad : Bits), Ready v → v.source = .bits (u.out ++ pad) → v.inPos = 0 →
        ∃ w, exec .decompress v = .next w ∧ w.done = true ∧ w.err = false ∧
          w.out = v.out ++ bitsOfBytes bytes ∧ w.inPos = u.out.length

/-! ### Invariants -/

/-- Every step, of whatever kind, keeps the invariant of the control state (R24, R25, R203 to R205, R222, R231). -/
def Obligations.EveryStepKeepsTheControlInvariant : Prop :=
  ∀ s t : State, ControlInv s → step s = .next t → ControlInv t

/-- Every step keeps the invariant of the node store and the hidden state (R30, R34 to R37, R60): TREE_VALID = 1 means one complete
tree, and nothing exceeds its capacity. -/
def Obligations.EveryStepKeepsTheTreeInvariant : Prop :=
  ∀ s t : State, ControlInv s → TreeInv s → step s = .next t → TreeInv t

/-- The state right after reset meets both invariants. -/
def Obligations.ResetMeetsTheInvariants : Prop := ControlInv State.reset ∧ TreeInv State.reset

/-! ### Reset -/

/-- R250: `RST` and a write of 1 to CTRL.SOFT_RESET, at any time, both give every piece of block state its reset value and touch no
channel; what the node slots then hold is unspecified. -/
def Obligations.ResetRestoresTheBlockState : Prop :=
  ∀ (s : State) (rest : List Move) (v : Word),
    (s.script = .rst :: rest ∨ v.getLsbD 0 = true ∧ s.script = wordWrite 0x0C v :: rest) →
    ∃ nodes, ∃ t : State, step s = .next t ∧
      t = { s with
        busy := false, done := false, err := false, treeValid := false, codesValid := false, cmdDropped := false,
        lastOp := 0x00#8, errCode := 0x0#4, errOp := 0x00#8, selSym := 0#9, selWidx := 0#3,
        cnt := Vector.replicate 256 0#32, node := nodes, nNodes := 0#10, nLeaf := 0#9, nInt := 0#9, root := 0,
        code := Vector.replicate 257 noCode, pq := [], stack := [], cur := 0, curop := 0x00#8, pos := .idle, todo := [],
        script := rest } ∧
      statusWord t = 0#32 ∧ errinfoWord t = 0#32 ∧ treeInfoWord t = 0#32

/-- R251: a reset may come after any number of core steps of a running command; what those steps did to the channels stays done, and
the command leaves no error record and does not resume. -/
def Obligations.ResetCutsACommandBetweenCoreSteps : Prop :=
  ∀ (s : State) (n m : Nat) (rest : List Move), s.script = List.replicate n .core ++ .rst :: (List.replicate m .core ++ rest) →
    ∃ t, stepN (n + 1 + m) s = some t ∧ t.out = (runCore n s).out ∧ t.inPos = (runCore n s).inPos ∧
      t.source = s.source ∧ t.script = rest ∧ t.busy = false ∧ t.err = false ∧ statusWord t = 0#32

/-- R251, R66, R69, R74: a core step makes at most one store write or channel transaction, and a transaction has 1, 8, 9 or 32 bits. -/
def Obligations.CoreStepMakesAtMostOneAccess : Prop :=
  ∀ s : State, let t := coreStep s
    (t.cnt = s.cnt ∧ t.node = s.node ∧ t.code = s.code ∧ t.out = s.out ∧ t.inPos = s.inPos) ∨
    (∃ i v, t.cnt = s.cnt.setIfInBounds i v ∧ t.node = s.node ∧ t.code = s.code ∧ t.out = s.out ∧ t.inPos = s.inPos) ∨
    (∃ i e, t.node = s.node.setIfInBounds i e ∧ t.cnt = s.cnt ∧ t.code = s.code ∧ t.out = s.out ∧ t.inPos = s.inPos) ∨
    (∃ i e, t.code = s.code.setIfInBounds i e ∧ t.cnt = s.cnt ∧ t.node = s.node ∧ t.out = s.out ∧ t.inPos = s.inPos) ∨
    (∃ n ∈ [1, 8, 9, 32], ∃ v : BitVec n, t.out = s.out ++ bin n v ∧ t.cnt = s.cnt ∧ t.node = s.node ∧ t.code = s.code ∧
      t.inPos = s.inPos) ∨
    ((t.inPos = 0 ∨ ∃ n ∈ [1, 8, 9, 32], t.inPos = s.inPos + n) ∧ t.cnt = s.cnt ∧ t.node = s.node ∧ t.code = s.code ∧
      t.out = s.out)

/-! ### The host port -/

/-- R24: the bits of STATUS, at any time. -/
def Obligations.StatusReadsItsBits : Prop :=
  ∀ s : State, let v := (hostRead 0x04 s).rdata
    v.getLsbD 0 = s.busy ∧ v.getLsbD 1 = s.done ∧ v.getLsbD 2 = s.err ∧ v.getLsbD 3 = s.treeValid ∧
    v.getLsbD 4 = s.codesValid ∧ v.getLsbD 5 = s.cmdDropped ∧ v.extractLsb' 6 2 = 0#2 ∧ v.extractLsb' 8 8 = s.lastOp ∧
    v.extractLsb' 16 16 = 0#16

/-- R23, R25 to R27, R39, R76: CMD, ERRINFO, CTRL, MAGIC and SEL as they read at any time, busy or not. -/
def Obligations.ControlRegistersReadTheirFields : Prop :=
  ∀ s : State,
    (hostRead 0x00 s).rdata = 0#32 ∧
    (let v := (hostRead 0x08 s).rdata
     v.extractLsb' 0 4 = s.errCode ∧ v.extractLsb' 4 4 = 0#4 ∧ v.extractLsb' 8 8 = s.errOp ∧ v.extractLsb' 16 16 = 0#16) ∧
    (hostRead 0x0C s).rdata = 0#32 ∧ (hostRead 0x10 s).rdata = Config.magic ∧
    (let v := (hostRead 0x18 s).rdata
     v.extractLsb' 0 9 = s.selSym ∧ v.extractLsb' 9 7 = 0#7 ∧ v.extractLsb' 16 3 = s.selWidx ∧ v.extractLsb' 19 13 = 0#13)

/-- R28: TREEINFO on an idle block. -/
def Obligations.TreeinfoReadsTheCounters : Prop :=
  ∀ s : State, s.busy = false →
    (s.treeValid = false → (hostRead 0x14 s).rdata = 0#32) ∧
    (s.treeValid = true → let v := (hostRead 0x14 s).rdata
      v.extractLsb' 0 9 = s.nLeaf ∧ v.extractLsb' 9 7 = 0#7 ∧ v.extractLsb' 16 9 = s.nInt ∧ v.extractLsb' 25 7 = 0#7)

/-- R40 to R42: COUNT_RD, CODE_LEN and CODE_WORD on an idle block. -/
def Obligations.ReadbackRegistersShowTheStores : Prop :=
  ∀ s : State, s.busy = false →
    (hostRead 0x1C s).rdata = (if s.selSym.toNat ≤ 255 then readCnt s.selSym.toNat s else 0#32) ∧
    (let e := readCode s.selSym.toNat s
     if s.selSym.toNat ≤ 256 ∧ e.valid = true then
       ((hostRead 0x20 s).rdata.getLsbD 31 = true ∧ (hostRead 0x20 s).rdata.extractLsb' 0 9 = e.len ∧
         (hostRead 0x20 s).rdata.extractLsb' 9 22 = 0#22) ∧
       ∀ j < 32, (hostRead 0x24 s).rdata.getLsbD (31 - j) =
         (decide (32 * s.selWidx.toNat + j < e.len.toNat) && e.bits.getLsbD (32 * s.selWidx.toNat + j))
     else (hostRead 0x20 s).rdata = 0#32 ∧ (hostRead 0x24 s).rdata = 0#32)

/-- R43, R63: a read changes nothing (but what the model keeps of the host: the value read, and the count of draws); unmapped offsets
read 0 and ignore writes. -/
def Obligations.ReadsHaveNoSideEffect : Prop :=
  ∀ (s : State) (offset : Nat),
    { hostRead offset s with rdata := s.rdata, draws := s.draws } = s ∧
    (0x28 ≤ offset → offset ≤ 0xFC → offset % 4 = 0 →
      (hostRead offset s).rdata = 0#32 ∧ ∀ v, hostWrite offset v s = s)

/-- R22, R26, R39: writes to read-only registers are ignored, and so is a write of CTRL with bit 0 clear; a write of SEL sets its two
fields, seen by the next read, and nothing else. -/
def Obligations.WritesReachOnlyWritableFields : Prop :=
  ∀ (s : State) (v : Word),
    (∀ offset ∈ [0x04, 0x08, 0x10, 0x14, 0x1C, 0x20, 0x24], hostWrite offset v s = s) ∧
    (v.getLsbD 0 = false → hostWrite 0x0C v s = s) ∧
    hostWrite 0x18 v s = { s with selSym := v.extractLsb' 0 9, selWidx := v.extractLsb' 16 3 } ∧
    (hostRead 0x18 (hostWrite 0x18 v s)).rdata = v &&& 0x000701FF#32

/-- R62: in the window the host port accepts exactly the aligned 32-bit word accesses, and any other access gets no step. -/
def Obligations.HostPortRefusesOtherAccesses : Prop :=
  ∀ (s : State) (a : Access) (rest : List Move), s.script = .access a :: rest → a.offset < 0x100 →
    (a.bytes = 4 ∧ a.offset % 4 = 0 → ∃ t, step s = .next t ∧ t.script = rest) ∧
    (¬ (a.bytes = 4 ∧ a.offset % 4 = 0) → step s = .refused .hostAccessForm)

/-- R100: `SELECT` sets SEL, `RESET` resets the block, and `WAIT` reads STATUS and goes on only when BUSY is 0. -/
def Obligations.PseudoInstructionsExpand : Prop :=
  ∀ (s : State) (rest : List Move),
    (∀ sym widx : Word, sym.toNat < 512 → widx.toNat < 8 → s.script = expandStmt (.selectWord sym widx) ++ rest →
      step s = .next { s with script := rest, selSym := sym.setWidth 9, selWidx := widx.setWidth 3 }) ∧
    (s.script = expandStmt .reset ++ rest → step s = .next (resetBlock { s with script := rest })) ∧
    (s.script = expandStmt .wait ++ rest → s.busy = false →
      step s = .next { s with script := rest, rdata := statusWord s }) ∧
    (s.script = expandStmt .wait ++ rest → s.busy = true →
      step s = .next (coreStep { s with rdata := statusWord s }) ∧ (coreStep s).script = s.script)

/-! ### Rules of the whole machine -/

/-- R112, R29, R30, R33: which commands write the counts, the code table and the tree. -/
def Obligations.OnlyTheirWritersChangeTheStores : Prop :=
  ∀ (i : Instr) (s t : State), exec i s = .next t →
    (i ∉ [Instr.count, .clear, .compress] → t.cnt = s.cnt) ∧
    (i ∉ [Instr.gencodes, .clear, .compress] → t.code = s.code) ∧
    (i ∉ [Instr.build, .rdtree, .clear, .compress, .decompress] →
      t.node = s.node ∧ t.nNodes = s.nNodes ∧ t.nLeaf = s.nLeaf ∧ t.nInt = s.nInt ∧ t.root = s.root)

/-- R206: what each command and a reset do to TREE_VALID and CODES_VALID, at the start and at the end. -/
def Obligations.ValidityBitsFollowTheTable : Prop :=
  ∀ (i : Instr) (s t : State), Ready s → exec i s = .next t →
    (i = .build → t.treeValid = true ∧ t.codesValid = false) ∧
    (i = .rdtree → t.busy = false → t.codesValid = false ∧ (t.treeValid = true ↔ t.done = true)) ∧
    (i = .gencodes → t.treeValid = s.treeValid ∧ (t.done = true → t.codesValid = true)) ∧
    (i = .clear → t.treeValid = false ∧ t.codesValid = false) ∧
    ((resetBlock s).treeValid = false ∧ (resetBlock s).codesValid = false) ∧
    (i ∈ [Instr.count, .wrhdr, .rewind, .encode, .rdmagic, .decode, .nop] →
      t.treeValid = s.treeValid ∧ t.codesValid = s.codesValid) ∧
    (∀ v : State, v.busy = true → v.pos = .buildStart ∨ v.pos = .treeStart →
      (coreStep v).treeValid = false ∧ (coreStep v).codesValid = false) ∧
    ∀ v : State, v.busy = true → v.pos = .genStart → (coreStep v).treeValid = v.treeValid ∧ (coreStep v).codesValid = false

/-- R69, R73, R227: no command takes anything off the output or changes the input's source, only five commands add to the output, and
only eight move in the input. -/
def Obligations.OutputIsOnlyAppendedTo : Prop :=
  ∀ (i : Instr) (s t : State), exec i s = .next t →
    t.source = s.source ∧
    (∃ bits, t.out = s.out ++ bits ∧ (i ∉ [Instr.wrhdr, .encode, .decode, .compress, .decompress] → bits = [])) ∧
    (i ∈ [Instr.nop, .clear, .build, .gencodes, .wrhdr] → t.inPos = s.inPos)

/-- R39, R201: no command reads or writes SEL: with another SEL it does the same. -/
def Obligations.SelIsNeitherReadNorWrittenByCommands : Prop :=
  ∀ (i : Instr) (s t : State) (sym : Sym) (widx : BitVec 3), exec i s = .next t →
    t.selSym = s.selSym ∧ t.selWidx = s.selWidx ∧
    exec i { s with selSym := sym, selWidx := widx } = .next { t with selSym := sym, selWidx := widx }

/-- R225 to R228: a core step that raises an error records it with `curop`, clears BUSY and DONE, writes no output and no store, and
after it nothing of the command runs. -/
def Obligations.AbortIsPrecise : Prop :=
  ∀ s : State, ControlInv s → s.err = false → (coreStep s).err = true → let t := coreStep s
    t.errOp = s.curop ∧ 0x1 ≤ t.errCode.toNat ∧ t.errCode.toNat ≤ 0x6 ∧ t.busy = false ∧ t.done = false ∧
    t.out = s.out ∧ t.cnt = s.cnt ∧ t.node = s.node ∧ t.code = s.code ∧ t.nNodes = s.nNodes ∧ t.nLeaf = s.nLeaf ∧
    t.nInt = s.nInt ∧ t.treeValid = s.treeValid ∧ t.codesValid = s.codesValid ∧ ∀ n, runCore n t = t

/-- R223: a command that stops running without an error sets DONE, with ERR and ERRINFO still 0, and changes nothing else. -/
def Obligations.CompletionSetsDone : Prop :=
  ∀ s : State, ControlInv s → s.busy = true → (coreStep s).busy = false → (coreStep s).err = false →
    coreStep s = { s with busy := false, done := true, pos := .idle } ∧ (coreStep s).errCode = 0#4 ∧
    (coreStep s).errOp = 0#8

end
end

