-- ==== Sys2Proof/Laws/Bits.lean ====
section
/-! SUPPORT. Fields as bit strings: what is written as `bin_n(v)` is read as `v` (spec 00_scope.md R10, 20_memory.md
R66 and R70), and a code entry holds its path (10_state.md R33). -/

namespace Sys2Proof.Machine

theorem natOfBits_from (bs : Bits) (a : Nat) :
    bs.foldl (fun a b => 2 * a + b.toNat) a = a * 2 ^ bs.length + natOfBits bs := by
  induction bs generalizing a with
  | nil => simp [natOfBits]
  | cons b bs ih =>
    simp only [List.foldl_cons, natOfBits, List.length_cons]
    rw [ih, ih (2 * 0 + b.toNat)]
    ring

theorem natOfBits_cons (b : Bool) (bs : Bits) : natOfBits (b :: bs) = b.toNat * 2 ^ bs.length + natOfBits bs := by
  conv_lhs => rw [natOfBits, List.foldl_cons, natOfBits_from]
  simp

@[simp] theorem natOfBits_nil : natOfBits [] = 0 := rfl

theorem natOfBits_lt (bs : Bits) : natOfBits bs < 2 ^ bs.length := by
  induction bs with
  | nil => simp
  | cons b bs ih =>
    rw [natOfBits_cons, List.length_cons, pow_succ]
    cases b <;> simp <;> omega

@[simp] theorem length_bin (n : Nat) (v : BitVec n) : (bin n v).length = n := by simp [bin]

/-- The `n` low bits of `k`, most significant first, read as `k mod 2^n`. -/
theorem natOfBits_testBit (k n : Nat) :
    natOfBits ((List.range n).map fun i => k.testBit (n - 1 - i)) = k % 2 ^ n := by
  induction n with
  | zero => simp [Nat.mod_one]
  | succ n ih =>
    have h : (List.range n).map ((fun i => k.testBit (n + 1 - 1 - i)) ∘ Nat.succ) =
        (List.range n).map fun i => k.testBit (n - 1 - i) := by
      apply List.map_congr_left
      intro i _
      simp only [Function.comp]
      congr 1
      omega
    rw [List.range_succ_eq_map, List.map_cons, List.map_map, natOfBits_cons, h, ih, List.length_map, List.length_range,
      Nat.mod_pow_succ, Nat.add_sub_cancel, Nat.sub_zero, Nat.testBit_eq_decide_div_mod_eq]
    rcases Nat.mod_two_eq_zero_or_one (k / 2 ^ n) with h2 | h2 <;> simp [h2]
    omega

theorem bin_eq_testBit (n : Nat) (v : BitVec n) : bin n v = (List.range n).map fun i => v.toNat.testBit (n - 1 - i) := by
  apply List.map_congr_left
  intro i hi
  have : i < n := by simpa using hi
  simp [BitVec.getMsbD, this, BitVec.getLsbD]

/-- A field that is written and read is the value that was written. -/
@[simp] theorem natOfBits_bin (n : Nat) (v : BitVec n) : natOfBits (bin n v) = v.toNat := by
  rw [bin_eq_testBit, natOfBits_testBit, Nat.mod_eq_of_lt v.isLt]

@[simp] theorem bin_one_ofBool (b : Bool) : bin 1 (BitVec.ofBool b) = [b] := by cases b <;> rfl

@[simp] theorem bin_one_zero : bin 1 0#1 = [false] := rfl

@[simp] theorem bin_one_one : bin 1 1#1 = [true] := rfl

/-- Bits of a number built edge by edge (R33). -/
theorem testBit_natOfPath (p : Bits) (j : Nat) : (natOfPath p).testBit j = (p[j]?).getD false := by
  induction p generalizing j with
  | nil => simp [natOfPath]
  | cons b p ih =>
    rw [show natOfPath (b :: p) = b.toNat + 2 * natOfPath p from rfl]
    cases j with
    | zero => cases b <;> simp [Nat.testBit_zero, Nat.add_mod]
    | succ j =>
      rw [Nat.testBit_succ, show (b.toNat + 2 * natOfPath p) / 2 = natOfPath p by cases b <;> (simp; try omega), ih]
      simp

theorem codeOf_valid (p : Bits) : (codeOf p).valid = true := rfl

/-- A code entry holds the path that it was made from (R33: codes have at most 256 bits). -/
theorem codeBits_codeOf {p : Bits} (h : p.length ≤ 256) : codeBits (codeOf p) = p := by
  apply List.ext_getElem?
  intro j
  simp only [codeBits, codeOf, BitVec.toNat_ofNat]
  rw [Nat.mod_eq_of_lt (by omega : p.length < 2 ^ 9)]
  rcases Nat.lt_or_ge j p.length with hj | hj
  · rw [List.getElem?_map, List.getElem?_range hj, Option.map_some, BitVec.getLsbD_ofNat, testBit_natOfPath]
    simp [hj, show j < 256 by omega]
  · rw [List.getElem?_eq_none (by simpa using hj), List.getElem?_eq_none hj]

/-- Whole bytes of a bit string, as the first 8 bits and the rest. -/
theorem bytesOf_of_le {bs : Bits} (h : 8 ≤ bs.length) :
    bytesOf bs = BitVec.ofNat 8 (natOfBits (bs.take 8)) :: bytesOf (bs.drop 8) := by
  match bs, h with
  | _ :: _ :: _ :: _ :: _ :: _ :: _ :: _ :: rest, _ => rfl

theorem bytesOf_of_lt {bs : Bits} (h : bs.length < 8) : bytesOf bs = [] := by
  match bs, h with
  | [], _ | [_], _ | [_, _], _ | [_, _, _], _ | [_, _, _, _], _ | [_, _, _, _, _], _ | [_, _, _, _, _, _], _
  | [_, _, _, _, _, _, _], _ => rfl

theorem length_bytesOf (bs : Bits) : (bytesOf bs).length = bs.length / 8 := by
  induction h : bs.length using Nat.strong_induction_on generalizing bs with
  | _ n ih =>
    rcases Nat.lt_or_ge bs.length 8 with h8 | h8
    · rw [bytesOf_of_lt h8]; simp; omega
    · rw [bytesOf_of_le h8, List.length_cons, ih (bs.drop 8).length (by simp; omega) _ rfl]
      simp; omega

/-- The bytes of the reference channel's bit string are the bytes presented (R71). -/
@[simp] theorem bytesOf_bitsOfBytes (bytes : List Byte) : bytesOf (bitsOfBytes bytes) = bytes := by
  induction bytes with
  | nil => rfl
  | cons b bytes ih =>
    have hl : (bin 8 b).length = 8 := length_bin 8 b
    rw [show bitsOfBytes (b :: bytes) = bin 8 b ++ bitsOfBytes bytes from rfl,
      bytesOf_of_le (by rw [List.length_append]; omega)]
    rw [List.take_left' hl, List.drop_left' hl, ih]
    simp

@[simp] theorem length_bitsOfBytes (bytes : List Byte) : (bitsOfBytes bytes).length = 8 * bytes.length := by
  induction bytes with
  | nil => rfl
  | cons b bytes ih =>
    rw [show bitsOfBytes (b :: bytes) = bin 8 b ++ bitsOfBytes bytes from rfl]
    simp [ih]; ring

@[simp] theorem bitsOfBytes_nil : bitsOfBytes [] = [] := rfl

@[simp] theorem bitsOfBytes_cons (b : Byte) (bytes : List Byte) :
    bitsOfBytes (b :: bytes) = bin 8 b ++ bitsOfBytes bytes := rfl

end Sys2Proof.Machine
end

