-- ==== Sys2Proof/Laws/State.lean ====
section
/-! SUPPORT. One lemma a field and update of State, so that no proof unfolds a record update: what each shared operation
writes, and that it writes nothing else. -/

namespace Sys2Proof.Machine

section
variable (p : Pos) (s : State)

@[simp] theorem goto_busy : (goto p s).busy = s.busy := rfl
@[simp] theorem goto_done : (goto p s).done = s.done := rfl
@[simp] theorem goto_err : (goto p s).err = s.err := rfl
@[simp] theorem goto_treeValid : (goto p s).treeValid = s.treeValid := rfl
@[simp] theorem goto_codesValid : (goto p s).codesValid = s.codesValid := rfl
@[simp] theorem goto_cmdDropped : (goto p s).cmdDropped = s.cmdDropped := rfl
@[simp] theorem goto_lastOp : (goto p s).lastOp = s.lastOp := rfl
@[simp] theorem goto_errCode : (goto p s).errCode = s.errCode := rfl
@[simp] theorem goto_errOp : (goto p s).errOp = s.errOp := rfl
@[simp] theorem goto_selSym : (goto p s).selSym = s.selSym := rfl
@[simp] theorem goto_selWidx : (goto p s).selWidx = s.selWidx := rfl
@[simp] theorem goto_cnt : (goto p s).cnt = s.cnt := rfl
@[simp] theorem goto_node : (goto p s).node = s.node := rfl
@[simp] theorem goto_nNodes : (goto p s).nNodes = s.nNodes := rfl
@[simp] theorem goto_nLeaf : (goto p s).nLeaf = s.nLeaf := rfl
@[simp] theorem goto_nInt : (goto p s).nInt = s.nInt := rfl
@[simp] theorem goto_root : (goto p s).root = s.root := rfl
@[simp] theorem goto_code : (goto p s).code = s.code := rfl
@[simp] theorem goto_pq : (goto p s).pq = s.pq := rfl
@[simp] theorem goto_stack : (goto p s).stack = s.stack := rfl
@[simp] theorem goto_cur : (goto p s).cur = s.cur := rfl
@[simp] theorem goto_curop : (goto p s).curop = s.curop := rfl
@[simp] theorem goto_pos : (goto p s).pos = p := rfl
@[simp] theorem goto_todo : (goto p s).todo = s.todo := rfl
@[simp] theorem goto_source : (goto p s).source = s.source := rfl
@[simp] theorem goto_inPos : (goto p s).inPos = s.inPos := rfl
@[simp] theorem goto_out : (goto p s).out = s.out := rfl
@[simp] theorem goto_script : (goto p s).script = s.script := rfl
@[simp] theorem goto_rdata : (goto p s).rdata = s.rdata := rfl
@[simp] theorem goto_checkFailed : (goto p s).checkFailed = s.checkFailed := rfl
@[simp] theorem goto_draws : (goto p s).draws = s.draws := rfl

end

section
variable (s : State)

@[simp] theorem chanRewind_busy : (chanRewind s).busy = s.busy := rfl
@[simp] theorem chanRewind_done : (chanRewind s).done = s.done := rfl
@[simp] theorem chanRewind_err : (chanRewind s).err = s.err := rfl
@[simp] theorem chanRewind_treeValid : (chanRewind s).treeValid = s.treeValid := rfl
@[simp] theorem chanRewind_codesValid : (chanRewind s).codesValid = s.codesValid := rfl
@[simp] theorem chanRewind_cmdDropped : (chanRewind s).cmdDropped = s.cmdDropped := rfl
@[simp] theorem chanRewind_lastOp : (chanRewind s).lastOp = s.lastOp := rfl
@[simp] theorem chanRewind_errCode : (chanRewind s).errCode = s.errCode := rfl
@[simp] theorem chanRewind_errOp : (chanRewind s).errOp = s.errOp := rfl
@[simp] theorem chanRewind_selSym : (chanRewind s).selSym = s.selSym := rfl
@[simp] theorem chanRewind_selWidx : (chanRewind s).selWidx = s.selWidx := rfl
@[simp] theorem chanRewind_cnt : (chanRewind s).cnt = s.cnt := rfl
@[simp] theorem chanRewind_node : (chanRewind s).node = s.node := rfl
@[simp] theorem chanRewind_nNodes : (chanRewind s).nNodes = s.nNodes := rfl
@[simp] theorem chanRewind_nLeaf : (chanRewind s).nLeaf = s.nLeaf := rfl
@[simp] theorem chanRewind_nInt : (chanRewind s).nInt = s.nInt := rfl
@[simp] theorem chanRewind_root : (chanRewind s).root = s.root := rfl
@[simp] theorem chanRewind_code : (chanRewind s).code = s.code := rfl
@[simp] theorem chanRewind_pq : (chanRewind s).pq = s.pq := rfl
@[simp] theorem chanRewind_stack : (chanRewind s).stack = s.stack := rfl
@[simp] theorem chanRewind_cur : (chanRewind s).cur = s.cur := rfl
@[simp] theorem chanRewind_curop : (chanRewind s).curop = s.curop := rfl
@[simp] theorem chanRewind_pos : (chanRewind s).pos = s.pos := rfl
@[simp] theorem chanRewind_todo : (chanRewind s).todo = s.todo := rfl
@[simp] theorem chanRewind_source : (chanRewind s).source = s.source := rfl
@[simp] theorem chanRewind_inPos : (chanRewind s).inPos = 0 := rfl
@[simp] theorem chanRewind_out : (chanRewind s).out = s.out := rfl
@[simp] theorem chanRewind_script : (chanRewind s).script = s.script := rfl
@[simp] theorem chanRewind_rdata : (chanRewind s).rdata = s.rdata := rfl
@[simp] theorem chanRewind_checkFailed : (chanRewind s).checkFailed = s.checkFailed := rfl
@[simp] theorem chanRewind_draws : (chanRewind s).draws = s.draws := rfl

end

section
variable (n : Nat) (v : BitVec n) (s : State)

@[simp] theorem chanWrite_busy : (chanWrite n v s).busy = s.busy := rfl
@[simp] theorem chanWrite_done : (chanWrite n v s).done = s.done := rfl
@[simp] theorem chanWrite_err : (chanWrite n v s).err = s.err := rfl
@[simp] theorem chanWrite_treeValid : (chanWrite n v s).treeValid = s.treeValid := rfl
@[simp] theorem chanWrite_codesValid : (chanWrite n v s).codesValid = s.codesValid := rfl
@[simp] theorem chanWrite_cmdDropped : (chanWrite n v s).cmdDropped = s.cmdDropped := rfl
@[simp] theorem chanWrite_lastOp : (chanWrite n v s).lastOp = s.lastOp := rfl
@[simp] theorem chanWrite_errCode : (chanWrite n v s).errCode = s.errCode := rfl
@[simp] theorem chanWrite_errOp : (chanWrite n v s).errOp = s.errOp := rfl
@[simp] theorem chanWrite_selSym : (chanWrite n v s).selSym = s.selSym := rfl
@[simp] theorem chanWrite_selWidx : (chanWrite n v s).selWidx = s.selWidx := rfl
@[simp] theorem chanWrite_cnt : (chanWrite n v s).cnt = s.cnt := rfl
@[simp] theorem chanWrite_node : (chanWrite n v s).node = s.node := rfl
@[simp] theorem chanWrite_nNodes : (chanWrite n v s).nNodes = s.nNodes := rfl
@[simp] theorem chanWrite_nLeaf : (chanWrite n v s).nLeaf = s.nLeaf := rfl
@[simp] theorem chanWrite_nInt : (chanWrite n v s).nInt = s.nInt := rfl
@[simp] theorem chanWrite_root : (chanWrite n v s).root = s.root := rfl
@[simp] theorem chanWrite_code : (chanWrite n v s).code = s.code := rfl
@[simp] theorem chanWrite_pq : (chanWrite n v s).pq = s.pq := rfl
@[simp] theorem chanWrite_stack : (chanWrite n v s).stack = s.stack := rfl
@[simp] theorem chanWrite_cur : (chanWrite n v s).cur = s.cur := rfl
@[simp] theorem chanWrite_curop : (chanWrite n v s).curop = s.curop := rfl
@[simp] theorem chanWrite_pos : (chanWrite n v s).pos = s.pos := rfl
@[simp] theorem chanWrite_todo : (chanWrite n v s).todo = s.todo := rfl
@[simp] theorem chanWrite_source : (chanWrite n v s).source = s.source := rfl
@[simp] theorem chanWrite_inPos : (chanWrite n v s).inPos = s.inPos := rfl
@[simp] theorem chanWrite_out : (chanWrite n v s).out = s.out ++ bin n v := rfl
@[simp] theorem chanWrite_script : (chanWrite n v s).script = s.script := rfl
@[simp] theorem chanWrite_rdata : (chanWrite n v s).rdata = s.rdata := rfl
@[simp] theorem chanWrite_checkFailed : (chanWrite n v s).checkFailed = s.checkFailed := rfl
@[simp] theorem chanWrite_draws : (chanWrite n v s).draws = s.draws := rfl

end

section
variable (i : NodeIx) (e : NodeEntry) (s : State)

@[simp] theorem writeNode_busy : (writeNode i e s).busy = s.busy := rfl
@[simp] theorem writeNode_done : (writeNode i e s).done = s.done := rfl
@[simp] theorem writeNode_err : (writeNode i e s).err = s.err := rfl
@[simp] theorem writeNode_treeValid : (writeNode i e s).treeValid = s.treeValid := rfl
@[simp] theorem writeNode_codesValid : (writeNode i e s).codesValid = s.codesValid := rfl
@[simp] theorem writeNode_cmdDropped : (writeNode i e s).cmdDropped = s.cmdDropped := rfl
@[simp] theorem writeNode_lastOp : (writeNode i e s).lastOp = s.lastOp := rfl
@[simp] theorem writeNode_errCode : (writeNode i e s).errCode = s.errCode := rfl
@[simp] theorem writeNode_errOp : (writeNode i e s).errOp = s.errOp := rfl
@[simp] theorem writeNode_selSym : (writeNode i e s).selSym = s.selSym := rfl
@[simp] theorem writeNode_selWidx : (writeNode i e s).selWidx = s.selWidx := rfl
@[simp] theorem writeNode_cnt : (writeNode i e s).cnt = s.cnt := rfl
@[simp] theorem writeNode_node : (writeNode i e s).node = s.node.set i e := rfl
@[simp] theorem writeNode_nNodes : (writeNode i e s).nNodes = s.nNodes := rfl
@[simp] theorem writeNode_nLeaf : (writeNode i e s).nLeaf = s.nLeaf := rfl
@[simp] theorem writeNode_nInt : (writeNode i e s).nInt = s.nInt := rfl
@[simp] theorem writeNode_root : (writeNode i e s).root = s.root := rfl
@[simp] theorem writeNode_code : (writeNode i e s).code = s.code := rfl
@[simp] theorem writeNode_pq : (writeNode i e s).pq = s.pq := rfl
@[simp] theorem writeNode_stack : (writeNode i e s).stack = s.stack := rfl
@[simp] theorem writeNode_cur : (writeNode i e s).cur = s.cur := rfl
@[simp] theorem writeNode_curop : (writeNode i e s).curop = s.curop := rfl
@[simp] theorem writeNode_pos : (writeNode i e s).pos = s.pos := rfl
@[simp] theorem writeNode_todo : (writeNode i e s).todo = s.todo := rfl
@[simp] theorem writeNode_source : (writeNode i e s).source = s.source := rfl
@[simp] theorem writeNode_inPos : (writeNode i e s).inPos = s.inPos := rfl
@[simp] theorem writeNode_out : (writeNode i e s).out = s.out := rfl
@[simp] theorem writeNode_script : (writeNode i e s).script = s.script := rfl
@[simp] theorem writeNode_rdata : (writeNode i e s).rdata = s.rdata := rfl
@[simp] theorem writeNode_checkFailed : (writeNode i e s).checkFailed = s.checkFailed := rfl
@[simp] theorem writeNode_draws : (writeNode i e s).draws = s.draws := rfl

end

section
variable (sym : Sym) (w : Weight) (s : State)

@[simp] theorem newLeaf_busy : (newLeaf sym w s).busy = s.busy := rfl
@[simp] theorem newLeaf_done : (newLeaf sym w s).done = s.done := rfl
@[simp] theorem newLeaf_err : (newLeaf sym w s).err = s.err := rfl
@[simp] theorem newLeaf_treeValid : (newLeaf sym w s).treeValid = s.treeValid := rfl
@[simp] theorem newLeaf_codesValid : (newLeaf sym w s).codesValid = s.codesValid := rfl
@[simp] theorem newLeaf_cmdDropped : (newLeaf sym w s).cmdDropped = s.cmdDropped := rfl
@[simp] theorem newLeaf_lastOp : (newLeaf sym w s).lastOp = s.lastOp := rfl
@[simp] theorem newLeaf_errCode : (newLeaf sym w s).errCode = s.errCode := rfl
@[simp] theorem newLeaf_errOp : (newLeaf sym w s).errOp = s.errOp := rfl
@[simp] theorem newLeaf_selSym : (newLeaf sym w s).selSym = s.selSym := rfl
@[simp] theorem newLeaf_selWidx : (newLeaf sym w s).selWidx = s.selWidx := rfl
@[simp] theorem newLeaf_cnt : (newLeaf sym w s).cnt = s.cnt := rfl
@[simp] theorem newLeaf_node :
    (newLeaf sym w s).node = s.node.set (nextSlot s) { leaf := true, sym := sym, weight := w, left := 0, right := 0 } := rfl
@[simp] theorem newLeaf_nNodes : (newLeaf sym w s).nNodes = s.nNodes + 1#10 := rfl
@[simp] theorem newLeaf_nLeaf : (newLeaf sym w s).nLeaf = s.nLeaf + 1#9 := rfl
@[simp] theorem newLeaf_nInt : (newLeaf sym w s).nInt = s.nInt := rfl
@[simp] theorem newLeaf_root : (newLeaf sym w s).root = s.root := rfl
@[simp] theorem newLeaf_code : (newLeaf sym w s).code = s.code := rfl
@[simp] theorem newLeaf_pq : (newLeaf sym w s).pq = s.pq := rfl
@[simp] theorem newLeaf_stack : (newLeaf sym w s).stack = s.stack := rfl
@[simp] theorem newLeaf_cur : (newLeaf sym w s).cur = s.cur := rfl
@[simp] theorem newLeaf_curop : (newLeaf sym w s).curop = s.curop := rfl
@[simp] theorem newLeaf_pos : (newLeaf sym w s).pos = s.pos := rfl
@[simp] theorem newLeaf_todo : (newLeaf sym w s).todo = s.todo := rfl
@[simp] theorem newLeaf_source : (newLeaf sym w s).source = s.source := rfl
@[simp] theorem newLeaf_inPos : (newLeaf sym w s).inPos = s.inPos := rfl
@[simp] theorem newLeaf_out : (newLeaf sym w s).out = s.out := rfl
@[simp] theorem newLeaf_script : (newLeaf sym w s).script = s.script := rfl
@[simp] theorem newLeaf_rdata : (newLeaf sym w s).rdata = s.rdata := rfl
@[simp] theorem newLeaf_checkFailed : (newLeaf sym w s).checkFailed = s.checkFailed := rfl
@[simp] theorem newLeaf_draws : (newLeaf sym w s).draws = s.draws := rfl

end

section
variable (w : Weight) (a b : NodeIx) (s : State)

@[simp] theorem newInternal_busy : (newInternal w a b s).busy = s.busy := rfl
@[simp] theorem newInternal_done : (newInternal w a b s).done = s.done := rfl
@[simp] theorem newInternal_err : (newInternal w a b s).err = s.err := rfl
@[simp] theorem newInternal_treeValid : (newInternal w a b s).treeValid = s.treeValid := rfl
@[simp] theorem newInternal_codesValid : (newInternal w a b s).codesValid = s.codesValid := rfl
@[simp] theorem newInternal_cmdDropped : (newInternal w a b s).cmdDropped = s.cmdDropped := rfl
@[simp] theorem newInternal_lastOp : (newInternal w a b s).lastOp = s.lastOp := rfl
@[simp] theorem newInternal_errCode : (newInternal w a b s).errCode = s.errCode := rfl
@[simp] theorem newInternal_errOp : (newInternal w a b s).errOp = s.errOp := rfl
@[simp] theorem newInternal_selSym : (newInternal w a b s).selSym = s.selSym := rfl
@[simp] theorem newInternal_selWidx : (newInternal w a b s).selWidx = s.selWidx := rfl
@[simp] theorem newInternal_cnt : (newInternal w a b s).cnt = s.cnt := rfl
@[simp] theorem newInternal_node :
    (newInternal w a b s).node = s.node.set (nextSlot s) { leaf := false, sym := 0#9, weight := w, left := a, right := b } := rfl
@[simp] theorem newInternal_nNodes : (newInternal w a b s).nNodes = s.nNodes + 1#10 := rfl
@[simp] theorem newInternal_nLeaf : (newInternal w a b s).nLeaf = s.nLeaf := rfl
@[simp] theorem newInternal_nInt : (newInternal w a b s).nInt = s.nInt + 1#9 := rfl
@[simp] theorem newInternal_root : (newInternal w a b s).root = s.root := rfl
@[simp] theorem newInternal_code : (newInternal w a b s).code = s.code := rfl
@[simp] theorem newInternal_pq : (newInternal w a b s).pq = s.pq := rfl
@[simp] theorem newInternal_stack : (newInternal w a b s).stack = s.stack := rfl
@[simp] theorem newInternal_cur : (newInternal w a b s).cur = s.cur := rfl
@[simp] theorem newInternal_curop : (newInternal w a b s).curop = s.curop := rfl
@[simp] theorem newInternal_pos : (newInternal w a b s).pos = s.pos := rfl
@[simp] theorem newInternal_todo : (newInternal w a b s).todo = s.todo := rfl
@[simp] theorem newInternal_source : (newInternal w a b s).source = s.source := rfl
@[simp] theorem newInternal_inPos : (newInternal w a b s).inPos = s.inPos := rfl
@[simp] theorem newInternal_out : (newInternal w a b s).out = s.out := rfl
@[simp] theorem newInternal_script : (newInternal w a b s).script = s.script := rfl
@[simp] theorem newInternal_rdata : (newInternal w a b s).rdata = s.rdata := rfl
@[simp] theorem newInternal_checkFailed : (newInternal w a b s).checkFailed = s.checkFailed := rfl
@[simp] theorem newInternal_draws : (newInternal w a b s).draws = s.draws := rfl

end

section
variable (e : ErrCode) (s : State)

@[simp] theorem raiseErr_busy : (raiseErr e s).busy = false := rfl
@[simp] theorem raiseErr_done : (raiseErr e s).done = false := rfl
@[simp] theorem raiseErr_err : (raiseErr e s).err = true := rfl
@[simp] theorem raiseErr_treeValid : (raiseErr e s).treeValid = s.treeValid := rfl
@[simp] theorem raiseErr_codesValid : (raiseErr e s).codesValid = s.codesValid := rfl
@[simp] theorem raiseErr_cmdDropped : (raiseErr e s).cmdDropped = s.cmdDropped := rfl
@[simp] theorem raiseErr_lastOp : (raiseErr e s).lastOp = s.lastOp := rfl
@[simp] theorem raiseErr_errCode : (raiseErr e s).errCode = errCodeOf e := rfl
@[simp] theorem raiseErr_errOp : (raiseErr e s).errOp = s.curop := rfl
@[simp] theorem raiseErr_selSym : (raiseErr e s).selSym = s.selSym := rfl
@[simp] theorem raiseErr_selWidx : (raiseErr e s).selWidx = s.selWidx := rfl
@[simp] theorem raiseErr_cnt : (raiseErr e s).cnt = s.cnt := rfl
@[simp] theorem raiseErr_node : (raiseErr e s).node = s.node := rfl
@[simp] theorem raiseErr_nNodes : (raiseErr e s).nNodes = s.nNodes := rfl
@[simp] theorem raiseErr_nLeaf : (raiseErr e s).nLeaf = s.nLeaf := rfl
@[simp] theorem raiseErr_nInt : (raiseErr e s).nInt = s.nInt := rfl
@[simp] theorem raiseErr_root : (raiseErr e s).root = s.root := rfl
@[simp] theorem raiseErr_code : (raiseErr e s).code = s.code := rfl
@[simp] theorem raiseErr_pq : (raiseErr e s).pq = s.pq := rfl
@[simp] theorem raiseErr_stack : (raiseErr e s).stack = [] := rfl
@[simp] theorem raiseErr_cur : (raiseErr e s).cur = s.cur := rfl
@[simp] theorem raiseErr_curop : (raiseErr e s).curop = s.curop := rfl
@[simp] theorem raiseErr_pos : (raiseErr e s).pos = .idle := rfl
@[simp] theorem raiseErr_todo : (raiseErr e s).todo = [] := rfl
@[simp] theorem raiseErr_source : (raiseErr e s).source = s.source := rfl
@[simp] theorem raiseErr_inPos : (raiseErr e s).inPos = s.inPos := rfl
@[simp] theorem raiseErr_out : (raiseErr e s).out = s.out := rfl
@[simp] theorem raiseErr_script : (raiseErr e s).script = s.script := rfl
@[simp] theorem raiseErr_rdata : (raiseErr e s).rdata = s.rdata := rfl
@[simp] theorem raiseErr_checkFailed : (raiseErr e s).checkFailed = s.checkFailed := rfl
@[simp] theorem raiseErr_draws : (raiseErr e s).draws = s.draws := rfl

end

section
variable (s : State)

@[simp] theorem clearState_busy : (clearState s).busy = s.busy := rfl
@[simp] theorem clearState_done : (clearState s).done = s.done := rfl
@[simp] theorem clearState_err : (clearState s).err = false := rfl
@[simp] theorem clearState_treeValid : (clearState s).treeValid = false := rfl
@[simp] theorem clearState_codesValid : (clearState s).codesValid = false := rfl
@[simp] theorem clearState_cmdDropped : (clearState s).cmdDropped = false := rfl
@[simp] theorem clearState_lastOp : (clearState s).lastOp = s.lastOp := rfl
@[simp] theorem clearState_errCode : (clearState s).errCode = 0#4 := rfl
@[simp] theorem clearState_errOp : (clearState s).errOp = 0#8 := rfl
@[simp] theorem clearState_selSym : (clearState s).selSym = s.selSym := rfl
@[simp] theorem clearState_selWidx : (clearState s).selWidx = s.selWidx := rfl
@[simp] theorem clearState_cnt : (clearState s).cnt = s.cnt := rfl
@[simp] theorem clearState_node : (clearState s).node = s.node := rfl
@[simp] theorem clearState_nNodes : (clearState s).nNodes = 0#10 := rfl
@[simp] theorem clearState_nLeaf : (clearState s).nLeaf = 0#9 := rfl
@[simp] theorem clearState_nInt : (clearState s).nInt = 0#9 := rfl
@[simp] theorem clearState_root : (clearState s).root = 0 := rfl
@[simp] theorem clearState_code : (clearState s).code = s.code := rfl
@[simp] theorem clearState_pq : (clearState s).pq = [] := rfl
@[simp] theorem clearState_stack : (clearState s).stack = s.stack := rfl
@[simp] theorem clearState_cur : (clearState s).cur = 0 := rfl
@[simp] theorem clearState_curop : (clearState s).curop = 0#8 := rfl
@[simp] theorem clearState_pos : (clearState s).pos = s.pos := rfl
@[simp] theorem clearState_todo : (clearState s).todo = s.todo := rfl
@[simp] theorem clearState_source : (clearState s).source = s.source := rfl
@[simp] theorem clearState_inPos : (clearState s).inPos = s.inPos := rfl
@[simp] theorem clearState_out : (clearState s).out = s.out := rfl
@[simp] theorem clearState_script : (clearState s).script = s.script := rfl
@[simp] theorem clearState_rdata : (clearState s).rdata = s.rdata := rfl
@[simp] theorem clearState_checkFailed : (clearState s).checkFailed = s.checkFailed := rfl
@[simp] theorem clearState_draws : (clearState s).draws = s.draws := rfl

end

section
variable (s : State)

@[simp] theorem complete_busy : (complete s).busy = false := rfl
@[simp] theorem complete_done : (complete s).done = true := rfl
@[simp] theorem complete_err : (complete s).err = s.err := rfl
@[simp] theorem complete_treeValid : (complete s).treeValid = s.treeValid := rfl
@[simp] theorem complete_codesValid : (complete s).codesValid = s.codesValid := rfl
@[simp] theorem complete_cmdDropped : (complete s).cmdDropped = s.cmdDropped := rfl
@[simp] theorem complete_lastOp : (complete s).lastOp = s.lastOp := rfl
@[simp] theorem complete_errCode : (complete s).errCode = s.errCode := rfl
@[simp] theorem complete_errOp : (complete s).errOp = s.errOp := rfl
@[simp] theorem complete_selSym : (complete s).selSym = s.selSym := rfl
@[simp] theorem complete_selWidx : (complete s).selWidx = s.selWidx := rfl
@[simp] theorem complete_cnt : (complete s).cnt = s.cnt := rfl
@[simp] theorem complete_node : (complete s).node = s.node := rfl
@[simp] theorem complete_nNodes : (complete s).nNodes = s.nNodes := rfl
@[simp] theorem complete_nLeaf : (complete s).nLeaf = s.nLeaf := rfl
@[simp] theorem complete_nInt : (complete s).nInt = s.nInt := rfl
@[simp] theorem complete_root : (complete s).root = s.root := rfl
@[simp] theorem complete_code : (complete s).code = s.code := rfl
@[simp] theorem complete_pq : (complete s).pq = s.pq := rfl
@[simp] theorem complete_stack : (complete s).stack = s.stack := rfl
@[simp] theorem complete_cur : (complete s).cur = s.cur := rfl
@[simp] theorem complete_curop : (complete s).curop = s.curop := rfl
@[simp] theorem complete_pos : (complete s).pos = .idle := rfl
@[simp] theorem complete_todo : (complete s).todo = s.todo := rfl
@[simp] theorem complete_source : (complete s).source = s.source := rfl
@[simp] theorem complete_inPos : (complete s).inPos = s.inPos := rfl
@[simp] theorem complete_out : (complete s).out = s.out := rfl
@[simp] theorem complete_script : (complete s).script = s.script := rfl
@[simp] theorem complete_rdata : (complete s).rdata = s.rdata := rfl
@[simp] theorem complete_checkFailed : (complete s).checkFailed = s.checkFailed := rfl
@[simp] theorem complete_draws : (complete s).draws = s.draws := rfl

end

section
variable (s : State)

@[simp] theorem dropWord_busy : (dropWord s).busy = s.busy := rfl
@[simp] theorem dropWord_done : (dropWord s).done = s.done := rfl
@[simp] theorem dropWord_err : (dropWord s).err = s.err := rfl
@[simp] theorem dropWord_treeValid : (dropWord s).treeValid = s.treeValid := rfl
@[simp] theorem dropWord_codesValid : (dropWord s).codesValid = s.codesValid := rfl
@[simp] theorem dropWord_cmdDropped : (dropWord s).cmdDropped = true := rfl
@[simp] theorem dropWord_lastOp : (dropWord s).lastOp = s.lastOp := rfl
@[simp] theorem dropWord_errCode : (dropWord s).errCode = s.errCode := rfl
@[simp] theorem dropWord_errOp : (dropWord s).errOp = s.errOp := rfl
@[simp] theorem dropWord_selSym : (dropWord s).selSym = s.selSym := rfl
@[simp] theorem dropWord_selWidx : (dropWord s).selWidx = s.selWidx := rfl
@[simp] theorem dropWord_cnt : (dropWord s).cnt = s.cnt := rfl
@[simp] theorem dropWord_node : (dropWord s).node = s.node := rfl
@[simp] theorem dropWord_nNodes : (dropWord s).nNodes = s.nNodes := rfl
@[simp] theorem dropWord_nLeaf : (dropWord s).nLeaf = s.nLeaf := rfl
@[simp] theorem dropWord_nInt : (dropWord s).nInt = s.nInt := rfl
@[simp] theorem dropWord_root : (dropWord s).root = s.root := rfl
@[simp] theorem dropWord_code : (dropWord s).code = s.code := rfl
@[simp] theorem dropWord_pq : (dropWord s).pq = s.pq := rfl
@[simp] theorem dropWord_stack : (dropWord s).stack = s.stack := rfl
@[simp] theorem dropWord_cur : (dropWord s).cur = s.cur := rfl
@[simp] theorem dropWord_curop : (dropWord s).curop = s.curop := rfl
@[simp] theorem dropWord_pos : (dropWord s).pos = s.pos := rfl
@[simp] theorem dropWord_todo : (dropWord s).todo = s.todo := rfl
@[simp] theorem dropWord_source : (dropWord s).source = s.source := rfl
@[simp] theorem dropWord_inPos : (dropWord s).inPos = s.inPos := rfl
@[simp] theorem dropWord_out : (dropWord s).out = s.out := rfl
@[simp] theorem dropWord_script : (dropWord s).script = s.script := rfl
@[simp] theorem dropWord_rdata : (dropWord s).rdata = s.rdata := rfl
@[simp] theorem dropWord_checkFailed : (dropWord s).checkFailed = s.checkFailed := rfl
@[simp] theorem dropWord_draws : (dropWord s).draws = s.draws := rfl

end

section
variable (w : Word) (s : State)

@[simp] theorem acceptWord_busy : (acceptWord w s).busy = true := rfl
@[simp] theorem acceptWord_done : (acceptWord w s).done = false := rfl
@[simp] theorem acceptWord_err : (acceptWord w s).err = s.err := rfl
@[simp] theorem acceptWord_treeValid : (acceptWord w s).treeValid = s.treeValid := rfl
@[simp] theorem acceptWord_codesValid : (acceptWord w s).codesValid = s.codesValid := rfl
@[simp] theorem acceptWord_cmdDropped : (acceptWord w s).cmdDropped = s.cmdDropped := rfl
@[simp] theorem acceptWord_lastOp : (acceptWord w s).lastOp = opField w := rfl
@[simp] theorem acceptWord_errCode : (acceptWord w s).errCode = s.errCode := rfl
@[simp] theorem acceptWord_errOp : (acceptWord w s).errOp = s.errOp := rfl
@[simp] theorem acceptWord_selSym : (acceptWord w s).selSym = s.selSym := rfl
@[simp] theorem acceptWord_selWidx : (acceptWord w s).selWidx = s.selWidx := rfl
@[simp] theorem acceptWord_cnt : (acceptWord w s).cnt = s.cnt := rfl
@[simp] theorem acceptWord_node : (acceptWord w s).node = s.node := rfl
@[simp] theorem acceptWord_nNodes : (acceptWord w s).nNodes = s.nNodes := rfl
@[simp] theorem acceptWord_nLeaf : (acceptWord w s).nLeaf = s.nLeaf := rfl
@[simp] theorem acceptWord_nInt : (acceptWord w s).nInt = s.nInt := rfl
@[simp] theorem acceptWord_root : (acceptWord w s).root = s.root := rfl
@[simp] theorem acceptWord_code : (acceptWord w s).code = s.code := rfl
@[simp] theorem acceptWord_pq : (acceptWord w s).pq = s.pq := rfl
@[simp] theorem acceptWord_stack : (acceptWord w s).stack = s.stack := rfl
@[simp] theorem acceptWord_cur : (acceptWord w s).cur = s.cur := rfl
@[simp] theorem acceptWord_curop : (acceptWord w s).curop = opField w := rfl
@[simp] theorem acceptWord_pos : (acceptWord w s).pos = s.pos := rfl
@[simp] theorem acceptWord_todo : (acceptWord w s).todo = s.todo := rfl
@[simp] theorem acceptWord_source : (acceptWord w s).source = s.source := rfl
@[simp] theorem acceptWord_inPos : (acceptWord w s).inPos = s.inPos := rfl
@[simp] theorem acceptWord_out : (acceptWord w s).out = s.out := rfl
@[simp] theorem acceptWord_script : (acceptWord w s).script = s.script := rfl
@[simp] theorem acceptWord_rdata : (acceptWord w s).rdata = s.rdata := rfl
@[simp] theorem acceptWord_checkFailed : (acceptWord w s).checkFailed = s.checkFailed := rfl
@[simp] theorem acceptWord_draws : (acceptWord w s).draws = s.draws := rfl

end

section
variable (p : Pos) (s : State)

@[simp] theorem beginBody_busy : (beginBody p s).busy = s.busy := rfl
@[simp] theorem beginBody_done : (beginBody p s).done = s.done := rfl
@[simp] theorem beginBody_err : (beginBody p s).err = s.err := rfl
@[simp] theorem beginBody_treeValid : (beginBody p s).treeValid = s.treeValid := rfl
@[simp] theorem beginBody_codesValid : (beginBody p s).codesValid = s.codesValid := rfl
@[simp] theorem beginBody_cmdDropped : (beginBody p s).cmdDropped = s.cmdDropped := rfl
@[simp] theorem beginBody_lastOp : (beginBody p s).lastOp = s.lastOp := rfl
@[simp] theorem beginBody_errCode : (beginBody p s).errCode = s.errCode := rfl
@[simp] theorem beginBody_errOp : (beginBody p s).errOp = s.errOp := rfl
@[simp] theorem beginBody_selSym : (beginBody p s).selSym = s.selSym := rfl
@[simp] theorem beginBody_selWidx : (beginBody p s).selWidx = s.selWidx := rfl
@[simp] theorem beginBody_cnt : (beginBody p s).cnt = s.cnt := rfl
@[simp] theorem beginBody_node : (beginBody p s).node = s.node := rfl
@[simp] theorem beginBody_nNodes : (beginBody p s).nNodes = s.nNodes := rfl
@[simp] theorem beginBody_nLeaf : (beginBody p s).nLeaf = s.nLeaf := rfl
@[simp] theorem beginBody_nInt : (beginBody p s).nInt = s.nInt := rfl
@[simp] theorem beginBody_root : (beginBody p s).root = s.root := rfl
@[simp] theorem beginBody_code : (beginBody p s).code = s.code := rfl
@[simp] theorem beginBody_pq : (beginBody p s).pq = s.pq := rfl
@[simp] theorem beginBody_stack : (beginBody p s).stack = [] := rfl
@[simp] theorem beginBody_cur : (beginBody p s).cur = s.cur := rfl
@[simp] theorem beginBody_curop : (beginBody p s).curop = s.curop := rfl
@[simp] theorem beginBody_pos : (beginBody p s).pos = p := rfl
@[simp] theorem beginBody_todo : (beginBody p s).todo = [] := rfl
@[simp] theorem beginBody_source : (beginBody p s).source = s.source := rfl
@[simp] theorem beginBody_inPos : (beginBody p s).inPos = s.inPos := rfl
@[simp] theorem beginBody_out : (beginBody p s).out = s.out := rfl
@[simp] theorem beginBody_script : (beginBody p s).script = s.script := rfl
@[simp] theorem beginBody_rdata : (beginBody p s).rdata = s.rdata := rfl
@[simp] theorem beginBody_checkFailed : (beginBody p s).checkFailed = s.checkFailed := rfl
@[simp] theorem beginBody_draws : (beginBody p s).draws = s.draws := rfl

end

section
variable (s : State)

@[simp] theorem clearTree_busy : (clearTree s).busy = s.busy := rfl
@[simp] theorem clearTree_done : (clearTree s).done = s.done := rfl
@[simp] theorem clearTree_err : (clearTree s).err = s.err := rfl
@[simp] theorem clearTree_treeValid : (clearTree s).treeValid = false := rfl
@[simp] theorem clearTree_codesValid : (clearTree s).codesValid = false := rfl
@[simp] theorem clearTree_cmdDropped : (clearTree s).cmdDropped = s.cmdDropped := rfl
@[simp] theorem clearTree_lastOp : (clearTree s).lastOp = s.lastOp := rfl
@[simp] theorem clearTree_errCode : (clearTree s).errCode = s.errCode := rfl
@[simp] theorem clearTree_errOp : (clearTree s).errOp = s.errOp := rfl
@[simp] theorem clearTree_selSym : (clearTree s).selSym = s.selSym := rfl
@[simp] theorem clearTree_selWidx : (clearTree s).selWidx = s.selWidx := rfl
@[simp] theorem clearTree_cnt : (clearTree s).cnt = s.cnt := rfl
@[simp] theorem clearTree_node : (clearTree s).node = s.node := rfl
@[simp] theorem clearTree_nNodes : (clearTree s).nNodes = 0#10 := rfl
@[simp] theorem clearTree_nLeaf : (clearTree s).nLeaf = 0#9 := rfl
@[simp] theorem clearTree_nInt : (clearTree s).nInt = 0#9 := rfl
@[simp] theorem clearTree_root : (clearTree s).root = s.root := rfl
@[simp] theorem clearTree_code : (clearTree s).code = s.code := rfl
@[simp] theorem clearTree_pq : (clearTree s).pq = s.pq := rfl
@[simp] theorem clearTree_stack : (clearTree s).stack = s.stack := rfl
@[simp] theorem clearTree_cur : (clearTree s).cur = s.cur := rfl
@[simp] theorem clearTree_curop : (clearTree s).curop = s.curop := rfl
@[simp] theorem clearTree_pos : (clearTree s).pos = s.pos := rfl
@[simp] theorem clearTree_todo : (clearTree s).todo = s.todo := rfl
@[simp] theorem clearTree_source : (clearTree s).source = s.source := rfl
@[simp] theorem clearTree_inPos : (clearTree s).inPos = s.inPos := rfl
@[simp] theorem clearTree_out : (clearTree s).out = s.out := rfl
@[simp] theorem clearTree_script : (clearTree s).script = s.script := rfl
@[simp] theorem clearTree_rdata : (clearTree s).rdata = s.rdata := rfl
@[simp] theorem clearTree_checkFailed : (clearTree s).checkFailed = s.checkFailed := rfl
@[simp] theorem clearTree_draws : (clearTree s).draws = s.draws := rfl

end

section
variable (i : Nat) (v : Word) (s : State)

@[simp] theorem writeCnt_busy : (writeCnt i v s).busy = s.busy := by unfold writeCnt; split <;> rfl
@[simp] theorem writeCnt_done : (writeCnt i v s).done = s.done := by unfold writeCnt; split <;> rfl
@[simp] theorem writeCnt_err : (writeCnt i v s).err = s.err := by unfold writeCnt; split <;> rfl
@[simp] theorem writeCnt_treeValid : (writeCnt i v s).treeValid = s.treeValid := by unfold writeCnt; split <;> rfl
@[simp] theorem writeCnt_codesValid : (writeCnt i v s).codesValid = s.codesValid := by unfold writeCnt; split <;> rfl
@[simp] theorem writeCnt_cmdDropped : (writeCnt i v s).cmdDropped = s.cmdDropped := by unfold writeCnt; split <;> rfl
@[simp] theorem writeCnt_lastOp : (writeCnt i v s).lastOp = s.lastOp := by unfold writeCnt; split <;> rfl
@[simp] theorem writeCnt_errCode : (writeCnt i v s).errCode = s.errCode := by unfold writeCnt; split <;> rfl
@[simp] theorem writeCnt_errOp : (writeCnt i v s).errOp = s.errOp := by unfold writeCnt; split <;> rfl
@[simp] theorem writeCnt_selSym : (writeCnt i v s).selSym = s.selSym := by unfold writeCnt; split <;> rfl
@[simp] theorem writeCnt_selWidx : (writeCnt i v s).selWidx = s.selWidx := by unfold writeCnt; split <;> rfl
@[simp] theorem writeCnt_node : (writeCnt i v s).node = s.node := by unfold writeCnt; split <;> rfl
@[simp] theorem writeCnt_nNodes : (writeCnt i v s).nNodes = s.nNodes := by unfold writeCnt; split <;> rfl
@[simp] theorem writeCnt_nLeaf : (writeCnt i v s).nLeaf = s.nLeaf := by unfold writeCnt; split <;> rfl
@[simp] theorem writeCnt_nInt : (writeCnt i v s).nInt = s.nInt := by unfold writeCnt; split <;> rfl
@[simp] theorem writeCnt_root : (writeCnt i v s).root = s.root := by unfold writeCnt; split <;> rfl
@[simp] theorem writeCnt_code : (writeCnt i v s).code = s.code := by unfold writeCnt; split <;> rfl
@[simp] theorem writeCnt_pq : (writeCnt i v s).pq = s.pq := by unfold writeCnt; split <;> rfl
@[simp] theorem writeCnt_stack : (writeCnt i v s).stack = s.stack := by unfold writeCnt; split <;> rfl
@[simp] theorem writeCnt_cur : (writeCnt i v s).cur = s.cur := by unfold writeCnt; split <;> rfl
@[simp] theorem writeCnt_curop : (writeCnt i v s).curop = s.curop := by unfold writeCnt; split <;> rfl
@[simp] theorem writeCnt_pos : (writeCnt i v s).pos = s.pos := by unfold writeCnt; split <;> rfl
@[simp] theorem writeCnt_todo : (writeCnt i v s).todo = s.todo := by unfold writeCnt; split <;> rfl
@[simp] theorem writeCnt_source : (writeCnt i v s).source = s.source := by unfold writeCnt; split <;> rfl
@[simp] theorem writeCnt_inPos : (writeCnt i v s).inPos = s.inPos := by unfold writeCnt; split <;> rfl
@[simp] theorem writeCnt_out : (writeCnt i v s).out = s.out := by unfold writeCnt; split <;> rfl
@[simp] theorem writeCnt_script : (writeCnt i v s).script = s.script := by unfold writeCnt; split <;> rfl
@[simp] theorem writeCnt_rdata : (writeCnt i v s).rdata = s.rdata := by unfold writeCnt; split <;> rfl
@[simp] theorem writeCnt_checkFailed : (writeCnt i v s).checkFailed = s.checkFailed := by unfold writeCnt; split <;> rfl
@[simp] theorem writeCnt_draws : (writeCnt i v s).draws = s.draws := by unfold writeCnt; split <;> rfl

end

section
variable (i : Nat) (e : CodeEntry) (s : State)

@[simp] theorem writeCode_busy : (writeCode i e s).busy = s.busy := by unfold writeCode; split <;> rfl
@[simp] theorem writeCode_done : (writeCode i e s).done = s.done := by unfold writeCode; split <;> rfl
@[simp] theorem writeCode_err : (writeCode i e s).err = s.err := by unfold writeCode; split <;> rfl
@[simp] theorem writeCode_treeValid : (writeCode i e s).treeValid = s.treeValid := by unfold writeCode; split <;> rfl
@[simp] theorem writeCode_codesValid : (writeCode i e s).codesValid = s.codesValid := by unfold writeCode; split <;> rfl
@[simp] theorem writeCode_cmdDropped : (writeCode i e s).cmdDropped = s.cmdDropped := by unfold writeCode; split <;> rfl
@[simp] theorem writeCode_lastOp : (writeCode i e s).lastOp = s.lastOp := by unfold writeCode; split <;> rfl
@[simp] theorem writeCode_errCode : (writeCode i e s).errCode = s.errCode := by unfold writeCode; split <;> rfl
@[simp] theorem writeCode_errOp : (writeCode i e s).errOp = s.errOp := by unfold writeCode; split <;> rfl
@[simp] theorem writeCode_selSym : (writeCode i e s).selSym = s.selSym := by unfold writeCode; split <;> rfl
@[simp] theorem writeCode_selWidx : (writeCode i e s).selWidx = s.selWidx := by unfold writeCode; split <;> rfl
@[simp] theorem writeCode_cnt : (writeCode i e s).cnt = s.cnt := by unfold writeCode; split <;> rfl
@[simp] theorem writeCode_node : (writeCode i e s).node = s.node := by unfold writeCode; split <;> rfl
@[simp] theorem writeCode_nNodes : (writeCode i e s).nNodes = s.nNodes := by unfold writeCode; split <;> rfl
@[simp] theorem writeCode_nLeaf : (writeCode i e s).nLeaf = s.nLeaf := by unfold writeCode; split <;> rfl
@[simp] theorem writeCode_nInt : (writeCode i e s).nInt = s.nInt := by unfold writeCode; split <;> rfl
@[simp] theorem writeCode_root : (writeCode i e s).root = s.root := by unfold writeCode; split <;> rfl
@[simp] theorem writeCode_pq : (writeCode i e s).pq = s.pq := by unfold writeCode; split <;> rfl
@[simp] theorem writeCode_stack : (writeCode i e s).stack = s.stack := by unfold writeCode; split <;> rfl
@[simp] theorem writeCode_cur : (writeCode i e s).cur = s.cur := by unfold writeCode; split <;> rfl
@[simp] theorem writeCode_curop : (writeCode i e s).curop = s.curop := by unfold writeCode; split <;> rfl
@[simp] theorem writeCode_pos : (writeCode i e s).pos = s.pos := by unfold writeCode; split <;> rfl
@[simp] theorem writeCode_todo : (writeCode i e s).todo = s.todo := by unfold writeCode; split <;> rfl
@[simp] theorem writeCode_source : (writeCode i e s).source = s.source := by unfold writeCode; split <;> rfl
@[simp] theorem writeCode_inPos : (writeCode i e s).inPos = s.inPos := by unfold writeCode; split <;> rfl
@[simp] theorem writeCode_out : (writeCode i e s).out = s.out := by unfold writeCode; split <;> rfl
@[simp] theorem writeCode_script : (writeCode i e s).script = s.script := by unfold writeCode; split <;> rfl
@[simp] theorem writeCode_rdata : (writeCode i e s).rdata = s.rdata := by unfold writeCode; split <;> rfl
@[simp] theorem writeCode_checkFailed : (writeCode i e s).checkFailed = s.checkFailed := by unfold writeCode; split <;> rfl
@[simp] theorem writeCode_draws : (writeCode i e s).draws = s.draws := by unfold writeCode; split <;> rfl

end

section
variable (s : State)

@[simp] theorem resetBlock_busy : (resetBlock s).busy = State.reset.busy := rfl
@[simp] theorem resetBlock_done : (resetBlock s).done = State.reset.done := rfl
@[simp] theorem resetBlock_err : (resetBlock s).err = State.reset.err := rfl
@[simp] theorem resetBlock_treeValid : (resetBlock s).treeValid = State.reset.treeValid := rfl
@[simp] theorem resetBlock_codesValid : (resetBlock s).codesValid = State.reset.codesValid := rfl
@[simp] theorem resetBlock_cmdDropped : (resetBlock s).cmdDropped = State.reset.cmdDropped := rfl
@[simp] theorem resetBlock_lastOp : (resetBlock s).lastOp = State.reset.lastOp := rfl
@[simp] theorem resetBlock_errCode : (resetBlock s).errCode = State.reset.errCode := rfl
@[simp] theorem resetBlock_errOp : (resetBlock s).errOp = State.reset.errOp := rfl
@[simp] theorem resetBlock_selSym : (resetBlock s).selSym = State.reset.selSym := rfl
@[simp] theorem resetBlock_selWidx : (resetBlock s).selWidx = State.reset.selWidx := rfl
@[simp] theorem resetBlock_cnt : (resetBlock s).cnt = State.reset.cnt := rfl
@[simp] theorem resetBlock_node : (resetBlock s).node = State.reset.node := rfl
@[simp] theorem resetBlock_nNodes : (resetBlock s).nNodes = State.reset.nNodes := rfl
@[simp] theorem resetBlock_nLeaf : (resetBlock s).nLeaf = State.reset.nLeaf := rfl
@[simp] theorem resetBlock_nInt : (resetBlock s).nInt = State.reset.nInt := rfl
@[simp] theorem resetBlock_root : (resetBlock s).root = State.reset.root := rfl
@[simp] theorem resetBlock_code : (resetBlock s).code = State.reset.code := rfl
@[simp] theorem resetBlock_pq : (resetBlock s).pq = State.reset.pq := rfl
@[simp] theorem resetBlock_stack : (resetBlock s).stack = State.reset.stack := rfl
@[simp] theorem resetBlock_cur : (resetBlock s).cur = State.reset.cur := rfl
@[simp] theorem resetBlock_curop : (resetBlock s).curop = State.reset.curop := rfl
@[simp] theorem resetBlock_pos : (resetBlock s).pos = State.reset.pos := rfl
@[simp] theorem resetBlock_todo : (resetBlock s).todo = State.reset.todo := rfl
@[simp] theorem resetBlock_source : (resetBlock s).source = s.source := rfl
@[simp] theorem resetBlock_inPos : (resetBlock s).inPos = s.inPos := rfl
@[simp] theorem resetBlock_out : (resetBlock s).out = s.out := rfl
@[simp] theorem resetBlock_script : (resetBlock s).script = s.script := rfl
@[simp] theorem resetBlock_rdata : (resetBlock s).rdata = s.rdata := rfl
@[simp] theorem resetBlock_checkFailed : (resetBlock s).checkFailed = s.checkFailed := rfl
@[simp] theorem resetBlock_draws : (resetBlock s).draws = s.draws := rfl

end

section
variable (i l : Instr) (s : State)

@[simp] theorem finished_busy : (s.finished i l).busy = false := rfl
@[simp] theorem finished_done : (s.finished i l).done = true := rfl
@[simp] theorem finished_err : (s.finished i l).err = s.err := rfl
@[simp] theorem finished_treeValid : (s.finished i l).treeValid = s.treeValid := rfl
@[simp] theorem finished_codesValid : (s.finished i l).codesValid = s.codesValid := rfl
@[simp] theorem finished_cmdDropped : (s.finished i l).cmdDropped = s.cmdDropped := rfl
@[simp] theorem finished_lastOp : (s.finished i l).lastOp = opcode i := rfl
@[simp] theorem finished_errCode : (s.finished i l).errCode = s.errCode := rfl
@[simp] theorem finished_errOp : (s.finished i l).errOp = s.errOp := rfl
@[simp] theorem finished_selSym : (s.finished i l).selSym = s.selSym := rfl
@[simp] theorem finished_selWidx : (s.finished i l).selWidx = s.selWidx := rfl
@[simp] theorem finished_cnt : (s.finished i l).cnt = s.cnt := rfl
@[simp] theorem finished_node : (s.finished i l).node = s.node := rfl
@[simp] theorem finished_nNodes : (s.finished i l).nNodes = s.nNodes := rfl
@[simp] theorem finished_nLeaf : (s.finished i l).nLeaf = s.nLeaf := rfl
@[simp] theorem finished_nInt : (s.finished i l).nInt = s.nInt := rfl
@[simp] theorem finished_root : (s.finished i l).root = s.root := rfl
@[simp] theorem finished_code : (s.finished i l).code = s.code := rfl
@[simp] theorem finished_pq : (s.finished i l).pq = s.pq := rfl
@[simp] theorem finished_stack : (s.finished i l).stack = [] := rfl
@[simp] theorem finished_cur : (s.finished i l).cur = s.cur := rfl
@[simp] theorem finished_curop : (s.finished i l).curop = opcode l := rfl
@[simp] theorem finished_pos : (s.finished i l).pos = .idle := rfl
@[simp] theorem finished_todo : (s.finished i l).todo = [] := rfl
@[simp] theorem finished_source : (s.finished i l).source = s.source := rfl
@[simp] theorem finished_inPos : (s.finished i l).inPos = s.inPos := rfl
@[simp] theorem finished_out : (s.finished i l).out = s.out := rfl
@[simp] theorem finished_script : (s.finished i l).script = s.script := rfl
@[simp] theorem finished_rdata : (s.finished i l).rdata = s.rdata := rfl
@[simp] theorem finished_checkFailed : (s.finished i l).checkFailed = s.checkFailed := rfl
@[simp] theorem finished_draws : (s.finished i l).draws = s.draws := rfl

end

section
variable (i l : Instr) (e : ErrCode) (s : State)

@[simp] theorem failed_busy : (s.failed i l e).busy = false := rfl
@[simp] theorem failed_done : (s.failed i l e).done = false := rfl
@[simp] theorem failed_err : (s.failed i l e).err = true := rfl
@[simp] theorem failed_treeValid : (s.failed i l e).treeValid = s.treeValid := rfl
@[simp] theorem failed_codesValid : (s.failed i l e).codesValid = s.codesValid := rfl
@[simp] theorem failed_cmdDropped : (s.failed i l e).cmdDropped = s.cmdDropped := rfl
@[simp] theorem failed_lastOp : (s.failed i l e).lastOp = opcode i := rfl
@[simp] theorem failed_errCode : (s.failed i l e).errCode = errCodeOf e := rfl
@[simp] theorem failed_errOp : (s.failed i l e).errOp = opcode l := rfl
@[simp] theorem failed_selSym : (s.failed i l e).selSym = s.selSym := rfl
@[simp] theorem failed_selWidx : (s.failed i l e).selWidx = s.selWidx := rfl
@[simp] theorem failed_cnt : (s.failed i l e).cnt = s.cnt := rfl
@[simp] theorem failed_node : (s.failed i l e).node = s.node := rfl
@[simp] theorem failed_nNodes : (s.failed i l e).nNodes = s.nNodes := rfl
@[simp] theorem failed_nLeaf : (s.failed i l e).nLeaf = s.nLeaf := rfl
@[simp] theorem failed_nInt : (s.failed i l e).nInt = s.nInt := rfl
@[simp] theorem failed_root : (s.failed i l e).root = s.root := rfl
@[simp] theorem failed_code : (s.failed i l e).code = s.code := rfl
@[simp] theorem failed_pq : (s.failed i l e).pq = s.pq := rfl
@[simp] theorem failed_stack : (s.failed i l e).stack = [] := rfl
@[simp] theorem failed_cur : (s.failed i l e).cur = s.cur := rfl
@[simp] theorem failed_curop : (s.failed i l e).curop = opcode l := rfl
@[simp] theorem failed_pos : (s.failed i l e).pos = .idle := rfl
@[simp] theorem failed_todo : (s.failed i l e).todo = [] := rfl
@[simp] theorem failed_source : (s.failed i l e).source = s.source := rfl
@[simp] theorem failed_inPos : (s.failed i l e).inPos = s.inPos := rfl
@[simp] theorem failed_out : (s.failed i l e).out = s.out := rfl
@[simp] theorem failed_script : (s.failed i l e).script = s.script := rfl
@[simp] theorem failed_rdata : (s.failed i l e).rdata = s.rdata := rfl
@[simp] theorem failed_checkFailed : (s.failed i l e).checkFailed = s.checkFailed := rfl
@[simp] theorem failed_draws : (s.failed i l e).draws = s.draws := rfl

end

theorem writeCnt_of_lt {i : Nat} (h : i < 256) (v : Word) (s : State) :
    writeCnt i v s = { s with cnt := s.cnt.set i v } := by
  simp [writeCnt, h]

theorem writeCode_of_lt {i : Nat} (h : i < 257) (e : CodeEntry) (s : State) :
    writeCode i e s = { s with code := s.code.set i e } := by
  simp [writeCode, h]

theorem readCnt_of_lt {i : Nat} (h : i < 256) (s : State) : readCnt i s = s.cnt[i] := by
  simp [readCnt, List.getD_eq_getElem?_getD, h]

theorem readCode_of_lt {i : Nat} (h : i < 257) (s : State) : readCode i s = s.code[i] := by
  simp [readCode, List.getD_eq_getElem?_getD, h]

/-- Every node index names a slot (R30). -/
theorem readNode_eq (i : NodeIx) (s : State) : readNode i s = s.node[i] := by
  simp [readNode, List.getD_eq_getElem?_getD]

end Sys2Proof.Machine
end

