-- ==== Sys2Proof/Laws/Channel.lean ====
section
/-! SUPPORT. What a channel read answers on a finite input (spec 20_memory.md R66 and R67). -/

namespace Sys2Proof.Machine

variable {s : State} {bs : Bits}

theorem rest_of_bits (h : s.source = .bits bs) : s.rest = bs.drop s.inPos := by simp [State.rest, h]

theorem length_rest (h : s.source = .bits bs) : s.rest.length = bs.length - s.inPos := by simp [rest_of_bits h]

theorem length_rest_le (h : FiniteInput s) : s.rest.length ≤ s.source.length := by
  obtain ⟨bs, h⟩ := h
  simp [length_rest h, Source.length, h]

/-- Enough bits are left: the next `n` bits are the value, and the position moves by `n` (R66). -/
theorem chanRead_val (h : FiniteInput s) {n : Nat} (hn : n ≤ s.rest.length) :
    chanRead n s = (some (BitVec.ofNat n (natOfBits (s.rest.take n))), { s with inPos := s.inPos + n }) := by
  obtain ⟨bs, h⟩ := h
  rw [rest_of_bits h] at hn ⊢
  simp only [chanRead, sourceRead, h, Source.draws, if_pos hn, Nat.add_zero]

/-- Too few bits are left: `End`, and the position does not move (R67). -/
theorem chanRead_end (h : FiniteInput s) {n : Nat} (hn : s.rest.length < n) : chanRead n s = (none, s) := by
  obtain ⟨bs, h⟩ := h
  rw [rest_of_bits h] at hn
  simp only [chanRead, sourceRead, h, Source.draws, if_neg (Nat.not_le.mpr hn), Nat.add_zero]
  rw [← h]

/-- A 1-bit read takes the next bit. -/
theorem chanRead_one (h : FiniteInput s) {b : Bool} {r : Bits} (hr : s.rest = b :: r) :
    chanRead 1 s = (some (BitVec.ofBool b), { s with inPos := s.inPos + 1 }) := by
  rw [chanRead_val h (by simp [hr]), hr]
  cases b <;> rfl

/-- What is left after the position has moved by `n`. -/
theorem rest_advance (n : Nat) : State.rest { s with inPos := s.inPos + n } = s.rest.drop n := by
  cases h : s.source <;> simp [State.rest, h, Nat.add_comm]

/-- `rest` depends on the source and the position only. -/
theorem rest_congr {t : State} (h₁ : t.source = s.source) (h₂ : t.inPos = s.inPos) : t.rest = s.rest := by
  simp [State.rest, h₁, h₂]

theorem FiniteInput.congr {t : State} (h : FiniteInput s) (h₁ : t.source = s.source) : FiniteInput t := by
  obtain ⟨bs, h⟩ := h
  exact ⟨bs, by rw [h₁, h]⟩

end Sys2Proof.Machine
end

