-- ==== Sys2Proof/Laws/Run.lean ====
section
/-! SUPPORT. How runs of the core compose (spec 20_memory.md R76 item 1): later proofs cite these and do not unfold
`runCore`. -/

namespace Sys2Proof.Machine

@[simp] theorem runCore_zero (s : State) : runCore 0 s = s := rfl

theorem runCore_idle {s : State} (h : s.busy = false) (n : Nat) : runCore n s = s := by
  cases n with
  | zero => rfl
  | succ n => simp [runCore, h]

theorem runCore_succ {s : State} (h : s.busy = true) (n : Nat) :
    runCore (n + 1) s = runCore n (stepAt s.pos s) := by
  simp [runCore, coreStep, h]

/-- One step from a known position. -/
theorem runCore_step {s : State} {p : Pos} (hb : s.busy = true) (hp : s.pos = p) (n : Nat) :
    runCore (n + 1) s = runCore n (stepAt p s) := by
  rw [runCore_succ hb, hp]

theorem runCore_add (a b : Nat) (s : State) : runCore (a + b) s = runCore b (runCore a s) := by
  induction a generalizing s with
  | zero => simp
  | succ a ih =>
    rw [Nat.add_right_comm]
    cases h : s.busy with
    | false => rw [runCore_idle h, runCore_idle h, runCore_idle h]
    | true => rw [runCore_succ h, runCore_succ h, ih]

/-- A run that has ended stays where it is, however many more steps the core has. -/
theorem runCore_of_ended {k n : Nat} {s t : State} (h : runCore k s = t) (ht : t.busy = false) (hk : k ≤ n) :
    runCore n s = t := by
  obtain ⟨d, rfl⟩ := Nat.exists_eq_add_of_le hk
  rw [runCore_add, h, runCore_idle ht]

/-- `s` leads to `t` in at most `n` core steps. -/
def Leads (n : Nat) (s t : State) : Prop := ∃ k ≤ n, runCore k s = t

theorem Leads.refl (s : State) : Leads 0 s s := ⟨0, le_refl _, rfl⟩

theorem Leads.trans {a b : Nat} {s t u : State} (h₁ : Leads a s t) (h₂ : Leads b t u) : Leads (a + b) s u := by
  obtain ⟨k, hk, rfl⟩ := h₁
  obtain ⟨l, hl, rfl⟩ := h₂
  exact ⟨k + l, by omega, runCore_add k l s⟩

theorem Leads.mono {a b : Nat} {s t : State} (h : Leads a s t) (hab : a ≤ b) : Leads b s t := by
  obtain ⟨k, hk, h⟩ := h
  exact ⟨k, by omega, h⟩

/-- One core step from a known position. -/
theorem Leads.step {s : State} {p : Pos} (hb : s.busy = true) (hp : s.pos = p) : Leads 1 s (stepAt p s) :=
  ⟨1, le_refl _, by rw [runCore_step hb hp]; rfl⟩

/-- One core step and then more. -/
theorem Leads.head {n : Nat} {s t : State} {p : Pos} (hb : s.busy = true) (hp : s.pos = p)
    (h : Leads n (stepAt p s) t) : Leads (n + 1) s t := by
  rw [Nat.add_comm]
  exact (Leads.step hb hp).trans h

/-- A run that reaches an idle state within `n` steps is that state after `n` steps. -/
theorem Leads.runCore {n m : Nat} {s t : State} (h : Leads n s t) (ht : t.busy = false) (hm : n ≤ m) :
    runCore m s = t := by
  obtain ⟨k, hk, h⟩ := h
  exact runCore_of_ended h ht (by omega)

/-- The call of a word on an idle block, from where the core's run of it leads. -/
theorem runWord_of_leads {w : Word} {n : Nat} {s t : State} (hs : s.busy = false) (h : Leads n (submit w s) t)
    (ht : t.busy = false) (hn : n ≤ workBound s) : runWord w s = t := by
  rw [runWord, hs]
  exact h.runCore ht hn

end Sys2Proof.Machine
end

