-- ==== Sys2Proof/Laws/Sequencer.lean ====
section
/-! SUPPORT. What the handling of a command word does (spec 60_exceptions.md R222 to R225), said once: later proofs cite
these and do not unfold `submit`. -/

namespace Sys2Proof.Machine

@[simp] theorem opField_encode (i : Instr) : opField (encode i) = opcode i := by cases i <;> rfl

@[simp] theorem decode_encode (i : Instr) : decode (encode i) = .ok i := by cases i <;> rfl

theorem encode_eq_zero {i : Instr} : encode i = 0#32 ↔ i = .nop := by cases i <;> decide

theorem encode_eq_one {i : Instr} : encode i = 1#32 ↔ i = .clear := by cases i <;> decide

/-- The state in which the body of command `i` begins (R222). -/
def State.started (i : Instr) (s : State) : State :=
  { s with done := false, lastOp := opcode i, busy := true, curop := opcode i, pos := entryOf i, todo := subsOf i,
           stack := [] }

@[simp] theorem prerequisite_acceptWord (i : Instr) (w : Word) (s : State) :
    prerequisite i (acceptWord w s) = prerequisite i s := by cases i <;> rfl

theorem exec_eq_runWord (i : Instr) (s : State) : exec i s = .next (runWord (encode i) s) := by cases i <;> rfl

theorem submit_busy {s : State} (h : s.busy = true) (w : Word) : submit w s = dropWord s := by simp [submit, h]

theorem submit_error {s : State} (hb : s.busy = false) (he : s.err = true) {w : Word} (h₀ : w ≠ 0#32) (h₁ : w ≠ 1#32) :
    submit w s = dropWord s := by simp [submit, hb, he, h₀, h₁]

theorem submit_zero {s : State} (hb : s.busy = false) : submit 0#32 s = s := by simp [submit, hb]

/-- A word that is neither dropped nor NOP is accepted (R222). -/
theorem submit_accepted {s : State} (hb : s.busy = false) {w : Word} (h₀ : w ≠ 0#32) (h : s.err = false ∨ w = 1#32) :
    submit w s = startWord w s := by
  rcases h with h | h <;> simp [submit, hb, h, h₀]

/-- A command whose prerequisite holds is accepted and its body begins. -/
theorem submit_started {s : State} {i : Instr} (hb : s.busy = false) (hi : i ≠ .nop) (h : s.err = false ∨ i = .clear)
    (hp : prerequisite i s = true) : submit (encode i) s = s.started i := by
  rw [submit_accepted hb (by simpa [encode_eq_zero] using hi) (h.imp_right encode_eq_one.mpr)]
  simp only [startWord, decode_encode, hp, if_true]
  simp [startBody, beginBody, acceptWord, State.started]

/-- A command whose prerequisite is false raises SEQUENCE (R205, R222). -/
theorem submit_sequence {s : State} {i : Instr} (hs : Ready s) (hi : i ≠ .nop) (hp : prerequisite i s = false) :
    submit (encode i) s = s.failed i i .sequence := by
  rw [submit_accepted hs.1 (by simpa [encode_eq_zero] using hi) (.inl hs.2)]
  simp [startWord, hp, raiseErr, acceptWord, State.failed]

/-- The end of a body that is the last of its command (R223). -/
theorem Leads.complete {n : Nat} {s u : State} (h : Leads n s u) (hb : u.busy = true) (hp : u.pos = .ret)
    (ht : u.todo = []) : Leads (n + 1) s (complete u) := by
  have h1 := Leads.step hb hp
  rw [show stepAt .ret u = retStep u from rfl, retStep, ht] at h1
  exact h.trans h1

/-- The end of a body after which a sub-command starts (R203, R204). -/
theorem Leads.nextSub {n : Nat} {s u : State} (h : Leads n s u) (hb : u.busy = true) (hp : u.pos = .ret)
    {i : Instr} {rest : List Instr} (ht : u.todo = i :: rest) :
    Leads (n + 1) s { u with pos := entryOf i, todo := rest, stack := [], curop := opcode i } := by
  have h1 := Leads.step hb hp
  rw [show stepAt .ret u = retStep u from rfl, retStep, ht] at h1
  exact h.trans h1

/-- The meaning of a command that is started on a ready block, from where its body leads. -/
theorem exec_of_leads {i : Instr} {n : Nat} {s t : State} (hb : s.busy = false) (hi : i ≠ .nop)
    (he : s.err = false ∨ i = .clear) (hp : prerequisite i s = true) (h : Leads n (s.started i) t)
    (ht : t.busy = false) (hn : n ≤ workBound s) : exec i s = .next t := by
  rw [exec_eq_runWord, runWord_of_leads hb _ ht hn]
  rwa [submit_started hb hi he hp]

end Sys2Proof.Machine
end

