-- ==== Sys2Proof/Laws/Counter.lean ====
section
/-! SUPPORT. The loops of COUNT (spec 40_frequency_counter.md R110 and R111) and of CLEAR (46_control.md R201). -/

namespace Sys2Proof.Machine

/-- `v` with `x` from entry `i` on. -/
def fillFrom {α : Type} {n : Nat} (i : Nat) (x : α) (v : Vector α n) : Vector α n :=
  Vector.ofFn fun j : Fin n => if i ≤ j.val then x else v[j]

theorem fillFrom_zero {α : Type} {n : Nat} (x : α) (v : Vector α n) : fillFrom 0 x v = Vector.replicate n x := by
  ext j; simp [fillFrom]

theorem fillFrom_end {α : Type} {n : Nat} (x : α) (v : Vector α n) : fillFrom n x v = v := by
  ext j; simp [fillFrom]; omega

theorem fillFrom_set {α : Type} {n i : Nat} (h : i < n) (x : α) (v : Vector α n) :
    fillFrom (i + 1) x (v.set i x) = fillFrom i x v := by
  ext j hj
  simp only [fillFrom, Vector.getElem_ofFn, Fin.getElem_fin, Vector.getElem_set]
  rcases Nat.lt_trichotomy i j with hij | hij | hij
  · rw [if_pos (by omega), if_pos (by omega)]
  · rw [if_neg (by omega), if_pos (by omega), if_pos (by omega)]
  · rw [if_neg (by omega), if_neg (by omega), if_neg (by omega)]

theorem fillFrom_last {α : Type} {n i : Nat} (h : i < n) (hi : i + 1 = n) (x : α) (v : Vector α n) :
    v.set i x = fillFrom i x v := by
  rw [← fillFrom_set h]
  subst hi
  rw [fillFrom_end]

/-- The zeroing loop of COUNT. -/
theorem countZero_leads (k : Nat) : ∀ (i : Nat) (s : State), i + (k + 1) = 256 → s.busy = true → s.pos = .countZero i →
    Leads (k + 1) s { s with cnt := fillFrom i 0#32 s.cnt, pos := .countRead } := by
  induction k with
  | zero =>
    intro i s hi hb hp
    have h := Leads.step hb hp
    have hlt : i < 256 := by omega
    rwa [show stepAt (.countZero i) s = countZeroStep i s from rfl, countZeroStep, if_neg (by omega),
      writeCnt_of_lt hlt, goto, fillFrom_last hlt hi] at h
  | succ k ih =>
    intro i s hi hb hp
    have hlt : i < 256 := by omega
    refine Leads.head hb hp ?_
    rw [show stepAt (.countZero i) s = countZeroStep i s from rfl, countZeroStep, if_pos (by omega), writeCnt_of_lt hlt,
      goto]
    have h := ih (i + 1) { s with cnt := s.cnt.set i 0#32, pos := .countZero (i + 1) } (by omega) hb rfl
    simpa only [fillFrom_set] using h

/-- The counts after the bytes (R110, R111). -/
def countBytes (cnt : Vector Word 256) (bytes : List Byte) : Vector Word 256 :=
  bytes.foldl (fun cnt b => cnt.set b.toNat (satInc cnt[b.toNat])) cnt

theorem toNat_satInc (v : Word) : (satInc v).toNat = min (v.toNat + 1) (2 ^ 32 - 1) := by
  unfold satInc
  have := v.isLt
  split
  · subst v; decide
  · rename_i h
    have h : v.toNat ≠ (BitVec.allOnes 32).toNat := fun h' => h (BitVec.eq_of_toNat_eq h')
    rw [BitVec.toNat_allOnes] at h
    rw [BitVec.toNat_add, Nat.mod_eq_of_lt (by simp; omega)]
    simp; omega

/-- A count is the number of occurrences, saturated at 2^32 - 1 (R29, R111). -/
theorem toNat_countBytes (bytes : List Byte) (cnt : Vector Word 256) (v : Byte) :
    (countBytes cnt bytes)[v.toNat].toNat = min (cnt[v.toNat].toNat + bytes.count v) (2 ^ 32 - 1) := by
  induction bytes generalizing cnt with
  | nil => have := cnt[v.toNat].isLt; simp [countBytes]; omega
  | cons b bytes ih =>
    rw [show countBytes cnt (b :: bytes) = countBytes (cnt.set b.toNat (satInc cnt[b.toNat])) bytes from rfl, ih,
      Vector.getElem_set]
    by_cases h : b = v
    · subst h; rw [if_pos rfl, toNat_satInc, List.count_cons_self]; omega
    · have : b.toNat ≠ v.toNat := fun h' => h (BitVec.eq_of_toNat_eq h')
      rw [if_neg this, List.count_cons_of_ne h]

/-- The counting loop of COUNT on a finite input. -/
theorem countRead_leads (n : Nat) : ∀ s : State, s.rest.length / 8 = n → FiniteInput s → s.busy = true →
    s.pos = .countRead → Leads (2 * n + 1) s
      { s with cnt := countBytes s.cnt (bytesOf s.rest), inPos := s.inPos + 8 * n, pos := .ret } := by
  induction n with
  | zero =>
    intro s hn hf hb hp
    have h := Leads.step hb hp
    have h8 : s.rest.length < 8 := by omega
    rw [show stepAt .countRead s = countReadStep s from rfl, countReadStep, chanRead_end hf h8] at h
    rw [bytesOf_of_lt h8]
    exact h
  | succ n ih =>
    intro s hn hf hb hp
    have h8 : 8 ≤ s.rest.length := by omega
    let v : Byte := BitVec.ofNat 8 (natOfBits (s.rest.take 8))
    have h1 : Leads 1 s { s with inPos := s.inPos + 8, pos := .countBump v } := by
      have h := Leads.step hb hp
      rwa [show stepAt .countRead s = countReadStep s from rfl, countReadStep, chanRead_val hf h8] at h
    let u : State :=
      { s with cnt := s.cnt.set v.toNat (satInc s.cnt[v.toNat]), inPos := s.inPos + 8, pos := .countRead }
    have h2 : Leads 1 { s with inPos := s.inPos + 8, pos := .countBump v } u := by
      have h := Leads.step (s := { s with inPos := s.inPos + 8, pos := .countBump v }) hb rfl
      rwa [show ∀ s, stepAt (.countBump v) s = countBumpStep v s from fun _ => rfl, countBumpStep,
        writeCnt_of_lt (show v.toNat < 256 from v.isLt), readCnt_of_lt (show v.toNat < 256 from v.isLt)] at h
    have hr : u.rest = s.rest.drop 8 := rest_advance 8
    have h3 := ih u (by rw [hr, List.length_drop]; omega) (hf.congr rfl) hb rfl
    have h := ((h1.trans h2).trans h3).mono (show _ ≤ 2 * (n + 1) + 1 by omega)
    rw [hr] at h
    rw [bytesOf_of_le h8, show 8 * (n + 1) = 8 + 8 * n by omega, ← Nat.add_assoc]
    exact h

/-- COUNT's body (R110). -/
theorem count_leads {s : State} (hf : FiniteInput s) (hb : s.busy = true) (hp : s.pos = countEntry) :
    Leads (2 * (s.rest.length / 8) + 257) s
      { s with cnt := countBytes (Vector.replicate 256 0#32) (bytesOf s.rest),
               inPos := s.inPos + 8 * (s.rest.length / 8), pos := .ret } := by
  have h1 := countZero_leads 255 0 s (by omega) hb hp
  rw [fillFrom_zero] at h1
  have h2 := countRead_leads (s.rest.length / 8) { s with cnt := Vector.replicate 256 0#32, pos := .countRead } rfl
    (hf.congr rfl) hb rfl
  exact (h1.trans h2).mono (by omega)

/-- The `cnt` loop of CLEAR. -/
theorem clearCnt_leads (k : Nat) : ∀ (i : Nat) (s : State), i + (k + 1) = 256 → s.busy = true → s.pos = .clearCnt i →
    Leads (k + 1) s { s with cnt := fillFrom i 0#32 s.cnt, pos := .clearCode 0 } := by
  induction k with
  | zero =>
    intro i s hi hb hp
    have h := Leads.step hb hp
    have hlt : i < 256 := by omega
    rwa [show stepAt (.clearCnt i) s = clearCntStep i s from rfl, clearCntStep, if_neg (by omega),
      writeCnt_of_lt hlt, goto, fillFrom_last hlt hi] at h
  | succ k ih =>
    intro i s hi hb hp
    have hlt : i < 256 := by omega
    refine Leads.head hb hp ?_
    rw [show stepAt (.clearCnt i) s = clearCntStep i s from rfl, clearCntStep, if_pos (by omega), writeCnt_of_lt hlt,
      goto]
    have h := ih (i + 1) { s with cnt := s.cnt.set i 0#32, pos := .clearCnt (i + 1) } (by omega) hb rfl
    simpa only [fillFrom_set] using h

/-- The `code` loop of CLEAR. -/
theorem clearCode_leads (k : Nat) : ∀ (i : Nat) (s : State), i + (k + 1) = 257 → s.busy = true → s.pos = .clearCode i →
    Leads (k + 1) s { s with code := fillFrom i noCode s.code, pos := .clearRegs } := by
  induction k with
  | zero =>
    intro i s hi hb hp
    have h := Leads.step hb hp
    have hlt : i < 257 := by omega
    rwa [show stepAt (.clearCode i) s = clearCodeStep i s from rfl, clearCodeStep, if_neg (by omega),
      writeCode_of_lt hlt, goto, fillFrom_last hlt hi] at h
  | succ k ih =>
    intro i s hi hb hp
    have hlt : i < 257 := by omega
    refine Leads.head hb hp ?_
    rw [show stepAt (.clearCode i) s = clearCodeStep i s from rfl, clearCodeStep, if_pos (by omega), writeCode_of_lt hlt,
      goto]
    have h := ih (i + 1) { s with code := s.code.set i noCode, pos := .clearCode (i + 1) } (by omega) hb rfl
    simpa only [fillFrom_set] using h

/-- CLEAR's body (R201). -/
theorem clear_leads {s : State} (hb : s.busy = true) (hp : s.pos = clearEntry) :
    Leads 514 s { clearState s with cnt := Vector.replicate 256 0#32, code := Vector.replicate 257 noCode, pos := .ret } := by
  have h1 := clearCnt_leads 255 0 s (by omega) hb hp
  rw [fillFrom_zero] at h1
  have h2 := clearCode_leads 256 0 { s with cnt := Vector.replicate 256 0#32, pos := .clearCode 0 } (by omega) hb rfl
  rw [fillFrom_zero] at h2
  have h3 := Leads.step (p := .clearRegs) (s := { s with
    cnt := Vector.replicate 256 0#32, code := Vector.replicate 257 noCode, pos := .clearRegs }) hb rfl
  exact (h1.trans h2).trans h3

end Sys2Proof.Machine
end

