-- ==== Sys2Proof/Laws/CodeTable.lean ====
section
/-! SUPPORT. The walk of GENCODES (spec 42_code_table.md R140 to R143) and that of WRHDR (43_header_codec.md R151) over a
tree that the node store holds. -/

namespace Sys2Proof.Machine

/-- The code table after the entries of the listed leaves are written, in order (R140, R142). -/
def writePaths (code : Vector CodeEntry 257) (l : List (Sym × Bits)) : Vector CodeEntry 257 :=
  l.foldl (fun code q => code.setIfInBounds q.1.toNat (codeOf q.2)) code

/-- The paths of a tree below a node that stands at path `p`. -/
def Tree.pathsFrom (p : Bits) (t : Tree) : List (Sym × Bits) := t.paths.map fun q => (q.1, p ++ q.2)

theorem Tree.pathsFrom_nil (t : Tree) : t.pathsFrom [] = t.paths := by simp [Tree.pathsFrom]

theorem Tree.pathsFrom_leaf (p : Bits) (s : Sym) : (Tree.leaf s).pathsFrom p = [(s, p)] := by
  simp [Tree.pathsFrom, Tree.paths]

theorem Tree.pathsFrom_node (p : Bits) (l r : Tree) :
    (Tree.node l r).pathsFrom p = l.pathsFrom (p ++ [false]) ++ r.pathsFrom (p ++ [true]) := by
  simp [Tree.pathsFrom, Tree.paths, Function.comp_def]

theorem writePaths_append (code : Vector CodeEntry 257) (l₁ l₂ : List (Sym × Bits)) :
    writePaths code (l₁ ++ l₂) = writePaths (writePaths code l₁) l₂ := by simp [writePaths]

/-- An entry holds the code of the last listed leaf with its symbol (R142). -/
theorem getElem_writePaths (l : List (Sym × Bits)) (code : Vector CodeEntry 257) {x : Nat} (hx : x < 257) :
    (writePaths code l)[x] = (((l.filter fun q => q.1.toNat == x).getLast?).map fun q => codeOf q.2).getD code[x] := by
  induction l using List.reverseRecOn with
  | nil => rfl
  | append_singleton l q ih =>
    rw [writePaths_append, show writePaths (writePaths code l) [q] =
      (writePaths code l).setIfInBounds q.1.toNat (codeOf q.2) from rfl, Vector.getElem_setIfInBounds, List.filter_append]
    by_cases h : q.1.toNat = x
    · simp [h]
    · simp [h, ih]

/-- `writeCode` as the law writes it. -/
theorem writeCode_eq (i : Nat) (e : CodeEntry) (s : State) :
    writeCode i e s = { s with code := s.code.setIfInBounds i e } := by
  unfold writeCode
  split
  · rename_i h; rw [Vector.setIfInBounds]; simp [h, Vector.set, Array.setIfInBounds]
  · rename_i h; rw [Vector.setIfInBounds]; simp [h, Array.setIfInBounds]

/-- The walk of a subtree writes the entries of its leaves and takes its frame off the stack (R140). -/
theorem genWalk_visit (t : Tree) : ∀ (s : State) (n : Nat) (i : NodeIx) (p : Bits) (rest : List Frame),
    s.busy = true → s.pos = .genWalk → s.stack = .visit i p :: rest → HoldsAt s.node n i t →
    Leads (t.leaves + t.internals) s { s with code := writePaths s.code (t.pathsFrom p), stack := rest } := by
  induction t with
  | leaf sym =>
    intro s n i p rest hb hp hs ht
    have h := Leads.step hb hp
    rw [show stepAt .genWalk s = genWalkStep s from rfl, genWalkStep, hs] at h
    simp only [walkNode, readNode_eq] at h
    rw [ht.2.1, if_pos rfl, ht.2.2, writeCode_eq] at h
    rw [Tree.pathsFrom_leaf]
    exact h
  | node l r ihl ihr =>
    intro s n i p rest hb hp hs ht
    have h := Leads.step hb hp
    rw [show stepAt .genWalk s = genWalkStep s from rfl, genWalkStep, hs] at h
    simp only [walkNode, readNode_eq] at h
    rw [ht.2.1, if_neg (by simp)] at h
    have hl := ihl { s with stack := .visit s.node[i].left (p ++ [false]) :: .visit s.node[i].right (p ++ [true]) :: rest }
      n _ _ _ hb hp rfl ht.2.2.1
    have hr := ihr { s with
      code := writePaths s.code (l.pathsFrom (p ++ [false])), stack := .visit s.node[i].right (p ++ [true]) :: rest }
      n _ _ _ hb hp rfl ht.2.2.2
    rw [Tree.pathsFrom_node, writePaths_append]
    exact ((h.trans hl).trans hr).mono (by simp only [Tree.leaves, Tree.internals]; omega)

/-- The invalidating loop of GENCODES. -/
theorem genZero_leads (k : Nat) : ∀ (i : Nat) (s : State), i + (k + 1) = 257 → s.busy = true → s.pos = .genZero i →
    Leads (k + 1) s
      { s with code := fillFrom i noCode s.code, stack := [.visit s.root []], pos := .genWalk } := by
  induction k with
  | zero =>
    intro i s hi hb hp
    have h := Leads.step hb hp
    have hlt : i < 257 := by omega
    rwa [show stepAt (.genZero i) s = genZeroStep i s from rfl, genZeroStep, if_neg (by omega),
      writeCode_of_lt hlt, fillFrom_last hlt hi] at h
  | succ k ih =>
    intro i s hi hb hp
    have hlt : i < 257 := by omega
    refine Leads.head hb hp ?_
    rw [show stepAt (.genZero i) s = genZeroStep i s from rfl, genZeroStep, if_pos (by omega), writeCode_of_lt hlt,
      goto]
    have h := ih (i + 1) { s with code := s.code.set i noCode, pos := .genZero (i + 1) } (by omega) hb rfl
    simpa only [fillFrom_set] using h

/-- The code table that GENCODES makes of a tree (R140). -/
def codesOf (t : Tree) : Vector CodeEntry 257 := writePaths (Vector.replicate 257 noCode) t.paths

/-- GENCODES' body on a tree that the node store holds (R140). -/
theorem gencodes_leads {s : State} {t : Tree} {n : Nat} (hb : s.busy = true) (hp : s.pos = gencodesEntry)
    (ht : HoldsAt s.node n s.root t) :
    Leads (259 + t.leaves + t.internals) s { s with code := codesOf t, codesValid := true, stack := [], pos := .ret } := by
  have h1 : Leads 1 s { s with codesValid := false, pos := .genZero 0 } := Leads.step hb hp
  have h2 := genZero_leads 256 0 { s with codesValid := false, pos := .genZero 0 } (by omega) hb rfl
  rw [fillFrom_zero] at h2
  have h3 := genWalk_visit t { s with
    codesValid := false, code := Vector.replicate 257 noCode, stack := [.visit s.root []], pos := .genWalk } n s.root [] [] hb rfl rfl ht
  rw [Tree.pathsFrom_nil] at h3
  have h4 := Leads.step (p := .genWalk) (s := { s with
    codesValid := false, code := codesOf t, stack := [], pos := .genWalk }) hb rfl
  exact (((h1.trans h2).trans h3).trans h4).mono (by omega)

theorem Tree.leaves_eq (t : Tree) : t.leaves = t.internals + 1 := by
  induction t with
  | leaf => rfl
  | node l r ihl ihr => simp only [Tree.leaves, Tree.internals]; omega

/-- A path has one edge for each internal node above its leaf (R33). -/
theorem Tree.length_path (t : Tree) : ∀ q ∈ t.paths, q.2.length ≤ t.internals := by
  induction t with
  | leaf s => simp [Tree.paths, Tree.internals]
  | node l r ihl ihr =>
    intro q hq
    simp only [Tree.paths, List.mem_append, List.mem_map] at hq
    simp only [Tree.internals]
    rcases hq with ⟨a, ha, rfl⟩ | ⟨a, ha, rfl⟩
    · have := ihl a ha; simp; omega
    · have := ihr a ha; simp; omega

theorem Tree.symbols_eq_paths (t : Tree) : t.symbols = t.paths.map (·.1) := by
  induction t with
  | leaf s => rfl
  | node l r ihl ihr => simp [Tree.symbols, Tree.paths, ihl, ihr, Function.comp_def]

/-- What `codeTable` reads from the table that GENCODES makes: the code of the last leaf with the symbol (R142). -/
theorem codeTable_codesOf {s : State} {t : Tree} (hs : s.code = codesOf t) (ht : t.internals ≤ 256) {x : Sym}
    (hx : x.toNat ≤ 256) : codeTable s x.toNat = t.codeFor x := by
  have hx' : x.toNat < 257 := by omega
  rw [codeTable, readCode_of_lt hx', hs, codesOf, getElem_writePaths _ _ hx', Tree.codeFor]
  have hf : (fun q : Sym × Bits => q.1.toNat == x.toNat) = fun q => q.1 == x := by
    funext q
    rw [Bool.eq_iff_iff]
    simp [BitVec.toNat_inj]
  rw [hf]
  cases h : (t.paths.filter fun q => q.1 == x).getLast? with
  | none => simp [noCode]
  | some q =>
    have hq : q ∈ t.paths := List.mem_of_mem_filter (List.mem_of_getLast? h)
    have := t.length_path q hq
    simp [codeOf_valid, codeBits_codeOf (show q.2.length ≤ 256 by omega)]

/-- `ser` of a subtree appends its description and takes its frame off the stack (R151). -/
theorem hdrWalk_visit (t : Tree) : ∀ (s : State) (n : Nat) (i : NodeIx) (rest : List Frame) (p : Bits),
    s.busy = true → s.pos = .hdrWalk → s.stack = .visit i p :: rest → HoldsAt s.node n i t →
    Leads (2 * t.leaves + t.internals) s { s with out := s.out ++ t.ser, stack := rest } := by
  induction t with
  | leaf sym =>
    intro s n i rest p hb hp hs ht
    have h := Leads.step hb hp
    rw [show stepAt .hdrWalk s = hdrWalkStep s from rfl, hdrWalkStep, hs] at h
    simp only [serNode, readNode_eq] at h
    rw [ht.2.1, if_pos rfl, ht.2.2, chanWrite, bin_one_one] at h
    have h2 := Leads.step (p := .hdrSym sym) (s := { s with
      out := s.out ++ [true], stack := rest, pos := .hdrSym sym }) hb rfl
    rw [show ∀ u, stepAt (.hdrSym sym) u = hdrSymStep sym u from fun _ => rfl, hdrSymStep, chanWrite, goto] at h2
    have h3 := (h.trans h2).mono (show _ ≤ 2 * (Tree.leaf sym).leaves + (Tree.leaf sym).internals by
      simp [Tree.leaves])
    rw [show s.out ++ (Tree.leaf sym).ser = s.out ++ [true] ++ bin 9 sym by simp [Tree.ser]]
    convert h3 using 2
  | node l r ihl ihr =>
    intro s n i rest p hb hp hs ht
    have h := Leads.step hb hp
    rw [show stepAt .hdrWalk s = hdrWalkStep s from rfl, hdrWalkStep, hs] at h
    simp only [serNode, readNode_eq] at h
    rw [ht.2.1, if_neg (by simp), chanWrite, bin_one_zero] at h
    have hl := ihl { s with
      out := s.out ++ [false], stack := .visit s.node[i].left [] :: .visit s.node[i].right [] :: rest }
      n _ _ _ hb hp rfl ht.2.2.1
    have hr := ihr { s with
      out := s.out ++ [false] ++ l.ser, stack := .visit s.node[i].right [] :: rest } n _ _ _ hb hp rfl ht.2.2.2
    rw [show s.out ++ (Tree.node l r).ser = s.out ++ [false] ++ l.ser ++ r.ser by simp [Tree.ser]]
    exact ((h.trans hl).trans hr).mono (by simp only [Tree.leaves, Tree.internals]; omega)

/-- WRHDR's body on a tree that the node store holds (R150). -/
theorem wrhdr_leads {s : State} {t : Tree} {n : Nat} (hb : s.busy = true) (hp : s.pos = wrhdrEntry)
    (ht : HoldsAt s.node n s.root t) :
    Leads (2 + 2 * t.leaves + t.internals) s
      { s with out := s.out ++ bin 32 Config.magic ++ t.ser, stack := [], pos := .ret } := by
  have h1 : Leads 1 s { s with
      out := s.out ++ bin 32 Config.magic, stack := [.visit s.root []], pos := .hdrWalk } := Leads.step hb hp
  have h2 := hdrWalk_visit t { s with
    out := s.out ++ bin 32 Config.magic, stack := [.visit s.root []], pos := .hdrWalk } n s.root [] [] hb rfl rfl ht
  have h3 := Leads.step (p := .hdrWalk) (s := { s with
    out := s.out ++ bin 32 Config.magic ++ t.ser, stack := [], pos := .hdrWalk }) hb rfl
  exact ((h1.trans h2).trans h3).mono (by omega)

end Sys2Proof.Machine
end

