-- ==== Sys2Proof/Laws/Parse.lean ====
section
/-! SUPPORT. The parse of RDTREE (spec 43_header_codec.md R153 to R157): the sequencer's stack form does what the recursive
text says (00_scope.md R13). -/

namespace Sys2Proof.Machine

/-- The slots from `lo` on and below `hi` hold tree `t` in preorder, its root at slot `i`, with weight 0 in every node
(R154, R156). -/
def HoldsIn (nodes : Vector NodeEntry nodeCap) : Nat → Nat → NodeIx → Tree → Prop
  | lo, hi, i, .leaf s => i.val = lo ∧ hi = lo + 1 ∧ nodes[i].leaf = true ∧ nodes[i].sym = s ∧ nodes[i].weight = 0#40
  | lo, hi, i, .node l r => i.val = lo ∧ nodes[i].leaf = false ∧ nodes[i].weight = 0#40 ∧
      ∃ m, HoldsIn nodes (lo + 1) m nodes[i].left l ∧ HoldsIn nodes m hi nodes[i].right r

theorem HoldsIn.lt {nodes : Vector NodeEntry nodeCap} {t : Tree} :
    ∀ {lo hi : Nat} {i : NodeIx}, HoldsIn nodes lo hi i t → i.val = lo ∧ lo < hi := by
  induction t with
  | leaf s => intro lo hi i h; obtain ⟨h1, h2, -⟩ := h; omega
  | node l r ihl ihr =>
    intro lo hi i h
    obtain ⟨h1, -, -, m, h3, h4⟩ := h
    have := ihl h3
    have := ihr h4
    omega

theorem HoldsIn.holdsAt {nodes : Vector NodeEntry nodeCap} {n : Nat} {t : Tree} :
    ∀ {lo hi : Nat} {i : NodeIx}, HoldsIn nodes lo hi i t → hi ≤ n → HoldsAt nodes n i t := by
  induction t with
  | leaf s => intro lo hi i h hn; exact ⟨by have := h.lt; omega, h.2.2.1, h.2.2.2.1⟩
  | node l r ihl ihr =>
    intro lo hi i h hn
    have hlt := h.lt
    obtain ⟨h1, h2, -, m, h3, h4⟩ := h
    have := h4.lt
    exact ⟨by omega, h2, ihl h3 (by omega), ihr h4 hn⟩

/-- RDTREE's weights are all 0 (R156). -/
theorem HoldsIn.weightsAt {nodes : Vector NodeEntry nodeCap} {t : Tree} :
    ∀ {lo hi : Nat} {i : NodeIx}, HoldsIn nodes lo hi i t → WeightsAt nodes (fun _ => 0) i t ∧ t.weight (fun _ => 0) = 0 := by
  induction t with
  | leaf s => intro lo hi i h; exact ⟨by rw [WeightsAt, h.2.2.2.2]; rfl, rfl⟩
  | node l r ihl ihr =>
    intro lo hi i h
    obtain ⟨-, -, h2, m, h3, h4⟩ := h
    obtain ⟨hl, hl0⟩ := ihl h3
    obtain ⟨hr, hr0⟩ := ihr h4
    exact ⟨⟨by rw [h2, hl0, hr0]; rfl, hl, hr⟩, by rw [Tree.weight, hl0, hr0]⟩

/-- No slot is shared. -/
theorem HoldsIn.slots {nodes : Vector NodeEntry nodeCap} {t : Tree} :
    ∀ {lo hi : Nat} {i : NodeIx}, HoldsIn nodes lo hi i t →
      (slotsOf nodes i t).Nodup ∧ ∀ j ∈ slotsOf nodes i t, lo ≤ j.val ∧ j.val < hi := by
  induction t with
  | leaf s => intro lo hi i h; have := h.lt; simp [slotsOf]; omega
  | node l r ihl ihr =>
    intro lo hi i h
    obtain ⟨h1, -, -, m, h3, h4⟩ := h
    have hl := h3.lt
    have hr := h4.lt
    obtain ⟨nl, bl⟩ := ihl h3
    obtain ⟨nr, br⟩ := ihr h4
    simp only [slotsOf, List.nodup_cons, List.nodup_append, List.mem_append, List.mem_cons]
    refine ⟨⟨?_, nl, nr, ?_⟩, ?_⟩
    · rintro (h | h)
      · have := bl i h; omega
      · have := br i h; omega
    · intro a ha b hb hab
      subst hab
      have := bl a ha; have := br a hb; omega
    · rintro j (rfl | h | h)
      · omega
      · have := bl j h; omega
      · have := br j h; omega

/-- A tree stays where it is when the slots that it uses do not change. -/
theorem HoldsIn.congr {nodes nodes' : Vector NodeEntry nodeCap} {t : Tree} :
    ∀ {lo hi : Nat} {i : NodeIx}, HoldsIn nodes lo hi i t →
      (∀ j : NodeIx, lo ≤ j.val → j.val < hi → nodes'[j] = nodes[j]) → HoldsIn nodes' lo hi i t := by
  induction t with
  | leaf s =>
    intro lo hi i ht h
    have hlt := ht.lt
    obtain ⟨h1, h2, h3, h4, h5⟩ := ht
    have hi := h i (by omega) (by omega)
    exact ⟨h1, h2, by rw [hi, h3], by rw [hi, h4], by rw [hi, h5]⟩
  | node l r ihl ihr =>
    intro lo hi i ht h
    have hlt := ht.lt
    obtain ⟨h1, h2, h3, m, h4, h5⟩ := ht
    have hl := h4.lt
    have hr := h5.lt
    have hi := h i (by omega) (by omega)
    refine ⟨h1, by rw [hi, h2], by rw [hi, h3], m, ?_, ?_⟩
    · rw [hi]; exact ihl h4 fun j h1 h2 => h j (by omega) (by omega)
    · rw [hi]; exact ihr h5 fun j h1 h2 => h j (by omega) (by omega)

theorem HoldsAt.congr {nodes nodes' : Vector NodeEntry nodeCap} {n n' : Nat} (hn : n ≤ n')
    (h : ∀ j : NodeIx, j.val < n → nodes'[j] = nodes[j]) {t : Tree} :
    ∀ {i : NodeIx}, HoldsAt nodes n i t → HoldsAt nodes' n' i t := by
  induction t with
  | leaf s =>
    intro i ht
    obtain ⟨h2, h3, h4⟩ := ht
    exact ⟨by omega, by rw [h i h2, h3], by rw [h i h2, h4]⟩
  | node l r ihl ihr =>
    intro i ht
    obtain ⟨h2, h3, h4, h5⟩ := ht
    have hi := h i h2
    exact ⟨by omega, by rw [hi, h3], by rw [hi]; exact ihl h4, by rw [hi]; exact ihr h5⟩

/-- The slot that an allocation takes while the store is not full (R30). -/
theorem nextSlot_val {s : State} (h : s.nNodes.toNat < nodeCap) : (nextSlot s).val = s.nNodes.toNat := by
  simp [nextSlot, Fin.ofNat, Nat.mod_eq_of_lt h]

theorem toNat_add_one {n : Nat} {v : BitVec n} (h : v.toNat + 1 < 2 ^ n) : (v + 1#n).toNat = v.toNat + 1 := by
  rw [BitVec.toNat_add, BitVec.toNat_ofNat]
  rcases n with _ | n
  · simp at h
  · rw [Nat.mod_eq_of_lt (show 1 < 2 ^ (n + 1) by rw [pow_succ]; have := Nat.two_pow_pos n; omega), Nat.mod_eq_of_lt h]

/-- A bit of the input is consumed by a 1-bit read. -/
theorem parseBit_zero {s : State} (hf : FiniteInput s) {r : Bits} (hr : s.rest = false :: r) (hn : s.nInt.toNat ≠ 256) :
    parseBitStep s = { s with inPos := s.inPos + 1, pos := .parseInternal } := by
  have h : s.nInt ≠ 256#9 := fun h => hn (by rw [h]; rfl)
  rw [parseBitStep, chanRead_one hf hr]
  simp [h, goto]

theorem parseBit_full {s : State} (hf : FiniteInput s) {r : Bits} (hr : s.rest = false :: r) (hn : s.nInt.toNat = 256) :
    parseBitStep s = raiseErr .hdrCapacity { s with inPos := s.inPos + 1 } := by
  have h : s.nInt = 256#9 := BitVec.eq_of_toNat_eq hn
  rw [parseBitStep, chanRead_one hf hr]
  simp [h]

theorem parseBit_one {s : State} (hf : FiniteInput s) {r : Bits} (hr : s.rest = true :: r) :
    parseBitStep s = { s with inPos := s.inPos + 1, pos := .parseSym } := by
  rw [parseBitStep, chanRead_one hf hr]
  simp [goto]

theorem parseBit_nil {s : State} (hf : FiniteInput s) (hr : s.rest = []) : parseBitStep s = raiseErr .truncated s := by
  rw [parseBitStep, chanRead_end hf (by simp [hr])]

/-- Where a `parse()` ends (R154): at its return of the tree's root, with the tree in the slots that it allocated and the
older slots as they were, or with the error that it raises. `k` is what the tree registers add up to. -/
def ParseEnds (p : Parsed) (s : State) : Prop :=
  match p with
  | .tree t u n => ∃ (nodes : Vector NodeEntry nodeCap) (nn : BitVec 10) (nl ni : BitVec 9) (i : NodeIx),
      Leads (4 * u) s
        { s with node := nodes, nNodes := nn, nLeaf := nl, nInt := ni, inPos := s.inPos + u, pos := .parseRet i } ∧
      HoldsIn nodes s.nNodes.toNat nn.toNat i t ∧ (∀ j : NodeIx, j.val < s.nNodes.toNat → nodes[j] = s.node[j]) ∧
      ni.toNat = n ∧ n = s.nInt.toNat + t.internals ∧ nl.toNat = s.nLeaf.toNat + t.leaves ∧
      nn.toNat = nl.toNat + ni.toNat ∧ n ≤ 256 ∧ (∀ x ∈ t.symbols, x.toNat ≤ 256) ∧ u ≤ s.rest.length
  | .error e u => ∃ (nodes : Vector NodeEntry nodeCap) (nn : BitVec 10) (nl ni : BitVec 9),
      Leads (4 * u + 4) s
        (raiseErr e { s with node := nodes, nNodes := nn, nLeaf := nl, nInt := ni, inPos := s.inPos + u }) ∧
      u ≤ s.rest.length

/-- A `parse()` on a finite input. `k` is the number of open calls that wait for their left subtree. -/
theorem parse_ends (fuel : Nat) : ∀ (s : State) (k : Nat), FiniteInput s → s.busy = true → s.pos = .parseBit →
    s.nNodes.toNat = s.nLeaf.toNat + s.nInt.toNat → s.nLeaf.toNat + k = s.nInt.toNat → s.nInt.toNat ≤ 256 →
    257 ≤ s.nInt.toNat + fuel → ParseEnds (refParse fuel s.rest s.nInt.toNat) s := by
  induction fuel with
  | zero => intro s k _ _ _ _ _ h1 h2; omega
  | succ fuel ih =>
    intro s k hf hb hp hN hK hI hfuel
    have h0 := Leads.step hb hp
    rw [show stepAt .parseBit s = parseBitStep s from rfl] at h0
    match hr : s.rest with
    | [] =>
      rw [parseBit_nil hf hr] at h0
      exact ⟨s.node, s.nNodes, s.nLeaf, s.nInt, h0.mono (by omega), by simp⟩
    | true :: bs =>
      rw [parseBit_one hf hr] at h0
      let s1 : State := { s with inPos := s.inPos + 1, pos := .parseSym }
      have hf1 : FiniteInput s1 := hf.congr rfl
      have hr1 : s1.rest = bs := by
        have h : s1.rest = s.rest.drop 1 := rest_advance 1
        rw [h, hr]; rfl
      have h1 := Leads.step (s := s1) (p := .parseSym) hb rfl
      rw [show stepAt .parseSym s1 = parseSymStep s1 from rfl, parseSymStep] at h1
      by_cases h9 : bs.length < 9
      · rw [chanRead_end hf1 (by rw [hr1]; exact h9)] at h1
        have hp : refParse (fuel + 1) (true :: bs) s.nInt.toNat = .error .truncated 1 := by rw [refParse, if_pos h9]
        rw [hp]
        exact ⟨s.node, s.nNodes, s.nLeaf, s.nInt, (h0.trans h1).mono (by omega), by simp [hr]⟩
      · have h9' : 9 ≤ s1.rest.length := by rw [hr1]; omega
        rw [chanRead_val hf1 h9', hr1] at h1
        have hlt : natOfBits (bs.take 9) < 2 ^ 9 := by
          have h := natOfBits_lt (bs.take 9)
          rwa [List.length_take, Nat.min_eq_left (by omega)] at h
        simp only [BitVec.toNat_ofNat, Nat.mod_eq_of_lt hlt] at h1
        by_cases hv : 256 < natOfBits (bs.take 9)
        · rw [if_pos hv] at h1
          have hp : refParse (fuel + 1) (true :: bs) s.nInt.toNat = .error .hdrSymbol 10 := by
            rw [refParse, if_neg h9, if_pos hv]
          rw [hp]
          exact ⟨s.node, s.nNodes, s.nLeaf, s.nInt, (h0.trans h1).mono (by omega), by rw [hr]; simp; omega⟩
        · rw [if_neg hv, goto] at h1
          have hp : refParse (fuel + 1) (true :: bs) s.nInt.toNat =
              .tree (.leaf (BitVec.ofNat 9 (natOfBits (bs.take 9)))) 10 s.nInt.toNat := by
            rw [refParse, if_neg h9, if_neg hv]
          rw [hp]
          generalize hsym : BitVec.ofNat 9 (natOfBits (bs.take 9)) = sym at h1
          have hsym' : sym.toNat ≤ 256 := by rw [← hsym, BitVec.toNat_ofNat, Nat.mod_eq_of_lt hlt]; omega
          let s2 : State := { s1 with inPos := s1.inPos + 9, pos := .parseLeaf sym }
          have h2 := Leads.step (s := s2) (p := .parseLeaf sym) hb rfl
          rw [show stepAt (.parseLeaf sym) s2 = parseLeafStep sym s2 from rfl, parseLeafStep] at h2
          have hs2 : (nextSlot s).val = s.nNodes.toNat := nextSlot_val (by unfold nodeCap; omega)
          refine ⟨s.node.set (nextSlot s) { leaf := true, sym := sym, weight := 0#40, left := 0, right := 0 },
            s.nNodes + 1#10, s.nLeaf + 1#9, s.nInt, nextSlot s, ((h0.trans h1).trans h2).mono (by omega), ?_, ?_, rfl,
            by simp [Tree.internals], ?_, ?_, by omega, by simpa [Tree.symbols] using hsym', by rw [hr]; simp; omega⟩
          · rw [toNat_add_one (by omega)]
            exact ⟨hs2, rfl, by simp, by simp, by simp⟩
          · intro j hj
            simp only [Fin.getElem_fin]
            rw [Vector.getElem_set_ne]
            omega
          · rw [toNat_add_one (by omega)]; rfl
          · rw [toNat_add_one (by omega), toNat_add_one (by omega)]; omega
    | false :: bs =>
      by_cases hn : s.nInt.toNat = 256
      · rw [parseBit_full hf hr hn] at h0
        have hp : refParse (fuel + 1) (false :: bs) s.nInt.toNat = .error .hdrCapacity 1 := by rw [refParse, if_pos hn]
        rw [hp]
        exact ⟨s.node, s.nNodes, s.nLeaf, s.nInt, h0.mono (by omega), by simp [hr]⟩
      · rw [parseBit_zero hf hr hn] at h0
        have hs : (nextSlot s).val = s.nNodes.toNat := nextSlot_val (by unfold nodeCap; omega)
        let e0 : NodeEntry := { leaf := false, sym := 0#9, weight := 0#40, left := 0, right := 0 }
        let i := nextSlot s
        let s1 : State := { s with
          node := s.node.set i e0, nNodes := s.nNodes + 1#10, nInt := s.nInt + 1#9,
          stack := .left i :: s.stack, inPos := s.inPos + 1, pos := .parseBit }
        have h1 : Leads 2 s s1 :=
          h0.trans (Leads.step (s := { s with inPos := s.inPos + 1, pos := .parseInternal }) (p := .parseInternal) hb rfl)
        have hN1 : s1.nNodes.toNat = s.nNodes.toNat + 1 := toNat_add_one (by omega)
        have hI1 : s1.nInt.toNat = s.nInt.toNat + 1 := toNat_add_one (by omega)
        have hr1 : s1.rest = bs := by
          have h : s1.rest = s.rest.drop 1 := rest_advance 1
          rw [h, hr]; rfl
        have hl := ih s1 (k + 1) (hf.congr rfl) hb rfl (by rw [hN1, hI1]; show _ = s.nLeaf.toNat + _; omega)
          (by rw [hI1]; show s.nLeaf.toNat + _ = _; omega) (by omega) (by omega)
        rw [hr1, hI1] at hl
        rw [refParse, if_neg hn]
        have hsame1 : ∀ j : NodeIx, j.val < s.nNodes.toNat → s1.node[j] = s.node[j] := by
          intro j hj
          show (s.node.set i e0)[j] = s.node[j]
          simp only [Fin.getElem_fin]
          rw [Vector.getElem_set_ne]
          omega
        cases hL : refParse fuel bs (s.nInt.toNat + 1) with
        | error e u =>
          rw [hL] at hl
          obtain ⟨nodes, nn, nl, ni, hlead, hu⟩ := hl
          rw [hr1] at hu
          refine ⟨nodes, nn, nl, ni, ?_, by rw [hr]; simp; omega⟩
          have h := (h1.trans hlead).mono (show _ ≤ 4 * (1 + u) + 4 by omega)
          rw [← Nat.add_assoc]
          exact h
        | tree l u n1 =>
          rw [hL] at hl
          obtain ⟨nodes1, nn1, nl1, ni1, il, hlead1, hold1, hkeep1, hni1, hn1, hnl1, hnn1, hle1, hsym1, hu1⟩ := hl
          have hnl1' : nl1.toNat = s.nLeaf.toNat + l.leaves := hnl1
          have hlv := l.leaves.zero_le
          -- the entry of the open call, as the left parse leaves it
          have hi1 : nodes1[i] = e0 := by
            rw [hkeep1 i (by rw [hN1]; omega)]
            show (s.node.set i e0)[i] = e0
            simp
          let s2 : State := { s with
            node := nodes1.set i { e0 with left := il }, nNodes := nn1, nLeaf := nl1, nInt := ni1,
            stack := .right i :: s.stack, inPos := s.inPos + 1 + u, pos := .parseBit }
          have h2 : Leads 1 { s1 with
              node := nodes1, nNodes := nn1, nLeaf := nl1, nInt := ni1, inPos := s1.inPos + u, pos := .parseRet il } s2 := by
            have h := Leads.step (p := .parseRet il) (s := { s1 with
              node := nodes1, nNodes := nn1, nLeaf := nl1, nInt := ni1, inPos := s1.inPos + u, pos := .parseRet il }) hb rfl
            rw [show ∀ v, stepAt (.parseRet il) v = parseRetStep il v from fun _ => rfl, parseRetStep] at h
            simp only [s1] at h
            simp only [readNode_eq] at h
            rw [hi1] at h
            exact h
          have hr2 : s2.rest = bs.drop u := by
            have h : s2.rest = s1.rest.drop u := rest_advance (s := s1) u
            rw [h, hr1]
          have hleq := l.leaves_eq
          have hr' := ih s2 k (hf.congr rfl) hb rfl hnn1 (by show nl1.toNat + k = ni1.toNat; omega)
            (by show ni1.toNat ≤ 256; omega) (by show 257 ≤ ni1.toNat + fuel; omega)
          rw [hr2, show s2.nInt.toNat = n1 from hni1] at hr'
          simp only []
          have hsame2 : ∀ j : NodeIx, j.val < nn1.toNat → j ≠ i → s2.node[j] = nodes1[j] := by
            intro j _ hj
            show (nodes1.set i _)[j] = nodes1[j]
            simp only [Fin.getElem_fin]
            rw [Vector.getElem_set_ne]
            exact fun h => hj (Fin.ext h.symm)
          rw [hr1] at hu1
          cases hR : refParse fuel (bs.drop u) n1 with
          | error e v =>
            rw [hR] at hr'
            obtain ⟨nodes, nn, nl, ni, hlead, hv⟩ := hr'
            rw [hr2] at hv
            refine ⟨nodes, nn, nl, ni, ?_, by rw [hr]; simp at hv ⊢; omega⟩
            have h := (((h1.trans hlead1).trans h2).trans hlead).mono (show _ ≤ 4 * (1 + u + v) + 4 by omega)
            rw [show s.inPos + (1 + u + v) = s.inPos + 1 + u + v by omega]
            exact h
          | tree r v n2 =>
            rw [hR] at hr'
            obtain ⟨nodes2, nn2, nl2, ni2, ir, hlead2, hold2, hkeep2, hni2, hn2, hnl2, hnn2, hle2, hsym2, hv⟩ := hr'
            have hnl2' : nl2.toNat = nl1.toNat + r.leaves := hnl2
            have hn2' : n2 = ni1.toNat + r.internals := hn2
            have hreq := r.leaves_eq
            rw [hr2] at hv
            have hii : i.val < nn1.toNat := by omega
            have hi2 : nodes2[i] = { e0 with left := il } := by
              rw [hkeep2 i hii]
              show (nodes1.set i _)[i] = _
              simp
            let nodes3 := nodes2.set i { leaf := false, sym := 0#9, weight := 0#40, left := il, right := ir }
            have h3 := Leads.step (p := .parseRet ir) (s := { s2 with
              node := nodes2, nNodes := nn2, nLeaf := nl2, nInt := ni2, inPos := s2.inPos + v, pos := .parseRet ir }) hb rfl
            rw [show ∀ v, stepAt (.parseRet ir) v = parseRetStep ir v from fun _ => rfl, parseRetStep] at h3
            simp only [s2] at h3
            simp only [readNode_eq] at h3
            rw [hi2] at h3
            have hne : ∀ j : NodeIx, j ≠ i → nodes3[j] = nodes2[j] := by
              intro j hj
              simp only [nodes3, Fin.getElem_fin]
              rw [Vector.getElem_set_ne]
              exact fun h => hj (Fin.ext h.symm)
            have hi3 : nodes3[i] = { leaf := false, sym := 0#9, weight := 0#40, left := il, right := ir } := by
              simp [nodes3]
            refine ⟨nodes3, nn2, nl2, ni2, i, ?_, ?_, ?_, hni2, ?_, ?_, hnn2, hle2, ?_, ?_⟩
            · have h := ((((h1.trans hlead1).trans h2).trans hlead2).trans h3).mono (show _ ≤ 4 * (1 + u + v) by omega)
              rw [show s.inPos + (1 + u + v) = s.inPos + 1 + u + v by omega]
              exact h
            · refine ⟨hs, by rw [hi3], by rw [hi3], nn1.toNat, ?_, ?_⟩
              · rw [hi3, ← hN1]
                refine hold1.congr ?_
                intro j hj1 hj2
                have hji : j ≠ i := by intro h; rw [h] at hj1; omega
                rw [hne j hji, hkeep2 j hj2, hsame2 j hj2 hji]
              · rw [hi3]
                refine HoldsIn.congr (show HoldsIn nodes2 nn1.toNat nn2.toNat ir r from hold2) ?_
                intro j hj1 hj2
                have hji : j ≠ i := by intro h; rw [h] at hj1; omega
                exact hne j hji
            · intro j hj
              have hji : j ≠ i := by intro h; rw [h] at hj; omega
              rw [hne j hji, hkeep2 j (show j.val < nn1.toNat by omega), hsame2 j (by omega) hji,
                hkeep1 j (by rw [hN1]; omega), hsame1 j hj]
            · simp only [Tree.internals]; omega
            · simp only [Tree.leaves]; omega
            · intro x hx
              rcases List.mem_append.mp hx with h | h
              · exact hsym1 x h
              · exact hsym2 x h
            · rw [hr]; simp at hv ⊢; omega

/-- HDR_SHAPE comes from the root check only (R157). -/
theorem refParse_ne_hdrShape {fuel : Nat} : ∀ {bs : Bits} {n : Nat} {e : ErrCode} {u : Nat},
    refParse fuel bs n = .error e u → e ≠ .hdrShape := by
  induction fuel with
  | zero => intro bs n e u h; cases h; decide
  | succ fuel ih =>
    intro bs n e u h
    rw [refParse.eq_def] at h
    simp only [] at h
    split at h
    · cases h; decide
    · split at h
      · cases h; decide
      · split at h
        · rename_i h1; cases h; exact ih h1
        · split at h
          · rename_i h2; cases h; exact ih h2
          · cases h
    · split at h
      · cases h; decide
      · split at h
        · cases h; decide
        · cases h

/-- RDTREE's body on a finite input (R153, R157). -/
theorem rdtree_leads {s : State} (hf : FiniteInput s) (hb : s.busy = true) (hp : s.pos = rdtreeEntry) :
    match refTree s.rest with
    | .tree t u _ => ∃ (nodes : Vector NodeEntry nodeCap) (nn : BitVec 10) (nl ni : BitVec 9) (i : NodeIx),
        Leads (4 * u + 2) s { s with
          treeValid := true, codesValid := false, node := nodes, nNodes := nn, nLeaf := nl, nInt := ni, root := i,
          stack := [], inPos := s.inPos + u, pos := .ret } ∧
        HoldsIn nodes 0 nn.toNat i t ∧ t.leaves = nl.toNat ∧ t.internals = ni.toNat ∧ t.internals ≤ 256 ∧
        (∀ x ∈ t.symbols, x.toNat ≤ 256) ∧ u ≤ s.rest.length
    | .error e u => ∃ (nodes : Vector NodeEntry nodeCap) (nn : BitVec 10) (nl ni : BitVec 9) (i : NodeIx),
        Leads (4 * u + 6) s (raiseErr e { s with
          treeValid := false, codesValid := false, node := nodes, nNodes := nn, nLeaf := nl, nInt := ni, root := i,
          inPos := s.inPos + u }) ∧ u ≤ s.rest.length ∧ i = if e = .hdrShape then 0 else s.root := by
  let s1 : State := { s with
    treeValid := false, codesValid := false, nNodes := 0#10, nLeaf := 0#9, nInt := 0#9, stack := [], pos := .parseBit }
  have h0 : Leads 1 s s1 := Leads.step hb hp
  have h1 := parse_ends 257 s1 0 (hf.congr rfl) hb rfl rfl rfl (by simp [s1]) (by simp [s1])
  rw [show s1.nInt.toNat = 0 from rfl, show s1.rest = s.rest from rfl] at h1
  rw [refTree]
  cases hP : refParse 257 s.rest 0 with
  | error e u =>
    rw [hP] at h1
    obtain ⟨nodes, nn, nl, ni, hlead, hu⟩ := h1
    exact ⟨nodes, nn, nl, ni, s.root, (h0.trans hlead).mono (by omega), hu, (if_neg (refParse_ne_hdrShape hP)).symm⟩
  | tree t u n =>
    rw [hP] at h1
    obtain ⟨nodes, nn, nl, ni, i, hlead, hold, -, hni, hn, hnl, hnn, hle, hsym, hu⟩ := h1
    have hn' : n = t.internals := by rw [hn]; show 0 + _ = _; omega
    have hnl' : nl.toNat = t.leaves := by rw [hnl]; show 0 + _ = _; omega
    have hold : HoldsIn nodes 0 nn.toNat i t := hold
    have h2 := Leads.step (p := .parseRet i) (s := { s1 with
      node := nodes, nNodes := nn, nLeaf := nl, nInt := ni, inPos := s1.inPos + u, pos := .parseRet i }) hb rfl
    rw [show ∀ v, stepAt (.parseRet i) v = parseRetStep i v from fun _ => rfl, parseRetStep] at h2
    simp only [s1, parseEnd, readNode_eq] at h2
    have done : ¬ (nodes[i].leaf = true ∧ nodes[i].sym ≠ eos) →
        ∃ (nodes : Vector NodeEntry nodeCap) (nn : BitVec 10) (nl ni : BitVec 9) (i : NodeIx),
        Leads (4 * u + 2) s { s with
          treeValid := true, codesValid := false, node := nodes, nNodes := nn, nLeaf := nl, nInt := ni, root := i,
          stack := [], inPos := s.inPos + u, pos := .ret } ∧
        HoldsIn nodes 0 nn.toNat i t ∧ t.leaves = nl.toNat ∧ t.internals = ni.toNat ∧ t.internals ≤ 256 ∧
        (∀ x ∈ t.symbols, x.toNat ≤ 256) ∧ u ≤ s.rest.length := by
      intro hroot
      rw [if_neg hroot] at h2
      exact ⟨nodes, nn, nl, ni, i, ((h0.trans hlead).trans h2).mono (by omega), hold, hnl'.symm, by omega, by omega, hsym, hu⟩
    cases t with
    | node l r => exact done (by rw [hold.2.1]; simp)
    | leaf x =>
      by_cases hx : x = eos
      · simp only [if_pos hx]
        exact done (by rw [hold.2.2.2.1]; simp [hx])
      · simp only [if_neg hx]
        rw [if_pos ⟨hold.2.2.1, by rw [hold.2.2.2.1]; exact hx⟩] at h2
        exact ⟨nodes, nn, nl, ni, i, ((h0.trans hlead).trans h2).mono (by omega), hu, by
          simpa using Fin.ext hold.1⟩

end Sys2Proof.Machine
end

