-- ==== Sys2Proof/Laws/Builder.lean ====
section
/-! SUPPORT. BUILD (spec 41_tree_builder.md R120 to R124): the leaf loop makes the forest of leaves, and the merge loop
makes of it a tree that comes from it by merges, whatever the draws. -/

namespace Sys2Proof.Machine

/-! ### extractMin -/

theorem minEntries_ne_nil (w : NodeIx → Weight) {pq : List NodeIx} (h : pq ≠ []) : minEntries w pq ≠ [] := by
  obtain ⟨a, ha, hmin⟩ := Finset.exists_min_image pq.toFinset (fun i => (w i).toNat) (by simpa using h)
  have ha' : a ∈ minEntries w pq := by
    simp only [minEntries, List.mem_filter, List.all_eq_true, decide_eq_true_eq]
    exact ⟨by simpa using ha, fun b hb => hmin b (by simpa using hb)⟩
  exact List.ne_nil_of_mem ha'

theorem drawFrom_mem (k : Nat) (a : NodeIx) (rest : List NodeIx) : drawFrom k a rest ∈ a :: rest := by
  cases rest with
  | nil => simp [drawFrom]
  | cons b rest =>
    have h : Config.tieDraw k % ((b :: rest).length + 1) < (a :: b :: rest).length := Nat.mod_lt _ (by simp)
    rw [drawFrom, List.getD_eq_getElem _ _ h]
    · exact List.getElem_mem h
    · simp

/-- An extraction from a queue that is not empty takes an entry that no entry weighs less than (R122). -/
theorem extractMin_spec (w : NodeIx → Weight) (k : Nat) {pq : List NodeIx} (h : pq ≠ []) :
    ∃ a, extractMin w k pq = some (a, pq.erase a) ∧ a ∈ pq ∧ ∀ b ∈ pq, (w a).toNat ≤ (w b).toNat := by
  unfold extractMin
  cases hm : minEntries w pq with
  | nil => exact absurd hm (minEntries_ne_nil w h)
  | cons a rest =>
    have hmem : drawFrom k a rest ∈ minEntries w pq := by rw [hm]; exact drawFrom_mem k a rest
    simp only [minEntries, List.mem_filter, List.all_eq_true, decide_eq_true_eq] at hmem
    exact ⟨drawFrom k a rest, rfl, hmem.1, hmem.2⟩

/-! ### The queue as a forest -/

/-- The store holds tree `t` at slot `i`, weights included. -/
def BuiltAt (nodes : Vector NodeEntry nodeCap) (n : Nat) (w : Sym → Nat) (i : NodeIx) (t : Tree) : Prop :=
  HoldsAt nodes n i t ∧ WeightsAt nodes w i t

theorem WeightsAt.congr {nodes nodes' : Vector NodeEntry nodeCap} {n : Nat} {w : Sym → Nat}
    (h : ∀ j : NodeIx, j.val < n → nodes'[j] = nodes[j]) {t : Tree} :
    ∀ {i : NodeIx}, HoldsAt nodes n i t → WeightsAt nodes w i t → WeightsAt nodes' w i t := by
  induction t with
  | leaf s => intro i ht hw; simp only [WeightsAt] at hw ⊢; rw [h i ht.1, hw]
  | node l r ihl ihr =>
    intro i ht hw
    simp only [WeightsAt] at hw ⊢
    rw [h i ht.1]
    exact ⟨hw.1, ihl ht.2.2.1 hw.2.1, ihr ht.2.2.2 hw.2.2⟩

theorem BuiltAt.congr {nodes nodes' : Vector NodeEntry nodeCap} {n n' : Nat} {w : Sym → Nat} (hn : n ≤ n')
    (h : ∀ j : NodeIx, j.val < n → nodes'[j] = nodes[j]) {i : NodeIx} {t : Tree} (ht : BuiltAt nodes n w i t) :
    BuiltAt nodes' n' w i t :=
  ⟨ht.1.congr hn h, ht.2.congr h ht.1⟩

/-- The weight field of a built tree's root is the tree's weight. -/
theorem BuiltAt.weight {nodes : Vector NodeEntry nodeCap} {n : Nat} {w : Sym → Nat} {i : NodeIx} {t : Tree}
    (ht : BuiltAt nodes n w i t) : nodes[i].weight.toNat = t.weight w := by
  cases t with
  | leaf s => exact ht.2
  | node l r => exact ht.2.1

/-- Taking an entry out of the queue takes its tree out of the forest. -/
theorem forall₂_erase {α β : Type} [DecidableEq α] {R : α → β → Prop} {l : List α} {m : List β} (h : List.Forall₂ R l m)
    {a : α} (ha : a ∈ l) : ∃ t m₁, R a t ∧ m.Perm (t :: m₁) ∧ List.Forall₂ R (l.erase a) m₁ ∧
      ∀ {γ : Type} (g : α → β → γ), (List.zipWith g l m).Perm (g a t :: List.zipWith g (l.erase a) m₁) := by
  induction h with
  | nil => cases ha
  | @cons b u l m hb hl ih =>
    by_cases hab : b = a
    · subst hab
      exact ⟨u, m, hb, .refl _, by simpa using hl, fun g => by simp⟩
    · obtain ⟨t, m₁, h1, h2, h3, h4⟩ := ih (by simpa [Ne.symm hab] using ha)
      have he : (b :: l).erase a = b :: l.erase a := List.erase_cons_tail (by simpa using hab)
      refine ⟨t, u :: m₁, h1, ((List.Perm.cons u h2).trans (List.Perm.swap t u m₁)), ?_, fun g => ?_⟩
      · rw [he]; exact .cons hb h3
      · rw [he, List.zipWith_cons_cons, List.zipWith_cons_cons]
        exact ((h4 g).cons _).trans (List.Perm.swap _ _ _)

/-- The slots of the queue's trees. -/
def queueSlots (nodes : Vector NodeEntry nodeCap) (pq : List NodeIx) (f : List Tree) : List NodeIx :=
  (List.zipWith (slotsOf nodes) pq f).flatten

theorem slotsOf_congr {nodes nodes' : Vector NodeEntry nodeCap} {n : Nat}
    (h : ∀ j : NodeIx, j.val < n → nodes'[j] = nodes[j]) {t : Tree} :
    ∀ {i : NodeIx}, HoldsAt nodes n i t → slotsOf nodes' i t = slotsOf nodes i t := by
  induction t with
  | leaf s => intro i _; rfl
  | node l r ihl ihr => intro i ht; rw [slotsOf, slotsOf, h i ht.1, ihl ht.2.2.1, ihr ht.2.2.2]

theorem slotsOf_lt {nodes : Vector NodeEntry nodeCap} {n : Nat} {t : Tree} :
    ∀ {i : NodeIx}, HoldsAt nodes n i t → ∀ j ∈ slotsOf nodes i t, j.val < n := by
  induction t with
  | leaf s => intro i ht j hj; rw [slotsOf, List.mem_singleton] at hj; rw [hj]; exact ht.1
  | node l r ihl ihr =>
    intro i ht j hj
    simp only [slotsOf, List.mem_cons, List.mem_append] at hj
    rcases hj with rfl | h | h
    · exact ht.1
    · exact ihl ht.2.2.1 j h
    · exact ihr ht.2.2.2 j h

theorem queueSlots_congr {nodes nodes' : Vector NodeEntry nodeCap} {n : Nat} {w : Sym → Nat}
    (h : ∀ j : NodeIx, j.val < n → nodes'[j] = nodes[j]) {pq : List NodeIx} {f : List Tree}
    (hq : List.Forall₂ (BuiltAt nodes n w) pq f) : queueSlots nodes' pq f = queueSlots nodes pq f := by
  induction hq with
  | nil => rfl
  | cons ha _ ih =>
    simp only [queueSlots, List.zipWith_cons_cons, List.flatten_cons] at ih ⊢
    rw [slotsOf_congr h ha.1, ih]

theorem queueSlots_lt {nodes : Vector NodeEntry nodeCap} {n : Nat} {w : Sym → Nat} {pq : List NodeIx} {f : List Tree}
    (hq : List.Forall₂ (BuiltAt nodes n w) pq f) : ∀ j ∈ queueSlots nodes pq f, j.val < n := by
  induction hq with
  | nil => intro j hj; simp [queueSlots] at hj
  | cons ha _ ih =>
    intro j hj
    simp only [queueSlots, List.zipWith_cons_cons, List.flatten_cons, List.mem_append] at hj ih
    rcases hj with h | h
    · exact slotsOf_lt ha.1 j h
    · exact ih j h

theorem queueSlots_append {nodes : Vector NodeEntry nodeCap} {R : NodeIx → Tree → Prop} {pq : List NodeIx} {f : List Tree}
    (hq : List.Forall₂ R pq f) (i : NodeIx) (t : Tree) :
    queueSlots nodes (pq ++ [i]) (f ++ [t]) = queueSlots nodes pq f ++ slotsOf nodes i t := by
  simp [queueSlots, List.zipWith_append hq.length_eq]

theorem forall₂_mem_right {α β : Type} {R : α → β → Prop} {l : List α} {m : List β} (h : List.Forall₂ R l m) {x : β}
    (hx : x ∈ m) : ∃ a ∈ l, R a x := by
  induction h with
  | nil => cases hx
  | @cons b u l m hb hl ih =>
    rcases List.mem_cons.mp hx with rfl | hx
    · exact ⟨b, by simp, hb⟩
    · obtain ⟨a, ha, h⟩ := ih hx; exact ⟨a, by simp [ha], h⟩

/-- The weight of a forest. -/
def forestWeight (w : Sym → Nat) (f : List Tree) : Nat := (f.map (Tree.weight w)).sum

theorem forestWeight_perm {w : Sym → Nat} {f g : List Tree} (h : f.Perm g) : forestWeight w f = forestWeight w g :=
  (h.map _).sum_eq

/-- The merge loop (R122 to R124): from a queue that holds a forest to a tree that comes from it by merges. -/
theorem buildMerge_leads (k : Nat) : ∀ (s : State) (w : Sym → Nat) (f : List Tree), s.busy = true → s.pos = .buildMerge →
    s.pq.length = k + 1 → List.Forall₂ (BuiltAt s.node s.nNodes.toNat w) s.pq f → forestWeight w f < 2 ^ 40 →
    s.nNodes.toNat = s.nLeaf.toNat + s.nInt.toNat → s.nInt.toNat + (k + 1) = s.nLeaf.toNat → s.nLeaf.toNat ≤ 257 →
    (queueSlots s.node s.pq f).Nodup →
    ∃ (nodes : Vector NodeEntry nodeCap) (nn : BitVec 10) (ni : BitVec 9) (i : NodeIx) (d : Nat) (t : Tree),
      Leads (k + 1) s { s with
        node := nodes, nNodes := nn, nInt := ni, root := i, pq := [], treeValid := true, draws := d, pos := .ret } ∧
      BuiltAt nodes nn.toNat w i t ∧ Merges w f t ∧ nn.toNat = s.nLeaf.toNat + ni.toNat ∧
      ni.toNat + 1 = s.nLeaf.toNat ∧ (slotsOf nodes i t).Nodup := by
  induction k with
  | zero =>
    intro s w f hb hp hlen hq hw hN hI hL hnd
    have h := Leads.step hb hp
    obtain ⟨i, hi⟩ := List.length_eq_one_iff.mp hlen
    rw [show stepAt .buildMerge s = buildMergeStep s from rfl, buildMergeStep, if_neg (by omega), buildEndStep, hi] at h
    rw [hi] at hq hnd
    cases hq with
    | cons ht hnil =>
      cases hnil
      exact ⟨s.node, s.nNodes, s.nInt, i, s.draws, _, h, ht, .done _, hN, by omega, by simpa [queueSlots] using hnd⟩
  | succ k ih =>
    intro s w f hb hp hlen hq hw hN hI hL hnd
    have h := Leads.step hb hp
    obtain ⟨a, hea, ham, hamin⟩ := extractMin_spec (weightOf s) s.draws
      (List.ne_nil_of_length_pos (by omega : 0 < s.pq.length))
    have hlen1 : (s.pq.erase a).length = k + 1 := by rw [List.length_erase_of_mem ham]; omega
    obtain ⟨b, heb, hbm, hbmin⟩ := extractMin_spec (weightOf s) (s.draws + 1)
      (List.ne_nil_of_length_pos (by omega : 0 < (s.pq.erase a).length))
    have hlen2 : ((s.pq.erase a).erase b).length = k := by rw [List.length_erase_of_mem hbm]; omega
    obtain ⟨ta, f1, hta, hperm1, hq1, hz1⟩ := forall₂_erase hq ham
    obtain ⟨tb, f2, htb, hperm2, hq2, hz2⟩ := forall₂_erase hq1 hbm
    have hwt : ∀ i t, BuiltAt s.node s.nNodes.toNat w i t → (weightOf s i).toNat = t.weight w := by
      intro i t ht; rw [weightOf, readNode_eq]; exact ht.weight
    have hfw : forestWeight w f = ta.weight w + (tb.weight w + forestWeight w f2) := by
      rw [forestWeight_perm hperm1]
      show ta.weight w + forestWeight w f1 = _
      rw [forestWeight_perm hperm2]; rfl
    have hs : (nextSlot s).val = s.nNodes.toNat := nextSlot_val (by unfold nodeCap; omega)
    let e : NodeEntry :=
      { leaf := false, sym := 0#9, weight := weightOf s a + weightOf s b, left := a, right := b }
    let s1 : State := { s with
      node := s.node.set (nextSlot s) e, nNodes := s.nNodes + 1#10, nInt := s.nInt + 1#9,
      pq := (s.pq.erase a).erase b ++ [nextSlot s], draws := s.draws + 2 }
    have h1 : Leads 1 s s1 := by
      rw [show stepAt .buildMerge s = buildMergeStep s from rfl, buildMergeStep, if_pos (by omega), mergeStep] at h
      simp only [hea, heb] at h
      exact h
    have hN1 : s1.nNodes.toNat = s.nNodes.toNat + 1 := toNat_add_one (by omega)
    have hI1 : s1.nInt.toNat = s.nInt.toNat + 1 := toNat_add_one (by omega)
    have hsame : ∀ j : NodeIx, j.val < s.nNodes.toNat → s1.node[j] = s.node[j] := by
      intro j hj
      show (s.node.set (nextSlot s) e)[j] = s.node[j]
      simp only [Fin.getElem_fin]
      rw [Vector.getElem_set_ne]
      omega
    have hlift : ∀ i t, BuiltAt s.node s.nNodes.toNat w i t → BuiltAt s1.node s1.nNodes.toNat w i t :=
      fun i t ht => ht.congr (by omega) hsame
    have hnew : s1.node[nextSlot s] = e := by show (s.node.set (nextSlot s) e)[nextSlot s] = e; simp
    have hnode : BuiltAt s1.node s1.nNodes.toNat w (nextSlot s) (.node ta tb) := by
      refine ⟨⟨by omega, by rw [hnew], by rw [hnew]; exact (hlift a ta hta).1, by rw [hnew]; exact (hlift b tb htb).1⟩, ?_⟩
      simp only [WeightsAt]
      rw [hnew]
      refine ⟨?_, (hlift a ta hta).2, (hlift b tb htb).2⟩
      show (weightOf s a + weightOf s b).toNat = _
      rw [BitVec.toNat_add, hwt a ta hta, hwt b tb htb, Nat.mod_eq_of_lt (by omega)]
    have hq3 : List.Forall₂ (BuiltAt s1.node s1.nNodes.toNat w) s1.pq (f2 ++ [.node ta tb]) :=
      List.rel_append (hq2.imp fun i t ht => hlift i t ht) (.cons hnode .nil)
    have hfw1 : forestWeight w (f2 ++ [.node ta tb]) = forestWeight w f := by
      rw [hfw, forestWeight, List.map_append, List.sum_append]
      simp [Tree.weight, forestWeight]; omega
    have hlen3 : s1.pq.length = k + 1 := by
      show ((s.pq.erase a).erase b ++ [nextSlot s]).length = _
      rw [List.length_append, hlen2]; rfl
    have hnd1 : (queueSlots s1.node s1.pq (f2 ++ [.node ta tb])).Nodup := by
      have hp0 : (queueSlots s.node s.pq f).Perm
          (slotsOf s.node a ta ++ (slotsOf s.node b tb ++ queueSlots s.node ((s.pq.erase a).erase b) f2)) := by
        have h1 := (hz1 (slotsOf s.node)).flatten
        have h2 := ((hz2 (slotsOf s.node)).cons (slotsOf s.node a ta)).flatten
        simpa [queueSlots] using h1.trans h2
      have hnd0 := hp0.nodup_iff.mp hnd
      have hlt : ∀ j ∈ slotsOf s.node a ta ++ (slotsOf s.node b tb ++ queueSlots s.node ((s.pq.erase a).erase b) f2),
          j ≠ nextSlot s := by
        intro j hj hjs
        have := queueSlots_lt hq j (hp0.mem_iff.mpr hj)
        rw [hjs, hs] at this
        omega
      have e1 : queueSlots s1.node ((s.pq.erase a).erase b) f2 = queueSlots s.node ((s.pq.erase a).erase b) f2 :=
        queueSlots_congr hsame hq2
      have e2 : slotsOf s1.node (nextSlot s) (.node ta tb) = nextSlot s :: (slotsOf s.node a ta ++ slotsOf s.node b tb) := by
        rw [slotsOf, hnew, slotsOf_congr hsame hta.1, slotsOf_congr hsame htb.1]
      show (queueSlots s1.node ((s.pq.erase a).erase b ++ [nextSlot s]) (f2 ++ [.node ta tb])).Nodup
      rw [queueSlots_append hq2, e1, e2]
      refine (List.Perm.nodup_iff ?_).mpr (List.nodup_cons.mpr ⟨fun h => hlt _ h rfl, hnd0⟩)
      rw [← List.append_assoc (slotsOf s.node a ta)]
      exact List.perm_append_comm
    obtain ⟨nodes, nn, ni, i, d, t, hlead, ht, hm, hnn, hni, hndt⟩ := ih s1 w (f2 ++ [.node ta tb]) hb hp hlen3 hq3
      (by omega) (by rw [hN1, hI1, hN]; show _ = s.nLeaf.toNat + _; omega)
      (by rw [hI1]; show _ = s.nLeaf.toNat; omega) hL hnd1
    refine ⟨nodes, nn, ni, i, d, t, ?_, ht, ?_, hnn, hni, hndt⟩
    · have h := (h1.trans hlead).mono (show _ ≤ k + 1 + 1 by omega)
      exact h
    · refine .merge f f2 ta tb t (hperm1.trans (List.Perm.cons ta hperm2)) ?_ ?_ hm
      · intro x hx
        obtain ⟨j, hj, hjx⟩ := forall₂_mem_right hq hx
        rw [← hwt a ta hta, ← hwt j x hjx]
        exact hamin j hj
      · intro x hx
        obtain ⟨j, hj, hjx⟩ := forall₂_mem_right hq1 (hperm2.mem_iff.mpr hx)
        rw [← hwt b tb htb, ← hwt j x hjx]
        exact hbmin j hj

/-! ### The leaf loop -/

/-- The leaves of the bytes below `i` (R121). -/
def leavesBelow (cnt : Vector Word 256) (i : Nat) : List Tree :=
  (((List.range i).map (BitVec.ofNat 9)).filter fun s => decide (0 < leafWeight cnt s)).map .leaf

theorem leafForest_eq (cnt : Vector Word 256) : leafForest cnt = leavesBelow cnt 256 ++ [.leaf eos] := rfl

theorem leafWeight_byte (cnt : Vector Word 256) {i : Nat} (h : i < 256) :
    leafWeight cnt (BitVec.ofNat 9 i) = cnt[i].toNat := by
  have hi : (BitVec.ofNat 9 i).toNat = i := by rw [BitVec.toNat_ofNat, Nat.mod_eq_of_lt (by omega)]
  simp only [leafWeight, hi, h, dif_pos]

theorem leavesBelow_succ (cnt : Vector Word 256) {i : Nat} (h : i < 256) :
    leavesBelow cnt (i + 1) =
      leavesBelow cnt i ++ if 0 < cnt[i].toNat then [.leaf (BitVec.ofNat 9 i)] else [] := by
  simp only [leavesBelow, List.range_succ, List.map_append, List.filter_append, List.map_cons, List.map_nil,
    List.filter_cons, leafWeight_byte cnt h, List.filter_nil]
  split <;> simp_all

theorem length_leavesBelow (cnt : Vector Word 256) (i : Nat) : (leavesBelow cnt i).length ≤ i := by
  simp only [leavesBelow, List.length_map]
  exact (List.length_filter_le _ _).trans (by simp)

theorem leafWeight_le (cnt : Vector Word 256) (s : Sym) : leafWeight cnt s ≤ 2 ^ 32 - 1 := by
  unfold leafWeight
  split
  · have := (cnt[s.toNat]).isLt; omega
  · simp

theorem forestWeight_leavesBelow (cnt : Vector Word 256) (i : Nat) :
    forestWeight (leafWeight cnt) (leavesBelow cnt i) ≤ i * (2 ^ 32 - 1) := by
  have h := List.sum_le_card_nsmul ((leavesBelow cnt i).map (Tree.weight (leafWeight cnt))) (2 ^ 32 - 1) (by
    intro x hx
    simp only [leavesBelow, List.map_map, List.mem_map] at hx
    obtain ⟨s, -, rfl⟩ := hx
    exact leafWeight_le cnt s)
  rw [List.length_map, smul_eq_mul] at h
  exact h.trans (Nat.mul_le_mul_right _ (length_leavesBelow cnt i))

/-- A leaf joins the queue (R120, R121). -/
theorem queueLeaf_holds {s : State} {w : Sym → Nat} {f : List Tree} {sym : Sym} {v : Weight}
    (hn : s.nNodes.toNat < nodeCap) (hq : List.Forall₂ (BuiltAt s.node s.nNodes.toNat w) s.pq f)
    (hv : v.toNat = w sym) :
    List.Forall₂ (BuiltAt (queueLeaf sym v s).node (queueLeaf sym v s).nNodes.toNat w) (queueLeaf sym v s).pq
      (f ++ [.leaf sym]) := by
  have hs := nextSlot_val hn
  let e : NodeEntry := { leaf := true, sym := sym, weight := v, left := 0, right := 0 }
  have hN : (queueLeaf sym v s).nNodes.toNat = s.nNodes.toNat + 1 :=
    toNat_add_one (by unfold nodeCap at hn; omega)
  have hsame : ∀ j : NodeIx, j.val < s.nNodes.toNat → (queueLeaf sym v s).node[j] = s.node[j] := by
    intro j hj
    show (s.node.set (nextSlot s) e)[j] = s.node[j]
    simp only [Fin.getElem_fin]
    rw [Vector.getElem_set_ne]
    omega
  have hnew : (queueLeaf sym v s).node[nextSlot s] = e := by show (s.node.set (nextSlot s) e)[nextSlot s] = e; simp
  refine List.rel_append (hq.imp fun i t ht => ht.congr (by omega) hsame) (.cons ⟨⟨by omega, ?_, ?_⟩, ?_⟩ .nil)
  · rw [hnew]
  · rw [hnew]
  · simp only [WeightsAt]; rw [hnew, ← hv]

/-- The queue after the leaves of the bytes below `i`. -/
def LeavesQueued (s : State) (f : List Tree) : Prop :=
  List.Forall₂ (BuiltAt s.node s.nNodes.toNat (leafWeight s.cnt)) s.pq f ∧ s.nLeaf.toNat = f.length ∧
    s.nNodes.toNat = f.length ∧ s.nInt = 0#9 ∧ (queueSlots s.node s.pq f).Nodup

theorem LeavesQueued.queueLeaf {s : State} {f : List Tree} {sym : Sym} {v : Weight} (h : LeavesQueued s f)
    (hl : f.length ≤ 256) (hv : v.toNat = leafWeight s.cnt sym) : LeavesQueued (queueLeaf sym v s) (f ++ [.leaf sym]) := by
  obtain ⟨h1, h2, h3, h4, h5⟩ := h
  have hs := nextSlot_val (s := s) (by unfold nodeCap; omega)
  refine ⟨queueLeaf_holds (by unfold nodeCap; omega) h1 hv, ?_, ?_, h4, ?_⟩
  · rw [show (Machine.queueLeaf sym v s).nLeaf = s.nLeaf + 1#9 from rfl, toNat_add_one (by omega), h2]; simp
  · rw [show (Machine.queueLeaf sym v s).nNodes = s.nNodes + 1#10 from rfl, toNat_add_one (by omega), h3]; simp
  · show (queueSlots (s.node.set (nextSlot s) _) (s.pq ++ [nextSlot s]) (f ++ [.leaf sym])).Nodup
    rw [queueSlots_append h1, queueSlots_congr (fun j hj => ?_) h1]
    · refine (List.Perm.nodup_iff List.perm_append_comm).mpr (List.nodup_cons.mpr ⟨fun h => ?_, h5⟩)
      have := queueSlots_lt h1 _ h
      omega
    · simp only [Fin.getElem_fin]
      rw [Vector.getElem_set_ne]
      omega

/-- The leaf loop from symbol `i` to its end, with `k` byte symbols left (R121). -/
theorem buildLeaf_leads (k : Nat) : ∀ (i : Nat) (s : State), i + k = 256 → s.busy = true → s.pos = .buildLeaf i →
    LeavesQueued s (leavesBelow s.cnt i) →
    ∃ (nodes : Vector NodeEntry nodeCap) (nn : BitVec 10) (nl : BitVec 9) (pq : List NodeIx),
      Leads (k + 1) s { s with node := nodes, nNodes := nn, nLeaf := nl, pq := pq, pos := .buildMerge } ∧
      LeavesQueued { s with node := nodes, nNodes := nn, nLeaf := nl, pq := pq, pos := .buildMerge } (leafForest s.cnt) := by
  induction k with
  | zero =>
    intro i s hi hb hp hq
    obtain rfl : i = 256 := by omega
    have h := Leads.step hb hp
    rw [show stepAt (.buildLeaf 256) s = buildLeafStep 256 s from rfl, buildLeafStep, if_neg (by omega)] at h
    have hq1 := hq.queueLeaf (sym := eos) (v := 1#40) (by simpa using length_leavesBelow s.cnt 256) (by
      simp [leafWeight, eos])
    exact ⟨_, _, _, _, h, hq1⟩
  | succ k ih =>
    intro i s hi hb hp hq
    have h := Leads.step hb hp
    have hlt : i < 256 := by omega
    have hrd := readCnt_of_lt hlt s
    have hbelow := leavesBelow_succ s.cnt hlt
    have hlen := length_leavesBelow s.cnt i
    have hw := leafWeight_byte s.cnt hlt
    rw [show stepAt (.buildLeaf i) s = buildLeafStep i s from rfl, buildLeafStep, if_pos hlt, hrd] at h
    generalize s.cnt[i] = v at *
    by_cases hc : 0 < v.toNat
    · rw [if_pos hc] at h hbelow
      have hq1 := hq.queueLeaf (sym := BitVec.ofNat 9 i) (v := v.setWidth 40) (by omega) (by
          rw [hw, BitVec.toNat_setWidth, Nat.mod_eq_of_lt]
          have := v.isLt; omega)
      rw [← hbelow] at hq1
      generalize hv : v.setWidth 40 = x at *
      obtain ⟨nodes, nn, nl, pq, hlead, hq2⟩ := ih (i + 1) (goto (.buildLeaf (i + 1)) (queueLeaf (BitVec.ofNat 9 i) x s))
        (by omega) hb rfl hq1
      exact ⟨nodes, nn, nl, pq, (h.trans hlead).mono (by omega), hq2⟩
    · rw [if_neg hc] at h hbelow
      rw [List.append_nil] at hbelow
      rw [← hbelow] at hq
      obtain ⟨nodes, nn, nl, pq, hlead, hq2⟩ := ih (i + 1) (goto (.buildLeaf (i + 1)) s) (by omega) hb rfl hq
      exact ⟨nodes, nn, nl, pq, (h.trans hlead).mono (by omega), hq2⟩

/-! ### What merges keep -/

theorem Merges.symbols_perm {w : Sym → Nat} {f : List Tree} {t : Tree} (h : Merges w f t) :
    t.symbols.Perm (f.flatMap Tree.symbols) := by
  induction h with
  | done t => simp
  | merge f rest a b t hperm _ _ _ ih =>
    refine ih.trans ?_
    refine List.Perm.trans ?_ (List.Perm.flatMap_right _ hperm).symm
    simp only [List.flatMap_append, List.flatMap_cons, List.flatMap_nil, List.append_nil, Tree.symbols]
    rw [← List.append_assoc a.symbols]
    exact List.perm_append_comm

theorem Merges.weight_eq {w : Sym → Nat} {f : List Tree} {t : Tree} (h : Merges w f t) : t.weight w = forestWeight w f := by
  induction h with
  | done t => simp [forestWeight]
  | merge f rest a b t hperm _ _ _ ih =>
    rw [ih, forestWeight_perm hperm]
    simp [forestWeight, Tree.weight]; omega

theorem Merges.ordered {w : Sym → Nat} {f : List Tree} {t : Tree} (h : Merges w f t) (hf : ∀ x ∈ f, x.Ordered w) :
    t.Ordered w := by
  induction h with
  | done t => exact hf t (by simp)
  | merge f rest a b t hperm ha hb _ ih =>
    apply ih
    intro x hx
    have hmem : ∀ y, y = a ∨ y = b ∨ y ∈ rest → y ∈ f := fun y hy => hperm.mem_iff.mpr (by simpa using hy)
    rcases List.mem_append.mp hx with h | h
    · exact hf x (hmem x (.inr (.inr h)))
    · rw [List.mem_singleton.mp h]
      exact ⟨ha b (hmem b (.inr (.inl rfl))), hf a (hmem a (.inl rfl)), hf b (hmem b (.inr (.inl rfl)))⟩

theorem symbols_leaves (l : List Sym) : (l.map Tree.leaf).flatMap Tree.symbols = l := by
  induction l with
  | nil => rfl
  | cons s l ih => rw [List.map_cons, List.flatMap_cons, ih]; rfl

theorem Tree.length_symbols (t : Tree) : t.symbols.length = t.leaves := by
  induction t with
  | leaf s => rfl
  | node l r ihl ihr => simp [Tree.symbols, Tree.leaves, ihl, ihr]

/-- The symbols that BUILD gives a leaf (R121, R128): the bytes with a positive count, in ascending order, and EOS. -/
def countedSymbols (cnt : Vector Word 256) : List Sym :=
  ((List.range 256).map (BitVec.ofNat 9)).filter (fun s => decide (0 < leafWeight cnt s)) ++ [eos]

theorem symbols_leafForest (cnt : Vector Word 256) : (leafForest cnt).flatMap Tree.symbols = countedSymbols cnt := by
  rw [leafForest, List.flatMap_append, symbols_leaves]; rfl

/-- BUILD's body (R120): whatever the draws, the tree comes from the leaves of the counts by merges. -/
theorem build_leads {s : State} (hb : s.busy = true) (hp : s.pos = buildEntry) :
    ∃ (nodes : Vector NodeEntry nodeCap) (nn : BitVec 10) (nl ni : BitVec 9) (i : NodeIx) (d : Nat) (t : Tree),
      Leads 515 s { s with
        treeValid := true, codesValid := false, node := nodes, nNodes := nn, nLeaf := nl, nInt := ni, root := i,
        pq := [], draws := d, pos := .ret } ∧
      BuiltAt nodes nn.toNat (leafWeight s.cnt) i t ∧ Merges (leafWeight s.cnt) (leafForest s.cnt) t ∧
      t.leaves = nl.toNat ∧ t.internals = ni.toNat ∧ nn.toNat = nl.toNat + ni.toNat ∧ nl.toNat ≤ 257 ∧
      (slotsOf nodes i t).Nodup := by
  let s1 : State := { s with
    treeValid := false, codesValid := false, nNodes := 0#10, nLeaf := 0#9, nInt := 0#9, pq := [], pos := .buildLeaf 0 }
  have h0 : Leads 1 s s1 := Leads.step hb hp
  obtain ⟨nodes1, nn1, nl1, pq1, hlead1, hq, hl, hn, hni0, hnd⟩ := buildLeaf_leads 256 0 s1 rfl hb rfl
    ⟨.nil, rfl, rfl, rfl, by simp [queueSlots, s1]⟩
  have hlen : (leafForest s.cnt).length ≤ 257 := by
    have := length_leavesBelow s.cnt 256
    rw [leafForest_eq, List.length_append, List.length_singleton]; omega
  have hpos : 0 < (leafForest s.cnt).length := by rw [leafForest_eq]; simp
  have hl' : nl1.toNat = (leafForest s.cnt).length := hl
  have hn' : nn1.toNat = (leafForest s.cnt).length := hn
  have hpq : pq1.length = (leafForest s.cnt).length := hq.length_eq
  have hw : forestWeight (leafWeight s.cnt) (leafForest s.cnt) < 2 ^ 40 := by
    have h := forestWeight_leavesBelow s.cnt 256
    rw [leafForest_eq, forestWeight, List.map_append, List.sum_append]
    have : leafWeight s.cnt eos = 1 := by simp [leafWeight, eos]
    simp only [List.map_cons, List.map_nil, List.sum_cons, List.sum_nil, Tree.weight, this]
    simp only [forestWeight] at h
    omega
  obtain ⟨k, hk⟩ : ∃ k, (leafForest s.cnt).length = k + 1 := ⟨_, (Nat.succ_pred_eq_of_pos hpos).symm⟩
  obtain ⟨nodes, nn, ni, i, d, t, hlead2, ht, hm, hnn, hni, hndt⟩ := buildMerge_leads k
    { s1 with node := nodes1, nNodes := nn1, nLeaf := nl1, pq := pq1, pos := .buildMerge } (leafWeight s.cnt)
    (leafForest s.cnt) hb rfl (by show pq1.length = _; omega) hq hw
    (by show nn1.toNat = nl1.toNat + 0; omega) (by show 0 + (k + 1) = nl1.toNat; omega) (by show nl1.toNat ≤ 257; omega) hnd
  have hleaves : t.leaves = nl1.toNat := by
    rw [← t.length_symbols, hm.symbols_perm.length_eq, symbols_leafForest, hl', leafForest, countedSymbols]
    simp
  have hint := t.leaves_eq
  have hni' : ni.toNat + 1 = nl1.toNat := hni
  refine ⟨nodes, nn, nl1, ni, i, d, t, ((h0.trans hlead1).trans hlead2).mono (by omega), ht, hm, hleaves, by omega, hnn,
    by omega, hndt⟩

end Sys2Proof.Machine
end

