-- ==== Sys2Proof/Laws/Step.lean ====
section
/-! SUPPORT. What one core step can do to the control state (spec 60_exceptions.md R222 to R225): a step inside a body, an
abort, CLEAR's last writes, or the end of a body. Later proofs cite `coreStep_cases` and do not unfold the steps. -/

namespace Sys2Proof.Machine

/-- The part of the state that a step inside a body leaves alone. -/
structure Control where
  busy : Bool
  done : Bool
  err : Bool
  errCode : BitVec 4
  errOp : Byte
  lastOp : Byte
  cmdDropped : Bool
  selSym : Sym
  selWidx : BitVec 3
  curop : Byte
  todo : List Instr
  source : Source
  script : List Move
  rdata : Word
  checkFailed : Bool

def State.control (s : State) : Control :=
  { busy := s.busy, done := s.done, err := s.err, errCode := s.errCode, errOp := s.errOp, lastOp := s.lastOp,
    cmdDropped := s.cmdDropped, selSym := s.selSym, selWidx := s.selWidx, curop := s.curop, todo := s.todo,
    source := s.source, script := s.script, rdata := s.rdata, checkFailed := s.checkFailed }

/-- A step inside the body of command `i`, from `s` to `t`: the position stays in the body or is its end, and the validity
bits change only as the table of R206 says. -/
structure BodyStep (i : Instr) (s t : State) : Prop where
  same : t.control = s.control
  pos : t.pos = .ret ∨ bodyOf t.pos = some i
  tree : t.treeValid = s.treeValid ∨ i = .build ∨ i = .rdtree
  codes : t.codesValid = s.codesValid ∨ i = .gencodes ∨ ((i = .build ∨ i = .rdtree) ∧ t.codesValid = false ∧ t.treeValid = false)
  treeUp : i = .build ∨ i = .rdtree → (t.codesValid = false ∧ t.treeValid = false) ∨ t.treeValid = s.treeValid ∨ t.treeValid = true
  treeEnd : i = .build ∨ i = .rdtree → t.pos = .ret → t.treeValid = true
  codesEnd : i = .gencodes → t.pos = .ret → t.codesValid = true

/-- An abort inside the body of command `i`: the state just before it, and the error (R225). -/
structure Aborts (i : Instr) (e : ErrCode) (s u : State) : Prop where
  same : u.control = s.control
  tree : u.treeValid = s.treeValid
  codes : u.codesValid = s.codesValid
  raiser : i = .encode ∧ e = .internalTable ∨ i = .rdmagic ∧ (e = .truncated ∨ e = .format) ∨
    i = .rdtree ∧ (e = .truncated ∨ e = .hdrCapacity ∨ e = .hdrSymbol ∨ e = .hdrShape) ∨ i = .decode ∧ e = .truncated

/-- A body step that leaves both validity bits alone, in a body that does not end with one of them set. -/
theorem BodyStep.plain {i : Instr} {s t : State} (h : t.control = s.control) (hp : t.pos = .ret ∨ bodyOf t.pos = some i)
    (ht : t.treeValid = s.treeValid) (hc : t.codesValid = s.codesValid)
    (hi : t.pos = .ret → i ≠ .build ∧ i ≠ .rdtree ∧ i ≠ .gencodes) : BodyStep i s t :=
  ⟨h, hp, .inl ht, .inl hc, fun _ => .inr (.inl ht), fun h h' => absurd h (by have := hi h'; tauto),
    fun h h' => absurd h (hi h').2.2⟩

theorem chanRead_cases (n : Nat) (s : State) :
    (∃ v d, chanRead n s = (some v, { s with inPos := s.inPos + n, draws := d })) ∨
    ∃ d, chanRead n s = (none, { s with draws := d }) := by
  unfold chanRead
  cases sourceRead s.source s.inPos s.draws n with
  | none => exact .inr ⟨_, rfl⟩
  | some v => exact .inl ⟨v, _, rfl⟩

/-- The step at a position of a body is a step inside it or an abort, but for CLEAR's last. -/
theorem stepAt_cases {s : State} {p : Pos} {i : Instr} (hp : s.pos = p) (hi : bodyOf p = some i) (hr : p ≠ .clearRegs) :
    BodyStep i s (stepAt p s) ∨ ∃ e u, stepAt p s = raiseErr e u ∧ Aborts i e s u := by
  cases p <;> simp only [bodyOf, Option.some.injEq, reduceCtorEq] at hi <;> subst hi
  case clearCnt k =>
    left
    show BodyStep _ s (clearCntStep k s)
    unfold clearCntStep writeCnt
    split <;> split <;> exact .plain rfl (.inr rfl) rfl rfl nofun
  case clearCode k =>
    left
    show BodyStep _ s (clearCodeStep k s)
    unfold clearCodeStep writeCode
    split <;> split <;> exact .plain rfl (.inr rfl) rfl rfl nofun
  case clearRegs => exact absurd rfl hr
  case countZero k =>
    left
    show BodyStep _ s (countZeroStep k s)
    unfold countZeroStep writeCnt
    split <;> split <;> exact .plain rfl (.inr rfl) rfl rfl nofun
  case countRead =>
    left
    show BodyStep _ s (countReadStep s)
    unfold countReadStep
    rcases chanRead_cases 8 s with ⟨v, d, h⟩ | ⟨d, h⟩ <;> rw [h]
    · exact .plain rfl (.inr rfl) rfl rfl nofun
    · exact .plain rfl (.inl rfl) rfl rfl fun _ => by decide
  case countBump v =>
    left
    show BodyStep _ s (countBumpStep v s)
    unfold countBumpStep writeCnt
    split <;> exact .plain rfl (.inr rfl) rfl rfl nofun
  case buildStart =>
    left
    exact ⟨rfl, .inr rfl, .inr (.inl rfl), .inr (.inr ⟨.inl rfl, rfl, rfl⟩),
      fun _ => .inl ⟨rfl, rfl⟩, nofun, nofun⟩
  case buildLeaf k =>
    left
    show BodyStep _ s (buildLeafStep k s)
    unfold buildLeafStep
    split
    · split <;> exact .plain rfl (.inr rfl) rfl rfl nofun
    · exact .plain rfl (.inr rfl) rfl rfl nofun
  case buildMerge =>
    left
    show BodyStep _ s (buildMergeStep s)
    have hs : BodyStep .build s s := .plain rfl (.inr (by rw [hp]; rfl)) rfl rfl (by rw [hp]; nofun)
    unfold buildMergeStep
    split
    · unfold mergeStep
      split
      · exact hs
      · split
        · exact hs
        · exact .plain rfl (.inr (by show bodyOf s.pos = _; rw [hp]; rfl)) rfl rfl
            (fun h => by have h : s.pos = .ret := h; rw [hp] at h; cases h)
    · exact ⟨rfl, .inl rfl, .inr (.inl rfl), .inl rfl, fun _ => .inr (.inr rfl), fun _ _ => rfl, nofun⟩
  case genStart =>
    left
    exact ⟨rfl, .inr rfl, .inl rfl, .inr (.inl rfl), nofun, nofun, nofun⟩
  case genZero k =>
    left
    show BodyStep _ s (genZeroStep k s)
    unfold genZeroStep writeCode
    split <;> split <;> exact .plain rfl (.inr rfl) rfl rfl nofun
  case genWalk =>
    left
    have hq : bodyOf s.pos = some .gencodes := by rw [hp]; rfl
    have hn : s.pos ≠ .ret := by rw [hp]; nofun
    show BodyStep _ s (genWalkStep s)
    unfold genWalkStep
    split
    · exact ⟨rfl, .inl rfl, .inl rfl, .inr (.inl rfl), nofun, nofun, fun _ _ => rfl⟩
    · simp only [walkNode, writeCode]
      split
      · split <;> exact .plain rfl (.inr hq) rfl rfl (fun h => absurd h hn)
      · exact .plain rfl (.inr hq) rfl rfl (fun h => absurd h hn)
    · exact .plain rfl (.inr hq) rfl rfl (fun h => absurd h hn)
  case hdrMagic => exact .inl (.plain rfl (.inr rfl) rfl rfl nofun)
  case hdrWalk =>
    left
    have hq : bodyOf s.pos = some .wrhdr := by rw [hp]; rfl
    have hn : s.pos ≠ .ret := by rw [hp]; nofun
    show BodyStep _ s (hdrWalkStep s)
    unfold hdrWalkStep
    split
    · exact .plain rfl (.inl rfl) rfl rfl fun _ => by decide
    · simp only [serNode]
      split
      · exact .plain rfl (.inr rfl) rfl rfl nofun
      · exact .plain rfl (.inr hq) rfl rfl (fun h => absurd h hn)
    · exact .plain rfl (.inr hq) rfl rfl (fun h => absurd h hn)
  case hdrSym sym => exact .inl (.plain rfl (.inr rfl) rfl rfl nofun)
  case rewind => exact .inl (.plain rfl (.inl rfl) rfl rfl fun _ => by decide)
  case encRead =>
    show BodyStep _ s (encReadStep s) ∨ ∃ e u, encReadStep s = raiseErr e u ∧ _
    unfold encReadStep
    rcases chanRead_cases 8 s with ⟨v, d, h⟩ | ⟨d, h⟩ <;> rw [h] <;> simp only [emitEntry] <;> split
    · exact .inl (.plain rfl (.inr rfl) rfl rfl nofun)
    · exact .inr ⟨_, _, rfl, rfl, rfl, rfl, by tauto⟩
    · exact .inl (.plain rfl (.inr rfl) rfl rfl nofun)
    · exact .inr ⟨_, _, rfl, rfl, rfl, rfl, by tauto⟩
  case encEmit left last =>
    left
    show BodyStep _ s (encEmitStep left last s)
    unfold encEmitStep
    split
    · exact .plain rfl (.inr rfl) rfl rfl nofun
    · cases last
      · exact .plain rfl (.inr rfl) rfl rfl nofun
      · exact .plain rfl (.inl rfl) rfl rfl fun _ => by decide
  case rdMagic =>
    show BodyStep _ s (rdMagicStep s) ∨ ∃ e u, rdMagicStep s = raiseErr e u ∧ _
    unfold rdMagicStep
    rcases chanRead_cases 32 s with ⟨v, d, h⟩ | ⟨d, h⟩ <;> rw [h] <;> simp only []
    · split
      · exact .inr ⟨_, _, rfl, rfl, rfl, rfl, by tauto⟩
      · exact .inl (.plain rfl (.inl rfl) rfl rfl fun _ => by decide)
    · exact .inr ⟨_, _, rfl, rfl, rfl, rfl, by tauto⟩
  case treeStart =>
    left
    exact ⟨rfl, .inr rfl, .inr (.inr rfl), .inr (.inr ⟨.inr rfl, rfl, rfl⟩),
      fun _ => .inl ⟨rfl, rfl⟩, nofun, nofun⟩
  case parseBit =>
    show BodyStep _ s (parseBitStep s) ∨ ∃ e u, parseBitStep s = raiseErr e u ∧ _
    unfold parseBitStep
    rcases chanRead_cases 1 s with ⟨v, d, h⟩ | ⟨d, h⟩ <;> rw [h] <;> simp only []
    · split
      · split
        · exact .inr ⟨_, _, rfl, rfl, rfl, rfl, by tauto⟩
        · exact .inl (.plain rfl (.inr rfl) rfl rfl nofun)
      · exact .inl (.plain rfl (.inr rfl) rfl rfl nofun)
    · exact .inr ⟨_, _, rfl, rfl, rfl, rfl, by tauto⟩
  case parseInternal => exact .inl (.plain rfl (.inr rfl) rfl rfl nofun)
  case parseSym =>
    show BodyStep _ s (parseSymStep s) ∨ ∃ e u, parseSymStep s = raiseErr e u ∧ _
    unfold parseSymStep
    rcases chanRead_cases 9 s with ⟨v, d, h⟩ | ⟨d, h⟩ <;> rw [h] <;> simp only []
    · split
      · exact .inr ⟨_, _, rfl, rfl, rfl, rfl, by tauto⟩
      · exact .inl (.plain rfl (.inr rfl) rfl rfl nofun)
    · exact .inr ⟨_, _, rfl, rfl, rfl, rfl, by tauto⟩
  case parseLeaf sym => exact .inl (.plain rfl (.inr rfl) rfl rfl nofun)
  case parseRet k =>
    have hq : bodyOf s.pos = some .rdtree := by rw [hp]; rfl
    have hn : s.pos ≠ .ret := by rw [hp]; nofun
    show BodyStep _ s (parseRetStep k s) ∨ ∃ e u, parseRetStep k s = raiseErr e u ∧ _
    unfold parseRetStep
    split
    · simp only [parseEnd]
      split
      · exact .inr ⟨_, _, rfl, rfl, rfl, rfl, by tauto⟩
      · exact .inl ⟨rfl, .inl rfl, .inr (.inr rfl), .inl rfl, fun _ => .inr (.inr rfl), fun _ _ => rfl, nofun⟩
    · exact .inl (.plain rfl (.inr rfl) rfl rfl nofun)
    · exact .inl (.plain rfl (.inr rfl) rfl rfl nofun)
    · exact .inl (.plain rfl (.inr hq) rfl rfl (fun h => absurd h hn))
  case decStart =>
    left
    show BodyStep _ s (decStartStep s)
    unfold decStartStep
    split
    · exact .plain rfl (.inl rfl) rfl rfl fun _ => by decide
    · exact .plain rfl (.inr rfl) rfl rfl nofun
  case decRead =>
    show BodyStep _ s (decReadStep s) ∨ ∃ e u, decReadStep s = raiseErr e u ∧ _
    unfold decReadStep
    rcases chanRead_cases 1 s with ⟨v, d, h⟩ | ⟨d, h⟩ <;> rw [h] <;> simp only [decArrive]
    · left
      split
      · split
        · exact .plain rfl (.inl rfl) rfl rfl fun _ => by decide
        · exact .plain rfl (.inr rfl) rfl rfl nofun
      · exact .plain rfl (.inr rfl) rfl rfl nofun
    · exact .inr ⟨_, _, rfl, rfl, rfl, rfl, by tauto⟩
  case decEmit => exact .inl (.plain rfl (.inr rfl) rfl rfl nofun)

end Sys2Proof.Machine
end

