-- ==== Sys2Proof/Laws/Control.lean ====
section
/-! SUPPORT. What a core step keeps of the control invariant (spec 10_state.md R24 and R25, 60_exceptions.md R222 to R231), one
lemma for each kind of core step of `stepAt_cases`. -/

namespace Sys2Proof.Machine

theorem BodyStep.inv {i : Instr} {s t : State} (hk : BodyStep i s t) (h : ControlInv s) (hb : s.busy = true)
    (hi : bodyOf s.pos = some i) (hnc : i ≠ .clear ∨ bodyOf t.pos = some .clear) : ControlInv t := by
  obtain ⟨⟨h1, h2, h3, h4⟩, h5, h6, h7, h8⟩ := h
  obtain ⟨j, hj0, hj1, hj2, hj3, hj4⟩ := h7 hb
  obtain rfl : j = i := by
    rcases hj3 with h | h
    · rw [h] at hi; simp [bodyOf] at hi
    · rw [hi] at h; exact (Option.some.inj h).symm
  obtain ⟨hs, hp, ht, hc, hu, he, hg⟩ := hk
  simp only [State.control, Control.mk.injEq] at hs
  obtain ⟨e1,e2,e3,e4,e5,e6,e7,e8,e9,e10,e11,-⟩ := hs
  refine ⟨⟨?_, ?_, ?_, ?_⟩, ?_, ?_, ?_, ?_⟩
  · rw [e1, e2, e3]; exact h1
  · rw [e3, e4, e5]; exact h2
  · rw [e3, e4]; exact h3
  · intro hcv
    rcases hc with hc | rfl | ⟨-, hc, -⟩
    · have h4' := h4 (hc ▸ hcv)
      rcases ht with ht | hbr
      · rw [ht, h4']
      · rcases hu hbr with h | h | h
        · rw [h.1] at hcv; cases hcv
        · rw [h, h4']
        · exact h
    · rcases ht with ht | ht | ht
      · rw [ht]; exact hj4.1
      · cases ht
      · cases ht
    · rw [hc] at hcv; cases hcv
  · rw [e1, hb]; simp; intro hh; rw [hh] at hp; simp [bodyOf] at hp
  · rw [e1, hb]; simp
  · intro _
    have hs' : s.pos ≠ .ret := fun hh => by rw [hh] at hi; cases hi
    have ht' : ¬ (j = .clear ∧ t.pos = .ret) := by
      rintro ⟨rfl, hh⟩
      rcases hnc with h | h
      · exact h rfl
      · rw [hh] at h; cases h
    refine ⟨j, hj0, by rw [e10, hj1, if_neg ht', if_neg (fun h => hs' h.2)], by rw [e11]; exact hj2, hp, ?_⟩
    cases j <;> simp only [ValidWhile, reduceCtorEq, or_false, false_or, or_self, false_and, true_implies] at * <;>
      first | trivial | grind
  · rw [e1, e3]; intro _ hh
    have := h8 hb hh
    rw [hi] at this
    rcases hnc with h | h
    · exact absurd (Option.some.inj this) h
    · exact h

theorem ControlInv.raiseErr {s u : State} (h : ControlInv s) (e : ErrCode)
   (ht : u.treeValid = s.treeValid) (hc : u.codesValid = s.codesValid) : ControlInv (raiseErr e u) := by
  obtain ⟨⟨h1, h2, h3, h4⟩, h5, h6, h7, h8⟩ := h
  refine ⟨⟨?_, ?_, ?_, ?_⟩, ?_, ?_, ?_, ?_⟩ <;> simp [Machine.raiseErr]
  · cases e <;> simp [errCodeOf]
  · rw [ht, hc]; exact h4

theorem ControlInv.clearRegs {s : State} (h : ControlInv s) (hb : s.busy = true) (hp : s.pos = .clearRegs) :
    ControlInv (clearRegsStep s) := by
  obtain ⟨⟨h1, h2, h3, h4⟩, h5, h6, h7, h8⟩ := h
  obtain ⟨j, hj0, hj1, hj2, hj3, hj4⟩ := h7 hb
  rw [hp] at hj3; simp [bodyOf] at hj3; subst hj3
  have hd : s.done = false := by
    cases hh : s.done with
    | false => rfl
    | true => rw [hb] at h1; simp [hh] at h1
  refine ⟨⟨?_, ?_, ?_, ?_⟩, ?_, ?_, ?_, ?_⟩ <;> simp [clearRegsStep, goto, clearState, hb, hd]
  exact ⟨.clear, by decide, fun hn => absurd rfl hn, hj2, trivial⟩

theorem ControlInv.ret {s : State} (h : ControlInv s) (hb : s.busy = true) (hp : s.pos = .ret) :
    ControlInv (retStep s) := by
  obtain ⟨⟨h1, h2, h3, h4⟩, h5, h6, h7, h8⟩ := h
  obtain ⟨j, hj0, hj1, hj2, -, hj4⟩ := h7 hb
  have he : s.err = false := by
    cases hh : s.err with
    | false => rfl
    | true => have := h8 hb hh; rw [hp] at this; simp [bodyOf] at this
  unfold retStep
  split
  · rename_i ht
    refine ⟨⟨?_, ?_, ?_, ?_⟩, ?_, ?_, ?_, ?_⟩ <;> simp [complete, he, h2 he, ht]
    exact h4
  · rename_i i rest ht
    rw [ht] at hj2
    have : i ≠ .nop ∧ entryOf i ≠ .idle ∧ rest ∈ mayFollow i ∧ bodyOf (entryOf i) = some i ∧ entryOf i ≠ .ret := by
      cases j <;> simp [mayFollow, compressSubs, decompressSubs] at hj2 <;> obtain ⟨rfl, rfl⟩ := hj2 <;> decide
    refine ⟨⟨?_, ?_, ?_, ?_⟩, ?_, ?_, ?_, ?_⟩ <;> simp [he, h2 he, hb, this]
    · cases hh : s.done with
      | false => rfl
      | true => rw [hb] at h1; simp [hh] at h1
    · exact h4
    · show ValidWhile i _
      cases j <;> simp [mayFollow, compressSubs, decompressSubs] at hj2 <;> obtain ⟨rfl, rfl⟩ := hj2 <;>
        simp_all [ValidWhile]

theorem ControlInv.congr {s t : State} (h : ControlInv s) (h1 : t.control = s.control) (h2 : t.pos = s.pos) (h3 : t.treeValid = s.treeValid) (h4 : t.codesValid = s.codesValid) : ControlInv t := by
  simp only [State.control, Control.mk.injEq] at h1
  obtain ⟨e1,e2,e3,e4,e5,e6,e7,e8,e9,e10,e11,-⟩ := h1
  unfold ControlInv StatusInv SequencerInv ValidWhile at *
  rw [e1,e2,e3,e4,e5,e10,e11,h2,h3,h4]; exact h

end Sys2Proof.Machine
end

