-- ==== Sys2Proof/Laws/PerInstr.lean ====
section
/-! SUPPORT. Statements for all commands as syntax, one lemma per command. -/

/-- The sub-commands of a command have lower opcodes than it and no sub-commands of their own, and at most the six of
COMPRESS stand in it (spec 46_control.md R203 and R204, 30_encoding.md R93). -/
def Sys2Proof.Laws.Subs.Statement (i : Sys2Proof.Instr) : Prop :=
  (∀ j ∈ Sys2Proof.Machine.subsOf i,
    (Sys2Proof.opcode j).toNat < (Sys2Proof.opcode i).toNat ∧ Sys2Proof.Machine.subsOf j = []) ∧
  (Sys2Proof.Machine.subsOf i).length ≤ 6

namespace Sys2Proof.Laws.Subs

theorem nop : Statement .nop := by unfold Statement; decide
theorem clear : Statement .clear := by unfold Statement; decide
theorem count : Statement .count := by unfold Statement; decide
theorem build : Statement .build := by unfold Statement; decide
theorem gencodes : Statement .gencodes := by unfold Statement; decide
theorem wrhdr : Statement .wrhdr := by unfold Statement; decide
theorem rewind : Statement .rewind := by unfold Statement; decide
theorem encode : Statement .encode := by unfold Statement; decide
theorem rdmagic : Statement .rdmagic := by unfold Statement; decide
theorem rdtree : Statement .rdtree := by unfold Statement; decide
theorem decode : Statement .decode := by unfold Statement; decide
theorem compress : Statement .compress := by unfold Statement; decide
theorem decompress : Statement .decompress := by unfold Statement; decide

end Sys2Proof.Laws.Subs
end

