-- ==== Sys2Proof/Laws/Streams.lean ====
section
/-! SUPPORT. The loops of ENCODE (spec 44_stream_encoder.md R180 to R182) and of DECODE (45_stream_decoder.md R190 to R192)
on a finite input, and RDMAGIC (43_header_codec.md R152). -/

namespace Sys2Proof.Machine

/-- `codeTable` depends on the code store only. -/
theorem codeTable_congr {s t : State} (h : t.code = s.code) : codeTable t = codeTable s := by
  funext i; simp [codeTable, readCode, h]

theorem length_codeBits (e : CodeEntry) : (codeBits e).length < 512 := by
  simp only [codeBits, List.length_map, List.length_range]
  exact e.len.isLt

/-- `emit` appends the code bits that it has left (R181). -/
theorem encEmit_leads (left : Bits) : ∀ (s : State) (last : Bool), s.busy = true → s.pos = .encEmit left last →
    Leads (left.length + 1) s { s with out := s.out ++ left, pos := if last then .ret else .encRead } := by
  induction left with
  | nil =>
    intro s last hb hp
    have h := Leads.step hb hp
    rw [show stepAt (.encEmit [] last) s = encEmitStep [] last s from rfl, encEmitStep, goto] at h
    rw [List.append_nil]
    exact h
  | cons b left ih =>
    intro s last hb hp
    have h := Leads.step hb hp
    rw [show stepAt (.encEmit (b :: left) last) s = encEmitStep (b :: left) last s from rfl, encEmitStep, chanWrite,
      bin_one_ofBool, goto] at h
    have h2 := ih { s with out := s.out ++ [b], pos := .encEmit left last } last hb rfl
    rw [show s.out ++ b :: left = s.out ++ [b] ++ left by simp]
    exact (h.trans h2).mono (by simp; omega)

/-- Where ENCODE ends: done, or with INTERNAL_TABLE (R180). -/
def encodeEnd (r : Bits × Nat × Bool) (s : State) : State :=
  let t := { s with out := s.out ++ r.1, inPos := s.inPos + 8 * r.2.1 }
  if r.2.2 then goto .ret t else goto .encRead t |> raiseErr .internalTable

/-- ENCODE's body on a finite input (R180 to R182). -/
theorem encRead_leads (bytes : List Byte) : ∀ s : State, bytesOf s.rest = bytes → FiniteInput s → s.busy = true →
    s.pos = .encRead → Leads (513 * bytes.length + 513) s (encodeEnd (refEncode (codeTable s) bytes) s) := by
  induction bytes with
  | nil =>
    intro s hr hf hb hp
    have h8 : s.rest.length < 8 := by
      by_contra hge
      have := length_bytesOf s.rest
      rw [hr] at this
      simp at this; omega
    have h := Leads.step hb hp
    rw [show stepAt .encRead s = encReadStep s from rfl, encReadStep, chanRead_end hf h8] at h
    simp only [emitEntry] at h
    simp only [refEncode, codeTable]
    by_cases hv : (readCode 256 s).valid = true
    · rw [if_pos hv, goto] at h
      have h2 := encEmit_leads (codeBits (readCode 256 s))
        { s with pos := .encEmit (codeBits (readCode 256 s)) true } true hb rfl
      have hl := length_codeBits (readCode 256 s)
      simp only [hv, if_true, encodeEnd, goto]
      exact (h.trans h2).mono (by simp; omega)
    · rw [if_neg hv] at h
      simp only [hv, Bool.false_eq_true, if_false, encodeEnd, goto, List.append_nil]
      exact h.mono (by simp)
  | cons b bytes ih =>
    intro s hr hf hb hp
    have h8 : 8 ≤ s.rest.length := by
      by_contra hlt
      rw [bytesOf_of_lt (by omega)] at hr
      cases hr
    rw [bytesOf_of_le h8, List.cons.injEq] at hr
    have h := Leads.step hb hp
    rw [show stepAt .encRead s = encReadStep s from rfl, encReadStep, chanRead_val hf h8, hr.1] at h
    simp only [emitEntry] at h
    rw [show readCode b.toNat { s with inPos := s.inPos + 8 } = readCode b.toNat s from rfl] at h
    simp only [refEncode, codeTable]
    by_cases hv : (readCode b.toNat s).valid = true
    · rw [if_pos hv, goto] at h
      let e := codeBits (readCode b.toNat s)
      have h2 := encEmit_leads e { s with inPos := s.inPos + 8, pos := .encEmit e false } false hb rfl
      have h3 := ih { s with inPos := s.inPos + 8, out := s.out ++ e, pos := .encRead }
        (by rw [show State.rest { s with inPos := s.inPos + 8, out := s.out ++ e, pos := .encRead } =
              s.rest.drop 8 from rest_advance 8]; exact hr.2) (hf.congr rfl) hb rfl
      have hc : codeTable { s with inPos := s.inPos + 8, out := s.out ++ e, pos := .encRead } = codeTable s :=
        codeTable_congr rfl
      rw [hc] at h3
      have hl : e.length < 512 := length_codeBits (readCode b.toNat s)
      have h4 := ((h.trans h2).trans h3).mono (show _ ≤ 513 * (b :: bytes).length + 513 by simp; omega)
      simp only [hv, if_true]
      convert h4 using 1
      simp only [encodeEnd, List.append_assoc, Nat.mul_add, Nat.mul_one, Nat.add_assoc, Nat.add_comm 8, e]
      rfl
    · rw [if_neg hv] at h
      simp only [hv, Bool.false_eq_true, if_false, encodeEnd, goto, List.append_nil]
      exact h.mono (by simp)

/-- RDMAGIC's body on a finite input (R152, R160). -/
theorem rdmagic_leads {s : State} (hf : FiniteInput s) (hb : s.busy = true) (hp : s.pos = rdmagicEntry) :
    Leads 1 s (if s.rest.length < 32 then raiseErr .truncated s
      else if natOfBits (s.rest.take 32) = Config.magic.toNat then { s with inPos := s.inPos + 32, pos := .ret }
      else raiseErr .format { s with inPos := s.inPos + 32 }) := by
  have h := Leads.step hb hp
  rw [show stepAt rdmagicEntry s = rdMagicStep s from rfl, rdMagicStep] at h
  by_cases hl : s.rest.length < 32
  · rw [chanRead_end hf hl] at h
    rw [if_pos hl]
    exact h
  · rw [chanRead_val hf (by omega)] at h
    rw [if_neg hl]
    have hlt : natOfBits (s.rest.take 32) < 2 ^ 32 := by
      have := natOfBits_lt (s.rest.take 32)
      rwa [List.length_take, Nat.min_eq_left (by omega)] at this
    have heq : BitVec.ofNat 32 (natOfBits (s.rest.take 32)) = Config.magic ↔
        natOfBits (s.rest.take 32) = Config.magic.toNat := by
      rw [← BitVec.toNat_inj, BitVec.toNat_ofNat, Nat.mod_eq_of_lt hlt]
    by_cases hm : natOfBits (s.rest.take 32) = Config.magic.toNat
    · rw [if_pos hm]
      simp only [if_neg (not_not.mpr (heq.mpr hm))] at h
      exact h
    · rw [if_neg hm]
      simp only [if_pos (mt heq.mp hm)] at h
      exact h

/-- The tree of a node is one of the two kinds; what the store holds there. -/
theorem HoldsAt.leaf_eq {nodes : Vector NodeEntry nodeCap} {n : Nat} {i : NodeIx} {t : Tree} (h : HoldsAt nodes n i t) :
    nodes[i].leaf = match t with | .leaf _ => true | .node _ _ => false := by
  cases t with
  | leaf s => exact h.2.1
  | node l r => exact h.2.1

/-- Where DECODE ends: done, or with TRUNCATED; `i` is the cursor (R190). -/
def decodeEnd (r : List Byte × Nat × Bool) (i : NodeIx) (s : State) : State :=
  let t := { s with out := s.out ++ bitsOfBytes r.1, inPos := s.inPos + r.2.1, cur := i }
  if r.2.2 then goto .ret t else raiseErr .truncated t

theorem decodeEnd_step {s : State} {r : List Byte × Nat × Bool} {bytes : List Byte} {i j : NodeIx} {p : Pos} {k : Nat} :
    decodeEnd r i { s with out := s.out ++ bitsOfBytes bytes, inPos := s.inPos + k, cur := j, pos := p } =
      decodeEnd (bytes ++ r.1, r.2.1 + k, r.2.2) i s := by
  have h : bitsOfBytes (bytes ++ r.1) = bitsOfBytes bytes ++ bitsOfBytes r.1 := by simp [bitsOfBytes]
  simp only [decodeEnd, h, List.append_assoc, Nat.add_assoc, Nat.add_comm k]
  rfl

/-- DECODE's loop on a finite input, with the cursor at an internal node that holds `cur` (R190, R191). -/
theorem decRead_leads (root : Tree) (bs : Bits) : ∀ (s : State) (n : Nat) (l r : Tree), s.rest = bs → FiniteInput s →
    s.busy = true → s.pos = .decRead → HoldsAt s.node n s.root root → (∃ a b, root = .node a b) →
    HoldsAt s.node n s.cur (.node l r) →
    ∃ i, Leads (2 * bs.length + 1) s (decodeEnd (refDecode root (.node l r) bs) i s) := by
  induction bs with
  | nil =>
    intro s n l r hr hf hb hp _ _ _
    have h := Leads.step hb hp
    rw [show stepAt .decRead s = decReadStep s from rfl, decReadStep, chanRead_end hf (by simp [hr])] at h
    refine ⟨s.cur, ?_⟩
    simp only [refDecode, decodeEnd, bitsOfBytes_nil, List.append_nil, Nat.add_zero, Bool.false_eq_true, if_false]
    exact h
  | cons b bs ih =>
    intro s n l r hr hf hb hp hroot hnode ht
    have h := Leads.step hb hp
    rw [show stepAt .decRead s = decReadStep s from rfl, decReadStep, chanRead_one hf hr] at h
    simp only [readNode_eq] at h
    have hrest : ∀ {u : State}, u.source = s.source → u.inPos = s.inPos + 1 → u.rest = bs := by
      intro u h₁ h₂
      rw [rest_congr (s := { s with inPos := s.inPos + 1 }) h₁ h₂, rest_advance 1, hr]; rfl
    have hc : HoldsAt s.node n (childOf (BitVec.ofBool b) s.node[s.cur]) (if b then r else l) := by
      cases b
      · exact ht.2.2.1
      · exact ht.2.2.2
    generalize hi : childOf (BitVec.ofBool b) s.node[s.cur] = i at h hc
    simp only [decArrive, readNode_eq] at h
    simp only [refDecode]
    generalize (if b then r else l) = t at hc
    cases t with
    | leaf sym =>
      simp only [hc.2.1, hc.2.2, if_true] at h
      by_cases he : sym = eos
      · refine ⟨i, ?_⟩
        simp only [he, if_true, goto] at h ⊢
        simp only [decodeEnd, bitsOfBytes_nil, List.append_nil, if_true]
        exact h.mono (by omega)
      · simp only [he, if_false, goto] at h ⊢
        have h2 := Leads.step (p := .decEmit) (s := { s with inPos := s.inPos + 1, cur := i, pos := .decEmit }) hb rfl
        rw [show ∀ u, stepAt .decEmit u = decEmitStep u from fun _ => rfl, decEmitStep] at h2
        simp only [chanWrite, readNode_eq, hc.2.2] at h2
        obtain ⟨a, c', rfl⟩ := hnode
        obtain ⟨k, h3⟩ := ih { s with
          out := s.out ++ bin 8 (sym.extractLsb' 0 8), inPos := s.inPos + 1, cur := s.root, pos := .decRead }
          n a c' (hrest rfl rfl) (hf.congr rfl) hb rfl hroot ⟨a, c', rfl⟩ hroot
        refine ⟨k, ?_⟩
        have h4 := ((h.trans h2).trans h3).mono (show _ ≤ 2 * (b :: bs).length + 1 by simp; omega)
        have hb1 : bin 8 (sym.extractLsb' 0 8) = bitsOfBytes [sym.extractLsb' 0 8] := by simp
        rw [hb1, decodeEnd_step] at h4
        exact h4
    | node l' r' =>
      simp only [hc.2.1, Bool.false_eq_true, if_false, goto] at h
      obtain ⟨k, h3⟩ := ih { s with inPos := s.inPos + 1, cur := i, pos := .decRead } n l' r' (hrest rfl rfl)
        (hf.congr rfl) hb rfl hroot hnode hc
      refine ⟨k, ?_⟩
      have h4 := (h.trans h3).mono (show _ ≤ 2 * (b :: bs).length + 1 by simp; omega)
      have h5 : ({ s with inPos := s.inPos + 1, cur := i, pos := .decRead } : State) =
          { s with out := s.out ++ bitsOfBytes [], inPos := s.inPos + 1, cur := i, pos := .decRead } := by simp
      rw [h5, decodeEnd_step] at h4
      exact h4

/-- DECODE's body on a finite input and a tree that the node store holds (R190, R192). -/
theorem decode_leads {s : State} {t : Tree} {n : Nat} (hf : FiniteInput s) (hb : s.busy = true) (hp : s.pos = decodeEntry)
    (ht : HoldsAt s.node n s.root t) :
    ∃ i, Leads (2 * s.rest.length + 2) s (decodeEnd (refDecodeAll t s.rest) i s) := by
  have h := Leads.step hb hp
  rw [show stepAt decodeEntry s = decStartStep s from rfl, decStartStep, readNode_eq, ht.leaf_eq] at h
  cases t with
  | leaf sym =>
    refine ⟨s.cur, ?_⟩
    simp only [if_true, goto] at h
    simp only [refDecodeAll, decodeEnd, bitsOfBytes_nil, List.append_nil, Nat.add_zero, if_true]
    exact h.mono (by omega)
  | node l r =>
    simp only [Bool.false_eq_true, if_false] at h
    obtain ⟨i, h2⟩ := decRead_leads (.node l r) s.rest { s with cur := s.root, pos := .decRead } n l r rfl
      (hf.congr rfl) hb rfl ht ⟨l, r, rfl⟩ ht
    refine ⟨i, ?_⟩
    simp only [refDecodeAll]
    exact (h.trans h2).mono (by omega)

end Sys2Proof.Machine
end

