-- ==== Sys2Proof/Laws/RoundTrip.lean ====
section
/-! SUPPORT. The reference codec undoes itself (spec 43_header_codec.md R159, 45_stream_decoder.md R196): the parse of a tree
description gives the tree back, and the decode of an encoded payload gives the bytes back. -/

namespace Sys2Proof.Machine

theorem Tree.length_ser (t : Tree) : t.ser.length = t.internals + 10 * t.leaves := by
  induction t with
  | leaf s => simp [Tree.ser, Tree.internals, Tree.leaves]
  | node l r ihl ihr => simp [Tree.ser, Tree.internals, Tree.leaves, ihl, ihr]; omega

/-- The parse of a description gives the tree back, and reads exactly the description (R159). -/
theorem refParse_ser (t : Tree) : ∀ (fuel n : Nat) (rest : Bits), t.internals < fuel → n + t.internals ≤ 256 →
    (∀ x ∈ t.symbols, x.toNat ≤ 256) →
    refParse fuel (t.ser ++ rest) n = .tree t t.ser.length (n + t.internals) := by
  induction t with
  | leaf s =>
    intro fuel n rest hf _ hs
    obtain ⟨fuel, rfl⟩ : ∃ k, fuel = k + 1 := ⟨fuel - 1, by omega⟩
    have h : (bin 9 s ++ rest).take 9 = bin 9 s := by
      rw [List.take_append_of_le_length (by simp), List.take_of_length_le (by simp)]
    have hs' : s.toNat ≤ 256 := hs s (by simp [Tree.symbols])
    simp only [Tree.ser, List.cons_append, refParse, h, natOfBits_bin, List.length_append, length_bin, List.length_cons,
      BitVec.ofNat_toNat, BitVec.setWidth_eq, Tree.internals, Nat.add_zero]
    rw [if_neg (by omega), if_neg (by omega)]
  | node l r ihl ihr =>
    intro fuel n rest hf hn hs
    obtain ⟨fuel, rfl⟩ : ∃ k, fuel = k + 1 := ⟨fuel - 1, by omega⟩
    simp only [Tree.internals] at hf hn ⊢
    have hl := ihl fuel (n + 1) (r.ser ++ rest) (by omega) (by omega) fun x hx => hs x (by simp [Tree.symbols, hx])
    have hr := ihr fuel (n + 1 + l.internals) rest (by omega) (by omega) fun x hx => hs x (by simp [Tree.symbols, hx])
    simp only [Tree.ser, List.cons_append, List.append_assoc, refParse]
    rw [if_neg (by omega), hl]
    simp only [List.drop_left, hr, List.length_cons, List.length_append]
    congr 1 <;> omega

theorem refTree_ser {t : Tree} (rest : Bits) (hi : t.internals ≤ 256) (hs : ∀ x ∈ t.symbols, x.toNat ≤ 256)
    (hroot : ∀ x, t = .leaf x → x = eos) : refTree (t.ser ++ rest) = .tree t t.ser.length t.internals := by
  rw [refTree, refParse_ser t 257 0 rest (by omega) (by omega) hs, Nat.zero_add]
  cases t with
  | leaf x => simp [hroot x rfl]
  | node l r => rfl

/-! ### Payload -/

theorem Tree.codeFor_mem {t : Tree} {s : Sym} {p : Bits} (h : t.codeFor s = some p) : (s, p) ∈ t.paths := by
  rw [Tree.codeFor, Option.map_eq_some_iff] at h
  obtain ⟨q, hq, rfl⟩ := h
  have hm := List.mem_of_getLast? hq
  simp only [List.mem_filter, beq_iff_eq] at hm
  rw [← hm.2]; exact hm.1

/-- A symbol has a code iff a leaf has it (R144). -/
theorem Tree.codeFor_isSome {t : Tree} {s : Sym} : (t.codeFor s).isSome ↔ s ∈ t.symbols := by
  rw [Tree.codeFor, Option.isSome_map, t.symbols_eq_paths, Option.isSome_iff_ne_none, Ne, List.getLast?_eq_none_iff, List.filter_eq_nil_iff]
  simp only [List.mem_map, beq_iff_eq, not_forall, not_not]
  exact ⟨fun ⟨q, hq, h⟩ => ⟨q, hq, h⟩, fun ⟨q, hq, h⟩ => ⟨q, hq, h⟩⟩

/-- The decoder, at a node from which the bits lead to a leaf (R191). -/
theorem refDecode_path (root : Tree) (t : Tree) : ∀ (s : Sym) (q bs : Bits), (s, q) ∈ t.paths → q ≠ [] →
    refDecode root t (q ++ bs) = if s = eos then ([], q.length, true) else
      (s.extractLsb' 0 8 :: (refDecode root root bs).1, (refDecode root root bs).2.1 + q.length, (refDecode root root bs).2.2) := by
  induction t with
  | leaf x =>
    intro s q bs h hq
    simp only [Tree.paths, List.mem_singleton, Prod.mk.injEq] at h
    exact absurd h.2 hq
  | node l r ihl ihr =>
    intro s q bs h _
    simp only [Tree.paths, List.mem_append, List.mem_map, Prod.mk.injEq, Prod.exists] at h
    have key : ∀ (b : Bool) (c : Tree) (p : Bits), (if b then r else l) = c → (s, p) ∈ c.paths →
        (∀ (s : Sym) (q bs : Bits), (s, q) ∈ c.paths → q ≠ [] →
          refDecode root c (q ++ bs) = if s = eos then ([], q.length, true) else
          (s.extractLsb' 0 8 :: (refDecode root root bs).1, (refDecode root root bs).2.1 + q.length,
            (refDecode root root bs).2.2)) →
        refDecode root (.node l r) (b :: p ++ bs) = if s = eos then ([], (b :: p).length, true) else
          (s.extractLsb' 0 8 :: (refDecode root root bs).1, (refDecode root root bs).2.1 + (b :: p).length,
            (refDecode root root bs).2.2) := by
      intro b c p hc hp ih
      rw [List.cons_append, refDecode, hc]
      cases c with
      | leaf x =>
        simp only [Tree.paths, List.mem_singleton, Prod.mk.injEq] at hp
        obtain ⟨rfl, rfl⟩ := hp
        simp
      | node l' r' =>
        have hne : p ≠ [] := by
          rintro rfl
          simp [Tree.paths] at hp
        simp only [ih s p bs hp hne]
        by_cases he : s = eos <;> simp [he, Nat.add_assoc]
    rcases h with ⟨a, p, h1, rfl, rfl⟩ | ⟨a, p, h1, rfl, rfl⟩
    · exact key false l p rfl h1 ihl
    · exact key true r p rfl h1 ihr

theorem byteSym_ne_eos (b : Byte) : BitVec.ofNat 9 b.toNat ≠ eos := by
  intro h
  have := congrArg BitVec.toNat h
  have := b.isLt
  simp [eos] at *
  omega

theorem byteSym_low (b : Byte) : (BitVec.ofNat 9 b.toNat).extractLsb' 0 8 = b := by
  apply BitVec.eq_of_toNat_eq
  have := b.isLt
  simp [BitVec.extractLsb'_toNat]
  omega

/-- The decode of a payload that ENCODE ended done gives the bytes back, and reads exactly the payload (R196). -/
theorem refDecode_refEncode (l r : Tree) (pad : Bits) (bytes : List Byte) :
    (refEncode (treeLook (.node l r)) bytes).2.2 = true →
    refDecode (.node l r) (.node l r) ((refEncode (treeLook (.node l r)) bytes).1 ++ pad) =
      (bytes, (refEncode (treeLook (.node l r)) bytes).1.length, true) := by
  have hne : ∀ (s : Sym) (p : Bits), (s, p) ∈ (Tree.node l r).paths → p ≠ [] := by
    rintro s p h rfl
    simp [Tree.paths] at h
  induction bytes with
  | nil =>
    intro h
    rw [refEncode] at h ⊢
    cases hc : treeLook (.node l r) 256 with
    | none => rw [hc] at h; cases h
    | some c =>
      have hm := Tree.codeFor_mem hc
      simp only [refDecode_path _ _ _ _ pad hm (hne _ _ hm)]
      rw [if_pos (by rfl)]
  | cons b bytes ih =>
    intro h
    rw [refEncode] at h ⊢
    cases hc : treeLook (.node l r) b.toNat with
    | none => rw [hc] at h; cases h
    | some c =>
      rw [hc] at h
      have hm := Tree.codeFor_mem hc
      simp only [List.append_assoc, refDecode_path _ _ _ _ _ hm (hne _ _ hm), if_neg (byteSym_ne_eos b), byteSym_low,
        ih h, List.length_append, Nat.add_comm]

theorem refDecodeAll_refEncode (t : Tree) (pad : Bits) (bytes : List Byte) (hroot : ∀ x, t = .leaf x → x = eos)
    (h : (refEncode (treeLook t) bytes).2.2 = true) :
    refDecodeAll t ((refEncode (treeLook t) bytes).1 ++ pad) = (bytes, (refEncode (treeLook t) bytes).1.length, true) := by
  cases t with
  | node l r => exact refDecode_refEncode l r pad bytes h
  | leaf x =>
    obtain rfl := hroot x rfl
    cases bytes with
    | nil => rfl
    | cons b bytes =>
      have hn : treeLook (.leaf eos) b.toNat = none := by
        have h : ¬ eos = BitVec.ofNat 9 b.toNat := fun h => byteSym_ne_eos b h.symm
        rw [BitVec.ofNat_toNat] at h
        simp [treeLook, Tree.codeFor, Tree.paths, h]
      rw [refEncode, hn] at h
      cases h

/-- ENCODE ends done on bytes that all have codes (R184). -/
theorem refEncode_done {look : Nat → Option Bits} (h256 : (look 256).isSome) (bytes : List Byte) :
    (∀ b ∈ bytes, (look b.toNat).isSome) → (refEncode look bytes).2.2 = true ∧ (refEncode look bytes).2.1 = bytes.length := by
  induction bytes with
  | nil =>
    intro _
    obtain ⟨c, hc⟩ := Option.isSome_iff_exists.mp h256
    simp [refEncode, hc]
  | cons b bytes ih =>
    intro h
    obtain ⟨c, hc⟩ := Option.isSome_iff_exists.mp (h b (by simp))
    have := ih fun x hx => h x (by simp [hx])
    simp [refEncode, hc, this]

/-- ENCODE looks only at the entries of bytes and of EOS. -/
theorem refEncode_congr {f g : Nat → Option Bits} (h : ∀ x ≤ 256, f x = g x) (bytes : List Byte) :
    refEncode f bytes = refEncode g bytes := by
  induction bytes with
  | nil => rw [refEncode, refEncode, h 256 (le_refl _)]
  | cons b bytes ih => have := b.isLt; rw [refEncode, refEncode, h b.toNat (by omega), ih]

end Sys2Proof.Machine
end

