-- ==== Sys2Proof/Laws/TreeStore.lean ====
section
/-! SUPPORT. What the steps of BUILD, RDTREE and the walks do to the part of the tree invariant that their position asks for
(spec 10_state.md R30 to R37): one lemma for each operation on the queue, the open calls of a parse, and the walk stack. -/

namespace Sys2Proof.Machine

theorem PreorderAt.lt {nodes : Vector NodeEntry nodeCap} {t : Tree} : ∀ {lo hi : Nat} {i : NodeIx}, PreorderAt nodes lo hi i t → hi = lo + t.leaves + t.internals ∧ i.val = lo := by
  induction t with
  | leaf s => intro lo hi i h; exact ⟨h.2.1, h.1⟩
  | node l r ihl ihr =>
    intro lo hi i ⟨h1, _, m, h3, h4⟩
    have := ihl h3; have := ihr h4
    simp only [Tree.leaves, Tree.internals]
    omega

theorem PreorderAt.holdsAt {nodes : Vector NodeEntry nodeCap} {n : Nat} {t : Tree} : ∀ {lo hi : Nat} {i : NodeIx}, PreorderAt nodes lo hi i t → hi ≤ n → HoldsAt nodes n i t := by
  induction t with
  | leaf s => intro lo hi i h hn; exact ⟨by have := h.1; have := h.2.1; omega, h.2.2⟩
  | node l r ihl ihr =>
    intro lo hi i h hn
    have hl := h.lt
    obtain ⟨h1, h2, m, h3, h4⟩ := h
    have := h4.lt
    have := h3.lt
    exact ⟨by omega, h2, ihl h3 (by omega), ihr h4 hn⟩

theorem PreorderAt.congr {nodes nodes' : Vector NodeEntry nodeCap} {t : Tree} : ∀ {lo hi : Nat} {i : NodeIx}, PreorderAt nodes lo hi i t →
    (∀ j : NodeIx, lo ≤ j.val → j.val < hi → nodes'[j] = nodes[j]) → PreorderAt nodes' lo hi i t := by
  induction t with
  | leaf s => intro lo hi i ⟨h1, h2, h3, h4⟩ h; have hi := h i (by omega) (by omega); exact ⟨h1, h2, by rw [hi, h3], by rw [hi, h4]⟩
  | node l r ihl ihr =>
    intro lo hi i hh h
    have h0 := hh.lt
    obtain ⟨h1, h2, m, h3, h4⟩ := hh
    have h5 := h3.lt
    have h6 := h4.lt
    have hi := h i (by omega) (by simp only [Tree.leaves, Tree.internals] at h0; omega)
    refine ⟨h1, by rw [hi, h2], m, ?_, ?_⟩
    · rw [hi]; exact ihl h3 fun j hj hj' => h j (by omega) (by omega)
    · rw [hi]; exact ihr h4 fun j hj hj' => h j (by omega) (by omega)

theorem OpenCalls.congr {nodes nodes' : Vector NodeEntry nodeCap} : ∀ {st : List Frame} {m : Nat}, OpenCalls nodes st m →
    (∀ j : NodeIx, j.val < m → nodes'[j] = nodes[j]) → OpenCalls nodes' st m := by
  intro st
  induction st with
  | nil => exact fun h _ => h
  | cons f st ih =>
    intro m h hs
    match f with
    | .left j =>
      obtain ⟨h1, h2, h3⟩ := h
      exact ⟨h1, by rw [hs j (by omega), h2], ih h3 fun k hk => hs k (by omega)⟩
    | .right j =>
      obtain ⟨h1, ⟨l, h2, h2'⟩, h3⟩ := h
      have := h2.lt
      have hj := hs j (by omega)
      exact ⟨by rw [hj, h1], ⟨l, by rw [hj]; exact h2.congr fun k _ hk => hs k hk, h2'⟩, ih h3 fun k hk => hs k (by omega)⟩
    | .visit _ _ => exact h

theorem ParseBegins.start {s : State} : ParseBegins { clearTree s with stack := [], pos := .parseBit } := by
  exact ⟨rfl, rfl, by simp [clearTree], rfl, rfl⟩

theorem ParseBegins.internal {s : State} (h : ParseBegins s) (hn : s.nInt.toNat < 256) :
    ParseBegins (parseInternalStep s) ∧ (parseInternalStep s).nNodes.toNat ≤ 513 ∧ (parseInternalStep s).nLeaf = s.nLeaf ∧ (parseInternalStep s).nInt.toNat = s.nInt.toNat + 1 := by
  obtain ⟨h1, h2, h3, h4, h5⟩ := h
  have hs := nextSlot_val (s := s) (by unfold nodeCap; omega)
  have hN : (parseInternalStep s).nNodes.toNat = s.nNodes.toNat + 1 := toNat_add_one (by omega)
  have hI : (parseInternalStep s).nInt.toNat = s.nInt.toNat + 1 := toNat_add_one (by omega)
  have hnode : (parseInternalStep s).node = s.node.set (nextSlot s) { leaf := false, sym := 0#9, weight := 0, left := 0, right := 0 } := rfl
  refine ⟨⟨h1, ⟨by rw [hN]; omega, ?_, ?_⟩, ?_, ?_, ?_⟩, by omega, rfl, hI⟩
  · rw [hnode]; simp
  · rw [hs]
    refine h2.congr fun j hj => ?_
    rw [hnode]; simp only [Fin.getElem_fin]; rw [Vector.getElem_set_ne]; omega
  · rw [hI]; show s.stack.length + 1 ≤ _; omega
  · rw [hN, hI]; show _ = s.nLeaf.toNat + _; omega
  · rw [hI]
    show s.nLeaf.toNat + (waitLeft (.left (nextSlot s) :: s.stack)) = _
    simp only [waitLeft, List.countP_cons] at h5 ⊢; simp; omega

theorem ParseBegins.leafStep {s : State} {sym : Sym} (h : ParseBegins s) (hn : s.nInt.toNat ≤ 256) (hy : sym.toNat ≤ 256) :
    ParseReturns (nextSlot s) (parseLeafStep sym s) ∧ (parseLeafStep sym s).nNodes.toNat ≤ 513 ∧ (parseLeafStep sym s).nLeaf.toNat ≤ 257 ∧ (parseLeafStep sym s).nInt = s.nInt := by
  obtain ⟨h1, h2, h3, h4, h5⟩ := h
  have hs := nextSlot_val (s := s) (by unfold nodeCap; omega)
  have hN : (parseLeafStep sym s).nNodes.toNat = s.nNodes.toNat + 1 := toNat_add_one (by omega)
  have hL : (parseLeafStep sym s).nLeaf.toNat = s.nLeaf.toNat + 1 := toNat_add_one (by omega)
  have hnode : (parseLeafStep sym s).node = s.node.set (nextSlot s) { leaf := true, sym := sym, weight := 0#40, left := 0, right := 0 } := rfl
  have hst : (parseLeafStep sym s).stack = s.stack := rfl
  have hni : (parseLeafStep sym s).nInt = s.nInt := rfl
  refine ⟨⟨h1, by rw [hst, hni]; exact h3, by rw [hN, hL, hni]; omega, by rw [hL, hst, hni]; omega, s.nNodes.toNat, .leaf sym, ?_, ?_, ?_⟩, by omega, by omega, rfl⟩
  · rw [hst]
    refine h2.congr fun j hj => ?_
    rw [hnode]; simp only [Fin.getElem_fin]; rw [Vector.getElem_set_ne]; omega
  · refine ⟨hs, by rw [hN], ?_, ?_⟩ <;> rw [hnode] <;> simp
  · simpa [SymbolsInRange, Tree.symbols] using hy

theorem ParseReturns.step {s : State} {i : NodeIx} (h : ParseReturns i s) (hn : s.nInt.toNat ≤ 256) :
    (s.stack = [] ∧ ∃ t, HoldsTree { s with root := i } t ∧ (readNode i s).leaf = (match t with | .leaf _ => true | .node _ _ => false) ∧ ∀ x, t = .leaf x → (readNode i s).sym = x) ∨
    (∃ j rest, s.stack = .left j :: rest ∧ ParseBegins (parseRetStep i s)) ∨
    (∃ j rest, s.stack = .right j :: rest ∧ ParseReturns j (parseRetStep i s)) := by
  obtain ⟨h1, h2, h3, h4, m, t, h5, h6, h7⟩ := h
  match hst : s.stack with
  | [] =>
    left
    rw [hst] at h5 h4
    have h5 : m = 0 := h5
    subst h5
    have hlt := h6.lt
    have hle := t.leaves_eq
    have h4 : s.nLeaf.toNat + 0 = _ := h4
    have hh := h6.holdsAt (le_refl _)
    refine ⟨rfl, t, ⟨hh, by show t.leaves = s.nLeaf.toNat; omega, by show t.internals = s.nInt.toNat; omega, by omega, h7⟩, ?_, ?_⟩
    · rw [readNode_eq]; cases t with
      | leaf => exact hh.2.1
      | node => exact hh.2.1
    · rintro x rfl; rw [readNode_eq]; exact hh.2.2
  | .left j :: rest =>
    right; left
    rw [hst] at h5 h4 h2
    obtain ⟨h5a, h5b, h5c⟩ := h5
    refine ⟨j, rest, rfl, ?_⟩
    have e : parseRetStep i s = { writeNode j { readNode j s with left := i } s with stack := .right j :: rest, pos := .parseBit } := by
      simp only [parseRetStep, hst]
    have hnode : (parseRetStep i s).node = s.node.set j { s.node[j] with left := i } := by rw [e]; show s.node.set j { readNode j s with left := i } = _; rw [readNode_eq]
    have hlt := h6.lt
    have hsame : ∀ k : NodeIx, k ≠ j → (parseRetStep i s).node[k] = s.node[k] := by
      intro k hk
      rw [hnode]; simp only [Fin.getElem_fin]; rw [Vector.getElem_set_ne]; intro hh; exact hk (Fin.ext hh.symm)
    have hj : (parseRetStep i s).node[j] = { s.node[j] with left := i } := by rw [hnode]; simp
    refine ⟨by rw [e]; exact h1, ?_, by rw [e]; exact h2, by rw [e]; exact h3, ?_⟩
    · rw [show (parseRetStep i s).stack = .right j :: rest by rw [e], show (parseRetStep i s).nNodes = s.nNodes by rw [e]; rfl]
      refine ⟨by rw [hj]; exact h5b, ⟨t, ?_, h7⟩, ?_⟩
      · rw [hj]
        have : j.val + 1 = m := h5a.symm
        rw [this]
        exact h6.congr fun k hk hk' => hsame k (fun hh => by subst hh; omega)
      · exact h5c.congr fun k hk => hsame k (fun hh => by subst hh; omega)
    · rw [show (parseRetStep i s).stack = .right j :: rest by rw [e]]
      rw [show (parseRetStep i s).nLeaf = s.nLeaf by rw [e]; rfl, show (parseRetStep i s).nInt = s.nInt by rw [e]; rfl]
      simp [waitLeft] at h4 ⊢; omega
  | .right j :: rest =>
    right; right
    rw [hst] at h5 h4 h2
    obtain ⟨h5b, ⟨l, h5l, h5s⟩, h5c⟩ := h5
    refine ⟨j, rest, rfl, ?_⟩
    have e : parseRetStep i s = { writeNode j { readNode j s with right := i } s with stack := rest, pos := .parseRet j } := by
      simp only [parseRetStep, hst]
    have hnode : (parseRetStep i s).node = s.node.set j { s.node[j] with right := i } := by rw [e]; show s.node.set j { readNode j s with right := i } = _; rw [readNode_eq]
    have hlt := h6.lt
    have hltl := h5l.lt
    have hsame : ∀ k : NodeIx, k ≠ j → (parseRetStep i s).node[k] = s.node[k] := by
      intro k hk
      rw [hnode]; simp only [Fin.getElem_fin]; rw [Vector.getElem_set_ne]; intro hh; exact hk (Fin.ext hh.symm)
    have hj : (parseRetStep i s).node[j] = { s.node[j] with right := i } := by rw [hnode]; simp
    have est : (parseRetStep i s).stack = rest := by rw [e]
    have enl : (parseRetStep i s).nLeaf = s.nLeaf := by rw [e]; rfl
    have eni : (parseRetStep i s).nInt = s.nInt := by rw [e]; rfl
    have enn : (parseRetStep i s).nNodes = s.nNodes := by rw [e]; rfl
    simp [waitLeft] at h4 h2
    refine ⟨by rw [e]; exact h1, by rw [est, eni]; omega, by rw [enn, enl, eni]; omega, by rw [est, enl, eni]; simp [waitLeft]; omega, j.val, .node l t, ?_, ?_, ?_⟩
    · rw [est]; exact h5c.congr fun k hk => hsame k (fun hh => by subst hh; omega)
    · rw [enn]
      refine ⟨rfl, by rw [hj]; exact h5b, m, ?_, ?_⟩
      · rw [hj]; exact h5l.congr fun k hk hk' => hsame k (fun hh => by subst hh; omega)
      · rw [hj]; exact h6.congr fun k hk hk' => hsame k (fun hh => by subst hh; omega)
    · intro x hx
      simp [Tree.symbols] at hx
      rcases hx with h | h
      · exact h5s x h
      · exact h7 x h
  | .visit _ _ :: _ => rw [hst] at h5; exact h5.elim

theorem forall₂_sum_internals {R : NodeIx → Tree → Prop} {pq : List NodeIx} {f : List Tree} (h : List.Forall₂ R pq f) :
    (f.map Tree.leaves).sum = (f.map Tree.internals).sum + pq.length := by
  induction h with
  | nil => rfl
  | @cons a t l f h1 h2 ih => simp only [List.map_cons, List.sum_cons, List.length_cons, ih, t.leaves_eq]; omega

theorem QueueHolds.length {s : State} {f : List Tree} (h : QueueHolds s f) : s.nLeaf.toNat = s.nInt.toNat + s.pq.length := by
  obtain ⟨h1, h2, h3, h4⟩ := h
  rw [← h3, ← h4]; exact forall₂_sum_internals h1

theorem QueueHolds.queueLeaf {s : State} {f : List Tree} {sym : Sym} {v : Weight} (h : QueueHolds s f)
    (hn : s.nNodes.toNat < 513) (hl : s.nLeaf.toNat ≤ 256) (hy : sym.toNat ≤ 256) : QueueHolds (queueLeaf sym v s) (f ++ [.leaf sym]) := by
  obtain ⟨h1, h2, h3, h4⟩ := h
  have hs := nextSlot_val (s := s) hn
  have hN : (Machine.queueLeaf sym v s).nNodes.toNat = s.nNodes.toNat + 1 := toNat_add_one (by omega)
  have hL : (Machine.queueLeaf sym v s).nLeaf.toNat = s.nLeaf.toNat + 1 := toNat_add_one (by omega)
  have hnode : (Machine.queueLeaf sym v s).node = s.node.set (nextSlot s) { leaf := true, sym := sym, weight := v, left := 0, right := 0 } := rfl
  have hsame : ∀ j : NodeIx, j.val < s.nNodes.toNat → (Machine.queueLeaf sym v s).node[j] = s.node[j] := by
    intro j hj; rw [hnode]; simp only [Fin.getElem_fin]; rw [Vector.getElem_set_ne]; omega
  refine ⟨List.rel_append (h1.imp fun i t ht => ht.congr (by omega) hsame)
    (.cons ⟨by omega, by rw [hnode]; simp, by rw [hnode]; simp⟩ .nil), ?_, ?_, ?_⟩
  · intro t ht
    rcases List.mem_append.mp ht with h | h
    · exact h2 t h
    · rw [List.mem_singleton.mp h]; simpa [SymbolsInRange, Tree.symbols] using hy
  · rw [hL, List.map_append, List.sum_append, h3]; rfl
  · rw [List.map_append, List.sum_append, h4]; rfl

theorem QueueHolds.merge {s : State} {f : List Tree} (h : QueueHolds s f) (hl : 1 < s.pq.length) (hN : s.nNodes.toNat = s.nLeaf.toNat + s.nInt.toNat)
    (hL : s.nLeaf.toNat ≤ 257) :
    ∃ g, QueueHolds (mergeStep s) g ∧ (mergeStep s).pq.length + 1 = s.pq.length ∧ (mergeStep s).nLeaf = s.nLeaf ∧
      (mergeStep s).nInt.toNat = s.nInt.toNat + 1 ∧ (mergeStep s).nNodes.toNat = s.nNodes.toNat + 1 ∧
      (mergeStep s).treeValid = s.treeValid ∧ (mergeStep s).stack = s.stack ∧ (mergeStep s).pos = s.pos ∧
      ∀ x, x ∈ f.flatMap Tree.symbols → x ∈ g.flatMap Tree.symbols := by
  have hlen := h.length
  obtain ⟨h1, h2, h3, h4⟩ := h
  have hne : s.pq ≠ [] := by rintro hh; rw [hh] at hl; simp at hl
  obtain ⟨a, ha, hamem, -⟩ := extractMin_spec (weightOf s) s.draws hne
  have hla := List.length_erase_of_mem hamem
  have hne2 : s.pq.erase a ≠ [] := by rintro hh; rw [hh] at hla; simp at hla; omega
  obtain ⟨b, hb, hbmem, -⟩ := extractMin_spec (weightOf s) (s.draws + 1) hne2
  have hlb := List.length_erase_of_mem hbmem
  have e : mergeStep s = { newInternal (weightOf s a + weightOf s b) a b s with pq := (s.pq.erase a).erase b ++ [nextSlot s], draws := s.draws + 2 } := by
    simp only [mergeStep, ha, hb]
  obtain ⟨ta, f1, hta, hpa, hfa, -⟩ := forall₂_erase h1 hamem
  obtain ⟨tb, f2, htb, hpb, hfb, -⟩ := forall₂_erase hfa hbmem
  have hp : f.Perm (ta :: tb :: f2) := hpa.trans (hpb.cons ta)
  have hs := nextSlot_val (s := s) (by unfold nodeCap; omega)
  have hN1 : (mergeStep s).nNodes.toNat = s.nNodes.toNat + 1 := by rw [e]; exact toNat_add_one (by omega)
  have hI1 : (mergeStep s).nInt.toNat = s.nInt.toNat + 1 := by rw [e]; exact toNat_add_one (by omega)
  have hnode : (mergeStep s).node = s.node.set (nextSlot s) { leaf := false, sym := 0#9, weight := weightOf s a + weightOf s b, left := a, right := b } := by rw [e]; rfl
  have hsame : ∀ j : NodeIx, j.val < s.nNodes.toNat → (mergeStep s).node[j] = s.node[j] := by
    intro j hj; rw [hnode]; simp only [Fin.getElem_fin]; rw [Vector.getElem_set_ne]; omega
  have hpq : (mergeStep s).pq = (s.pq.erase a).erase b ++ [nextSlot s] := by rw [e]
  have hnl : (mergeStep s).nLeaf = s.nLeaf := by rw [e]; rfl
  have hnew : (mergeStep s).node[nextSlot s] = { leaf := false, sym := 0#9, weight := weightOf s a + weightOf s b, left := a, right := b } := by rw [hnode]; simp
  refine ⟨f2 ++ [.node ta tb], ⟨?_, ?_, ?_, ?_⟩, ?_, hnl, hI1, hN1, by rw [e]; rfl, by rw [e]; rfl, by rw [e]; rfl, ?_⟩
  · rw [hpq]
    refine List.rel_append (hfb.imp fun i t ht => ht.congr (by omega) hsame) (.cons ⟨by omega, by rw [hnew], ?_, ?_⟩ .nil)
    · rw [hnew]; exact hta.congr (by omega) hsame
    · rw [hnew]; exact htb.congr (by omega) hsame
  · intro t ht
    rcases List.mem_append.mp ht with h | h
    · exact h2 t (hp.mem_iff.mpr (by simp [h]))
    · rw [List.mem_singleton.mp h]
      intro x hx
      rcases List.mem_append.mp hx with h | h
      · exact h2 ta (hp.mem_iff.mpr (by simp)) x h
      · exact h2 tb (hp.mem_iff.mpr (by simp)) x h
  · rw [hnl, ← h3, (hp.map _).sum_eq]; simp [Tree.leaves]; omega
  · rw [hI1, ← h4, (hp.map _).sum_eq]; simp [Tree.internals]; omega
  · rw [hpq]; simp; omega
  · intro x hx
    obtain ⟨t, ht, hxt⟩ := List.mem_flatMap.mp hx
    rw [hp.mem_iff] at ht
    simp at ht ⊢
    rcases ht with rfl | rfl | ht
    · right; simp [Tree.symbols, hxt]
    · right; simp [Tree.symbols, hxt]
    · left; exact ⟨t, ht, hxt⟩

/-- Same node store and tree registers. -/
def State.store (s : State) : Vector NodeEntry nodeCap × BitVec 10 × BitVec 9 × BitVec 9 × NodeIx := (s.node, s.nNodes, s.nLeaf, s.nInt, s.root)

theorem HoldsTree.congr {s t : State} {x : Tree} (h : HoldsTree s x) (e : t.store = s.store) : HoldsTree t x := by
  simp only [State.store, Prod.mk.injEq] at e
  obtain ⟨e1, e2, e3, e4, e5⟩ := e
  unfold HoldsTree
  rw [e1, e2, e3, e4, e5]; exact h

theorem WalkHolds.visitNode {s t : State} {ts : List Tree} {i : NodeIx} {p p1 p2 : Bits} {rest : List Frame} (h : WalkHolds s ts)
    (hs : s.stack = .visit i p :: rest) (e : t.store = s.store)
    (hl : s.node[i].leaf = false) (ht : t.stack = .visit s.node[i].left p1 :: .visit s.node[i].right p2 :: rest) : ∃ us, WalkHolds t us := by
  simp only [State.store, Prod.mk.injEq] at e
  obtain ⟨e1, e2, e3, e4, e5⟩ := e
  obtain ⟨h1, h2, h3⟩ := h
  rw [hs] at h1
  cases h1 with
  | @cons _ x _ xs ha hr =>
    obtain ⟨_, _, he, hh⟩ := ha
    cases he
    cases x with
    | leaf y => rw [hh.2.1] at hl; cases hl
    | node l r =>
      refine ⟨l :: r :: xs, ?_, ?_, ?_⟩
      · rw [ht, e1, e2]
        exact .cons ⟨_, _, rfl, hh.2.2.1⟩ (.cons ⟨_, _, rfl, hh.2.2.2⟩ hr)
      · intro z hz
        have := h2 (.node l r) (by simp)
        simp at hz
        rcases hz with rfl | rfl | hz
        · exact fun y hy => this y (by simp [Tree.symbols, hy])
        · exact fun y hy => this y (by simp [Tree.symbols, hy])
        · exact h2 z (by simp [hz])
      · simp [Tree.internals] at h3 ⊢; omega

theorem WalkHolds.visitLeaf {s t : State} {ts : List Tree} {i : NodeIx} {p : Bits} {rest : List Frame} (h : WalkHolds s ts)
    (hs : s.stack = .visit i p :: rest) (e : t.store = s.store)
    (hl : s.node[i].leaf = true) (ht : t.stack = rest) : s.node[i].sym.toNat ≤ 256 ∧ ∃ us, WalkHolds t us := by
  simp only [State.store, Prod.mk.injEq] at e
  obtain ⟨e1, e2, e3, e4, e5⟩ := e
  obtain ⟨h1, h2, h3⟩ := h
  rw [hs] at h1
  cases h1 with
  | @cons _ x _ xs ha hr =>
    obtain ⟨_, _, he, hh⟩ := ha
    cases he
    cases x with
    | node l r => rw [hh.2.1] at hl; cases hl
    | leaf y =>
      refine ⟨by rw [hh.2.2]; exact h2 (.leaf y) (by simp) y (by simp [Tree.symbols]), xs, ?_, fun z hz => h2 z (by simp [hz]), ?_⟩
      · rw [ht, e1, e2]; exact hr
      · simp only [List.map_cons, List.sum_cons] at h3; omega

theorem WalkHolds.length {s : State} {ts : List Tree} (h : WalkHolds s ts) : s.stack.length ≤ 257 := by
  have h1 := h.1.length_eq
  have : ts.length ≤ (ts.map fun t => t.internals + 1).sum := by
    clear h h1
    induction ts with
    | nil => simp
    | cons a l ih => simp; omega
  have := h.2.2
  omega

theorem WalkHolds.same {s t : State} {ts : List Tree} (h : WalkHolds s ts) (e : t.store = s.store) (ht : t.stack = s.stack) : WalkHolds t ts := by
  simp only [State.store, Prod.mk.injEq] at e
  obtain ⟨e1, e2, e3, e4, e5⟩ := e
  unfold WalkHolds; rw [e1, e2, ht]; exact h

theorem WalkHolds.start {s t : State} {x : Tree} (h : HoldsTree s x) (e : t.store = s.store) (ht : t.stack = [.visit s.root []]) : ∃ ts, WalkHolds t ts := by
  simp only [State.store, Prod.mk.injEq] at e
  obtain ⟨e1, e2, e3, e4, e5⟩ := e
  refine ⟨[x], ?_, ?_, ?_⟩
  · rw [ht, e1, e2]; exact .cons ⟨_, _, rfl, h.1⟩ .nil
  · intro t ht; rw [List.mem_singleton.mp ht]; exact h.2.2.2.2
  · have := h.2.2.2.1; simp; omega

theorem TreeInv.same {s t : State} (h : TreeInv s) (e : t.store = s.store) (hv : t.treeValid = s.treeValid)
   (hst : t.stack.length ≤ 257) (hpq : t.pq = s.pq) (hu : usesQueue s.pos = false)
   (h2 : usesStack t.pos = false → t.stack = []) (h3 : PosInv t) : TreeInv t := by
  obtain ⟨g1, g2, g3, g4, g5, g6⟩ := h
  have hq := g4 hu
  refine ⟨?_, ?_, ⟨by rw [hpq, hq]; simp, hst⟩, fun _ => by rw [hpq, hq], h2, h3⟩
  · rw [hv]; intro hh; obtain ⟨x, hx, hx'⟩ := g1 hh; exact ⟨x, hx.congr e, hx'⟩
  · simp only [State.store, Prod.mk.injEq] at e
    rw [e.2.1, e.2.2.1, e.2.2.2.1]; exact g2

theorem TreeInv.raise {s u : State} (h : TreeInv s) (e : u.store = s.store ∨ ∃ i, u.store = ({ s with root := i } : State).store ∧ s.treeValid = false)
  (hv : u.treeValid = s.treeValid) (hpq : u.pq = s.pq) (hu : usesQueue s.pos = false) (x : ErrCode) : TreeInv (raiseErr x u) := by
  obtain ⟨g1, g2, g3, g4, g5, g6⟩ := h
  refine ⟨?_, ?_, ⟨by show u.pq.length ≤ _; rw [hpq]; exact g3.1, by simp [raiseErr]⟩, fun _ => by show u.pq = _; rw [hpq, g4 hu], fun _ => rfl, trivial⟩
  · intro hh
    have hh : u.treeValid = true := hh
    rw [hv] at hh
    rcases e with e | ⟨i, e, e'⟩
    · obtain ⟨x, hx, hx'⟩ := g1 hh; exact ⟨x, (hx.congr e).congr rfl, hx'⟩
    · rw [e'] at hh; cases hh
  · rcases e with e | ⟨i, e, e'⟩ <;>
    · simp only [State.store, Prod.mk.injEq] at e
      show u.nNodes.toNat ≤ _ ∧ u.nLeaf.toNat ≤ _ ∧ u.nInt.toNat ≤ _
      rw [e.2.1, e.2.2.1, e.2.2.2.1]; exact g2

theorem HoldsTree.child {s : State} {l r : Tree} (h : HoldsAt s.node s.nNodes.toNat s.cur (.node l r)) (hy : SymbolsInRange (.node l r)) (v : BitVec 1) :
   ∃ t, HoldsAt s.node s.nNodes.toNat (childOf v s.node[s.cur]) t ∧ SymbolsInRange t := by
  unfold childOf
  split
  · exact ⟨l, h.2.2.1, fun y hx => hy y (by simp [Tree.symbols, hx])⟩
  · exact ⟨r, h.2.2.2, fun y hx => hy y (by simp [Tree.symbols, hx])⟩


end Sys2Proof.Machine
end

