-- ==== Sys2Proof/Machine/ScriptText.lean ====
section
/-! DEFINITION. The text of a host script (30_encoding.md R99 and R100): one statement a line, comments from `;` on, register
names, mnemonics and immediates (log entry 20). A text is a list of characters. -/

namespace Sys2Proof.Machine

/-- A line without its comment (R99). -/
def stripComment (line : List Char) : List Char := line.takeWhile (· ≠ ';')

/-- The word read so far, if it has a letter. -/
def flushWord (acc : List Char) : List (List Char) := if acc.isEmpty then [] else [acc.reverse]

/-- The words of a line; blanks separate them, and a comma is a word of its own. -/
def lexFrom : List Char → List Char → List (List Char)
  | acc, [] => flushWord acc
  | acc, x :: xs =>
    if x = ' ' ∨ x = '\t' ∨ x = '\r' then flushWord acc ++ lexFrom [] xs
    else if x = ',' then flushWord acc ++ [','] :: lexFrom [] xs
    else lexFrom (x :: acc) xs

/-- The value of a digit to base 10 or 16. -/
def digitVal (base : Nat) (x : Char) : Option Nat :=
  let n := x.toNat
  if 48 ≤ n ∧ n ≤ 57 then some (n - 48)
  else if base = 16 ∧ 65 ≤ n ∧ n ≤ 70 then some (n - 55)
  else if base = 16 ∧ 97 ≤ n ∧ n ≤ 102 then some (n - 87)
  else none

/-- The number of a list of digits, most significant first, behind the digits whose number is `a`. -/
def numFrom (base : Nat) : Nat → List Char → Option Nat
  | a, [] => some a
  | a, x :: xs => (digitVal base x).bind fun d => numFrom base (base * a + d) xs

/-- An immediate: a decimal number, or a hexadecimal one behind `0x`, that fits in 32 bits (R99). -/
def readImm (w : List Char) : Option Word :=
  let n := match w with
    | '0' :: 'x' :: d :: ds => numFrom 16 0 (d :: ds)
    | d :: ds => numFrom 10 0 (d :: ds)
    | [] => none
  n.bind fun v => if v < 2 ^ 32 then some (BitVec.ofNat 32 v) else none

/-- The register names (R22). -/
def regNames : List (List Char × Reg) :=
  [(['C', 'M', 'D'], .cmd), (['S', 'T', 'A', 'T', 'U', 'S'], .status), (['E', 'R', 'R', 'I', 'N', 'F', 'O'], .errinfo),
   (['C', 'T', 'R', 'L'], .ctrl), (['M', 'A', 'G', 'I', 'C'], .magic),
   (['T', 'R', 'E', 'E', 'I', 'N', 'F', 'O'], .treeinfo), (['S', 'E', 'L'], .sel),
   (['C', 'O', 'U', 'N', 'T', '_', 'R', 'D'], .countRd), (['C', 'O', 'D', 'E', '_', 'L', 'E', 'N'], .codeLen),
   (['C', 'O', 'D', 'E', '_', 'W', 'O', 'R', 'D'], .codeWord)]

/-- The mnemonics (R93). -/
def mnemonics : List (List Char × Instr) :=
  [(['N', 'O', 'P'], .nop), (['C', 'L', 'E', 'A', 'R'], .clear), (['C', 'O', 'U', 'N', 'T'], .count),
   (['B', 'U', 'I', 'L', 'D'], .build), (['G', 'E', 'N', 'C', 'O', 'D', 'E', 'S'], .gencodes),
   (['W', 'R', 'H', 'D', 'R'], .wrhdr), (['R', 'E', 'W', 'I', 'N', 'D'], .rewind),
   (['E', 'N', 'C', 'O', 'D', 'E'], .encode), (['R', 'D', 'M', 'A', 'G', 'I', 'C'], .rdmagic),
   (['R', 'D', 'T', 'R', 'E', 'E'], .rdtree), (['D', 'E', 'C', 'O', 'D', 'E'], .decode),
   (['C', 'O', 'M', 'P', 'R', 'E', 'S', 'S'], .compress), (['D', 'E', 'C', 'O', 'M', 'P', 'R', 'E', 'S', 'S'], .decompress)]

/-- A statement of one word: `WAIT`, `RESET`, a mnemonic, or a mnemonic with `!` (R99, R100). -/
def readPlain (w : List Char) : Option Stmt :=
  if w = ['W', 'A', 'I', 'T'] then some .wait
  else if w = ['R', 'E', 'S', 'E', 'T'] then some .reset
  else match mnemonics.lookup w with
    | some i => some (.cmd i)
    | none => if w.getLast? = some '!' then (mnemonics.lookup w.dropLast).map .cmdWait else none

/-- A statement with one operand: `RD`, `CMDW` or `SELECT` (R99, R100). -/
def readOne (w a : List Char) : Option Stmt :=
  if w = ['R', 'D'] then (regNames.lookup a).map .rd
  else if w = ['C', 'M', 'D', 'W'] then (readImm a).map .cmdw
  else if w = ['S', 'E', 'L', 'E', 'C', 'T'] then (readImm a).map .select
  else none

/-- A statement with two operands: `WR`, `CHECK` or `SELECT` (R99, R100). -/
def readTwo (w a b : List Char) : Option Stmt :=
  if w = ['W', 'R'] then (regNames.lookup a).bind fun r => (readImm b).map (.wr r)
  else if w = ['C', 'H', 'E', 'C', 'K'] then (regNames.lookup a).bind fun r => (readImm b).map (.check r)
  else if w = ['S', 'E', 'L', 'E', 'C', 'T'] then (readImm a).bind fun x => (readImm b).map (.selectWord x)
  else none

/-- The statement of a line: `some none` for a line with no statement, `none` for a line that is none of R99 and R100. -/
def readLine (line : List Char) : Option (Option Stmt) :=
  match lexFrom [] (stripComment line) with
  | [] => some none
  | [w] => (readPlain w).map some
  | [w, a] => (readOne w a).map some
  | [w, a, [','], b] => (readTwo w a b).map some
  | _ => none

/-- The lines of a text. -/
def linesFrom : List Char → List Char → List (List Char)
  | acc, [] => [acc.reverse]
  | acc, x :: xs => if x = '\n' then acc.reverse :: linesFrom [] xs else linesFrom (x :: acc) xs

/-- The statements of a text, or `none` if some line is no statement. -/
def readScript (text : List Char) : Option (List Stmt) :=
  ((linesFrom [] text).mapM readLine).map fun l => l.filterMap id

end Sys2Proof.Machine
end

