-- ==== Sys2Proof/Tests/Slice0.lean ====
section
/-! SUPPORT. Tests: the well-formedness checks refuse ill-formed terms, words written out from the spec decode, small runs from
spec/95_test_vectors.md, and for the hypotheses of each statement a state that meets them. A test vector is named in the
docstring of its test; where none is, the expected value is worked out by hand from the rule named. -/

namespace Sys2Proof.Tests

open Sys2Proof Sys2Proof.Machine

/-! ### States -/

/-- The state after an outcome that goes on. -/
def after (i : Instr) (s : State) : State :=
  match exec i s with
  | .next t => t
  | .fault _ => s
  | .refused _ => s

/-- A ready block with a finite input. -/
def fed (bs : Bits) : State := { State.reset with source := .bits bs }

/-- A leaf slot and an internal slot of weight 0. -/
def leafSlot (sym : Sym) : NodeEntry := { leaf := true, sym := sym, weight := 0#40, left := 0, right := 0 }
def innerSlot (l r : NodeIx) : NodeEntry := { leaf := false, sym := 0#9, weight := 0#40, left := l, right := r }

/-- The store that holds `((B,EOS),A)` in preorder. -/
def abeNodes : Vector NodeEntry nodeCap :=
  ((((State.reset.node.set 0 (innerSlot 1 4)).set 1 (innerSlot 2 3)).set 2 (leafSlot 66#9)).set 3 (leafSlot eos)).set 4
    (leafSlot 65#9)

/-- The tree `((B,EOS),A)` of the spec's examples (R14). -/
def abe : Machine.Tree := .node (.node (.leaf 66#9) (.leaf eos)) (.leaf 65#9)

/-- A ready block that holds `((B,EOS),A)`, with a finite input. -/
def abeFed (bs : Bits) : State :=
  { fed bs with node := abeNodes, nNodes := 5#10, nLeaf := 3#9, nInt := 2#9, root := 0, treeValid := true }

/-- A ready block that holds `(A,B)`, a tree with no EOS leaf (vector V-T11). -/
def abFed (src : Source) : State :=
  { State.reset with
    node := ((State.reset.node.set 0 (innerSlot 1 2)).set 1 (leafSlot 65#9)).set 2 (leafSlot 66#9),
    nNodes := 3#10, nLeaf := 2#9, nInt := 1#9, root := 0, treeValid := true, source := src }

/-- A ready block with the codes of `((B,EOS),A)` (vector V-G1), with a finite input. -/
def abeCodes (bs : Bits) : State :=
  { fed bs with
    code := ((State.reset.code.set 65 (codeOf [true])).set 66 (codeOf [false, false])).set 256 (codeOf [false, true]),
    treeValid := true, codesValid := true }

/-- A block in the error state, as vector V-A2 leaves it. -/
def inError : State :=
  { State.reset with err := true, errCode := 0x8#4, errOp := 0x0D#8, lastOp := 0x0D#8, curop := 0x0D#8 }

/-- A block that runs REWIND and has rewound. -/
def running : State := { State.reset with busy := true, lastOp := 0x06#8, curop := 0x06#8, pos := .ret }

/-! ### What is not well formed is refused -/

theorem test_access_not_word_wide : ({ offset := 4, bytes := 2, data := none } : Access).wellFormed = false := by decide
theorem test_access_not_aligned : ({ offset := 2, bytes := 4, data := none } : Access).wellFormed = false := by decide
theorem test_access_not_in_window : ({ offset := 0x100, bytes := 4, data := none } : Access).wellFormed = false := by decide
theorem test_access_well_formed : ({ offset := 0xFC, bytes := 4, data := none } : Access).wellFormed = true := by decide
theorem test_word_reserved_bits : legalWord 0x00000101#32 = false := by decide
theorem test_word_reserved_opcode : legalWord 0x0000000D#32 = false := by decide
theorem test_word_legal : legalWord 0x0000000C#32 = true := by decide

/-! ### Words written out from R90 and R93 -/

theorem test_word_nop : decode 0b00000000000000000000000000000000#32 = .ok .nop := by decide
theorem test_word_clear : decode 0b00000000000000000000000000000001#32 = .ok .clear := by decide
theorem test_word_count : decode 0b00000000000000000000000000000010#32 = .ok .count := by decide
theorem test_word_build : decode 0b00000000000000000000000000000011#32 = .ok .build := by decide
theorem test_word_gencodes : decode 0b00000000000000000000000000000100#32 = .ok .gencodes := by decide
theorem test_word_wrhdr : decode 0b00000000000000000000000000000101#32 = .ok .wrhdr := by decide
theorem test_word_rewind : decode 0b00000000000000000000000000000110#32 = .ok .rewind := by decide
theorem test_word_encode : decode 0b00000000000000000000000000000111#32 = .ok .encode := by decide
theorem test_word_rdmagic : decode 0b00000000000000000000000000001000#32 = .ok .rdmagic := by decide
theorem test_word_rdtree : decode 0b00000000000000000000000000001001#32 = .ok .rdtree := by decide
theorem test_word_decode : decode 0b00000000000000000000000000001010#32 = .ok .decode := by decide
theorem test_word_compress : decode 0b00000000000000000000000000001011#32 = .ok .compress := by decide
theorem test_word_decompress : decode 0b00000000000000000000000000001100#32 = .ok .decompress := by decide
theorem test_word_illegal_opcode : decode 0b00000000000000000000000000001101#32 = .error .reservedOpcode := by decide
theorem test_word_illegal_bits : decode 0b10000000000000000000000000000000#32 = .error .reservedBits := by decide

/-! ### One command on a small state -/

/-- R200's example: STATUS = 0x0A1A stays. -/
theorem test_nop_keeps_status :
    statusWord (after .nop { abeFed [] with done := true, codesValid := true, lastOp := 0x0A#8 }) = 0x0A1A#32 := by
  decide +kernel

/-- V-A8: CLEAR leaves the error state and keeps SEL. -/
theorem test_clear_leaves_the_error_state :
    let t := after .clear { inError with selSym := 0x41#9, cmdDropped := true }
    statusWord t = 0x0102#32 ∧ errinfoWord t = 0#32 ∧ selWord t = 0x41#32 := by decide +kernel

/-- R253: hidden state too ends as a reset leaves it. -/
theorem test_clear_resets_curop : (after .clear inError).curop = 0x00#8 ∧ (resetBlock inError).curop = 0x00#8 := by
  decide +kernel

/-- V-C5: ten bits are one byte, and the part-byte is not read. -/
theorem test_count_ignores_a_part_byte :
    let t := after .count (fed (bin 10 0b0100000101#10))
    readCnt 65 t = 1#32 ∧ t.inPos = 8 ∧ statusWord t = 0x0202#32 := by decide +kernel

/-- V-C4, one step of it: a count of 2^32 - 1 stays there. -/
theorem test_count_saturates :
    let s : State := { State.reset with busy := true, pos := .countBump 7#8, cnt := State.reset.cnt.set 7 0xFFFFFFFF#32 }
    readCnt 7 (coreStep s) = 0xFFFFFFFF#32 := by decide +kernel

/-- V-A12 and V-B4: with all counts 0 the tree is the leaf of EOS. -/
theorem test_build_of_nothing :
    let t := after .build State.reset
    statusWord t = 0x030A#32 ∧ treeInfoWord t = 0x00000001#32 := by decide +kernel

/-- V-B2: 7 twice gives `(EOS,7)`, with no tie. -/
theorem test_build_of_one_byte :
    let t := after .build { State.reset with cnt := State.reset.cnt.set 7 2#32 }
    treeInfoWord t = 0x00010002#32 ∧ (readNode (readNode t.root t).left t).sym = eos ∧
      (readNode (readNode t.root t).right t).sym = 7#9 := by decide +kernel

/-- V-B3: among two entries of weight 1 beside one of weight 3 the draw decides (R122). -/
theorem test_extraction_draws (k : Nat) :
    let w : NodeIx → Weight := fun i => if i = 0 then 3#40 else 1#40
    extractMin w k [0, 1, 2] = if Config.tieDraw k % 2 = 0 then some (1, [0, 2]) else some (2, [0, 1]) := by
  have h : minEntries (fun i => if i = 0 then 3#40 else 1#40) [0, 1, 2] = [1, 2] := by decide
  simp only [extractMin, h, drawFrom, List.length_cons, List.length_nil]
  rcases Nat.mod_two_eq_zero_or_one (Config.tieDraw k) with hd | hd <;> simp [hd]

/-- V-G1: the codes of `((B,EOS),A)` as CODE_LEN and CODE_WORD show them. -/
theorem test_gencodes_readback :
    let t := after .gencodes (abeFed [])
    codeLenWord { t with selSym := 65#9 } = 0x80000001#32 ∧ codeWordWord { t with selSym := 65#9 } = 0x80000000#32 ∧
    codeLenWord { t with selSym := 256#9 } = 0x80000002#32 ∧ codeWordWord { t with selSym := 256#9 } = 0x40000000#32 ∧
    codeLenWord { t with selSym := 67#9 } = 0#32 := by decide +kernel

/-- V-G6: without a tree GENCODES raises SEQUENCE. -/
theorem test_gencodes_without_tree :
    let t := after .gencodes State.reset
    statusWord t = 0x0404#32 ∧ errinfoWord t = 0x0407#32 := by decide +kernel

/-- V-H1: 64 bits, of which the last 32 are 0x242C0241. -/
theorem test_wrhdr_description :
    let t := after .wrhdr (abeFed [])
    t.out.length = 64 ∧ t.out.drop 32 = bin 32 0x242C0241#32 := by decide +kernel

/-- V-A11: REWIND from reset. -/
theorem test_rewind : statusWord (after .rewind State.reset) = 0x0602#32 ∧
    (after .rewind { State.reset with inPos := 32 }).inPos = 0 := by decide +kernel

/-- V-E1: the codes of A, A, A, B and EOS. -/
theorem test_encode_codes_and_terminator :
    (after .encode (abeCodes (bitsOfBytes [65#8, 65#8, 65#8, 66#8]))).out = bin 7 0b1110001#7 := by decide +kernel

/-- V-E4: a byte with no code stops the encoder; the third byte is not read. -/
theorem test_encode_byte_without_code :
    let t := after .encode (abeCodes (bitsOfBytes [65#8, 67#8, 65#8]))
    t.out = [true] ∧ errinfoWord t = 0x0703#32 ∧ t.inPos = 16 := by decide +kernel

/-- V-M3: the magic cut after 20 bits. -/
theorem test_rdmagic_truncated :
    let t := after .rdmagic (fed (List.replicate 20 true))
    errinfoWord t = 0x0802#32 ∧ t.inPos = 0 := by decide +kernel

/-- V-T1: a description of `((B,EOS),A)`. -/
theorem test_rdtree_description :
    let t := after .rdtree (fed (bin 32 0x242C0241#32))
    treeInfoWord t = 0x00020003#32 ∧ t.inPos = 32 ∧ (readNode t.root t).leaf = false := by decide +kernel

/-- V-T5: symbol 257. -/
theorem test_rdtree_symbol_out_of_range :
    let t := after .rdtree (fed (bin 12 0b011000000010#12))
    errinfoWord t = 0x0904#32 ∧ t.inPos = 11 ∧ t.treeValid = false := by decide +kernel

/-- V-D1: the payload of A, A, A, B, the terminator and a bit of padding. -/
theorem test_decode_payload :
    let t := after .decode (abeFed (bin 8 0b11100010#8))
    t.out = bitsOfBytes [65#8, 65#8, 65#8, 66#8] ∧ t.inPos = 7 ∧ statusWord t = 0x0A0A#32 := by decide +kernel

/-- V-D3: the payload without its terminator. -/
theorem test_decode_truncated :
    let t := after .decode (abeFed (bin 5 0b11100#5))
    t.out = bitsOfBytes [65#8, 65#8, 65#8, 66#8] ∧ errinfoWord t = 0x0A02#32 := by decide +kernel

/-- P3: empty input gives the magic and `1 100000000`. -/
theorem test_compress_of_nothing :
    let t := after .compress State.reset
    statusWord t = 0x0B1A#32 ∧ t.out.length = 42 ∧ t.out.drop 32 = bin 10 0b1100000000#10 := by decide +kernel

/-- R204: the error of a sub-command has its opcode in ERRINFO. -/
theorem test_decompress_truncated_magic :
    let t := after .decompress (fed (List.replicate 20 true))
    statusWord t = 0x0C04#32 ∧ errinfoWord t = 0x0802#32 := by decide +kernel

/-! ### Acceptance and reset -/

/-- V-A2 and V-A3: illegal words. -/
theorem test_illegal_words :
    statusWord (hostWrite 0x00 0x0000000D#32 State.reset) = 0x0D04#32 ∧
    errinfoWord (hostWrite 0x00 0x0000000D#32 State.reset) = 0x0D08#32 ∧
    statusWord (hostWrite 0x00 0x00000102#32 State.reset) = 0x0204#32 ∧
    errinfoWord (hostWrite 0x00 0x00000102#32 State.reset) = 0x0208#32 := by decide +kernel

/-- V-A5: a word written while COUNT runs is dropped. -/
theorem test_word_dropped_while_busy :
    statusWord (hostWrite 0x00 0x00000003#32 (hostWrite 0x00 0x00000002#32 State.reset)) = 0x0221#32 := by decide +kernel

/-- V-A6 and V-A7: in the error state COUNT and a CLEAR with a reserved bit are dropped. -/
theorem test_word_dropped_in_error_state :
    statusWord (hostWrite 0x00 0x00000002#32 inError) = 0x0D24#32 ∧
    statusWord (hostWrite 0x00 0x00000101#32 inError) = 0x0D24#32 := by decide +kernel

/-- V-A9: a soft reset clears SEL and keeps the channels. -/
theorem test_soft_reset :
    let t := hostWrite 0x0C 0x00000001#32 { abeFed [true] with selSym := 0x41#9, out := [true], inPos := 1 }
    statusWord t = 0#32 ∧ selWord t = 0#32 ∧ t.out = [true] ∧ t.inPos = 1 ∧ t.treeValid = false := by decide +kernel

/-! ### The text of a host script -/

/-- Lines of programs P1, P2 and P5 and of R100. -/
theorem test_script_text :
    readScript "COUNT!            ; (0x00, 0x00000002)\n\nCHECK STATUS, 0x0202\nSELECT 65\nSELECT 66, 7".toList =
      some [.cmdWait .count, .check .status 0x0202#32, .select 65#32, .selectWord 66#32 7#32] := by decide +kernel

/-- An immediate that does not fit in 32 bits, and a register that does not exist. -/
theorem test_script_text_refused :
    readScript "CMDW 0x100000000".toList = none ∧ readScript "RD STATE".toList = none := by decide +kernel

/-- The encoding of P1's first lines, as host writes. -/
theorem test_script_writes :
    ([Stmt.cmdWait .count, .check .status 0x0202#32, .select 65#32].flatMap stmtWrites) =
      [(0x00, 0x00000002#32), (0x18, 0x00000041#32)] := by decide +kernel

/-! ### States that meet the hypotheses of the statements

Each theorem is named after its statement. Where an inner hypothesis is an outcome of a run, the theorem says that some state is
that outcome. -/

/-- Every command of every state goes on to some state. -/
theorem exec_answers (i : Instr) (s : State) : ∃ t, exec i s = .next t := by cases i <;> exact ⟨_, rfl⟩

theorem abe_holds (bs : Bits) : HoldsTree (abeFed bs) abe := by
  have h : HoldsTree (abeFed []) abe := by
    unfold HoldsTree abe
    simp only [HoldsAt]
    decide +kernel
  exact h

theorem ab_holds (src : Source) : HoldsTree (abFed src) (.node (.leaf 65#9) (.leaf 66#9)) := by
  have h : HoldsTree (abFed .endless) (.node (.leaf 65#9) (.leaf 66#9)) := by
    unfold HoldsTree
    simp only [HoldsAt]
    decide +kernel
  exact h

theorem abe_control (bs : Bits) : ControlInv (abeFed bs) := by
  refine ⟨⟨?_, ?_, ?_, ?_⟩, ?_, ?_, ?_, ?_⟩ <;> simp [abeFed, fed, State.reset]

theorem inError_control : ControlInv inError := by
  refine ⟨⟨?_, ?_, ?_, ?_⟩, ?_, ?_, ?_, ?_⟩ <;> simp [inError, State.reset]

theorem running_control : ControlInv running := by
  refine ⟨⟨?_, ?_, ?_, ?_⟩, ?_, ?_, fun _ => ⟨.rewind, ?_⟩, ?_⟩ <;>
    simp [running, State.reset, opcode, mayFollow, ValidWhile]

theorem abe_treeInv (bs : Bits) : TreeInv (abeFed bs) := by
  refine ⟨fun _ => ⟨abe, abe_holds bs, fun _ h => by cases h⟩, ?_⟩
  simp [abeFed, fed, State.reset, usesQueue, usesStack, PosInv]

theorem witness_StepRunsTheDecodedCommand :
    (∃ s : State, ∃ rest, s.script = .call 0x00000002#32 :: rest) ∧ decode 0x00000002#32 = .ok .count ∧
    decodeTableWord 32 0x0C = some .decompress := ⟨⟨{ State.reset with script := [.call 2#32] }, [], rfl⟩, by decide, by decide⟩

theorem witness_CallIsAWriteAndCoreSteps : State.reset.busy = false := rfl

theorem witness_IdleBlockDoesNothing : (abeFed []).busy = false ∧ (abeFed []).script = [] := ⟨rfl, rfl⟩

theorem witness_WordIsDroppedWhileBusy : running.busy = true := rfl

theorem witness_ErrorStateAcceptsOnlyNopAndClear :
    inError.busy = false ∧ inError.err = true ∧ (0x00000002#32 : Word) ≠ 0x00000000#32 ∧ (0x00000002#32 : Word) ≠ 0x00000001#32 ∧
    Instr.count ≠ .nop ∧ Instr.count ≠ .clear := by decide

theorem witness_FirstErrorIsKeptUntilErrIsCleared :
    (ControlInv inError ∧ inError.err = true ∧ ∃ t, step inError = .next t ∧ t.err = true) ∧
    ∃ s t : State, ControlInv s ∧ s.err = true ∧ step s = .next t ∧ t.err = false :=
  ⟨⟨inError_control, rfl, _, rfl, rfl⟩, { inError with script := [.rst] }, _, inError_control, rfl, rfl, rfl⟩

theorem witness_IllegalWordRaisesIllegalCmd :
    0x0C < (0x0000000D#32 : Word).toNat ∧ 0x0C < (0x00000100#32 : Word).toNat ∧ Ready State.reset ∧
    (∃ s : State, ∃ rest, Ready s ∧ s.script = .call 0x0000000D#32 :: rest) ∧ inError.busy = false ∧ inError.err = true :=
  ⟨by decide, by decide, ⟨rfl, rfl⟩, ⟨{ State.reset with script := [.call 0x0000000D#32] }, [], ⟨rfl, rfl⟩, rfl⟩, rfl, rfl⟩

theorem witness_UnmetPrerequisiteRaisesSequence :
    (Ready State.reset ∧ State.reset.treeValid = false ∧ State.reset.codesValid = false) ∧
    Ready (abeCodes []) ∧ (abeCodes []).treeValid = true ∧ (abeCodes []).codesValid = true :=
  ⟨⟨⟨rfl, rfl⟩, rfl, rfl⟩, ⟨rfl, rfl⟩, rfl, rfl⟩

theorem witness_NopChangesNothing :
    inError.busy = false ∧ running.busy = true ∧ (0x00000100#32 : Word).extractLsb' 8 24 ≠ 0#24 ∧
    (0x00000100#32 : Word).extractLsb' 0 8 = 0x00#8 := by decide

theorem witness_ClearClearsAllButSel :
    inError.busy = false ∧ inError.err = true ∧ (0x00000101#32 : Word).extractLsb' 8 24 ≠ 0#24 ∧
    (0x00000101#32 : Word).extractLsb' 0 8 = 0x01#8 := by decide

/-- A ready state: for the statements on REWIND, BUILD, CodesOfABuiltTreeAreComplete and the two statements on BUILD's tree. -/
theorem witness_Ready : Ready (abeFed []) := ⟨rfl, rfl⟩

theorem witness_ClearAgreesWithResetApartFromSel : inError.busy = false ∧ ∃ t, exec .clear inError = .next t :=
  ⟨rfl, exec_answers _ _⟩

/-- For COUNT, RDMAGIC, RDTREE and DECOMPRESS: a ready state with a finite input. -/
theorem witness_CountCountsTheBytesLeft : Ready (fed [true]) ∧ FiniteInput (fed [true]) := ⟨⟨rfl, rfl⟩, _, rfl⟩

theorem witness_CountAndEncodeHangOnAnEndlessChannel :
    let s : State := { State.reset with
      source := .endless, treeValid := true, codesValid := true, code := Vector.replicate 257 (codeOf [true]) }
    Ready s ∧ s.source = .endless ∧ s.codesValid = true ∧ ∀ b : Byte, (readCode b.toNat s).valid = true := by
  refine ⟨⟨rfl, rfl⟩, rfl, rfl, fun b => ?_⟩
  have hb := b.isLt
  rw [readCode_of_lt (by omega), Vector.getElem_replicate, codeOf_valid]

/-- The two bounds of one distinct byte: counts 1 and 2. -/
theorem witness_BuildOfFewSymbols :
    (Ready State.reset ∧ ∀ b : Byte, readCnt b.toNat State.reset = 0#32) ∧
    ∀ v ∈ [1#32, 2#32], ∃ s : State, Ready s ∧ readCnt 7 s = v ∧ ∀ x : Byte, x ≠ 7#8 → readCnt x.toNat s = 0#32 := by
  have h0 : ∀ b : Byte, readCnt b.toNat State.reset = 0#32 := by
    intro b
    rw [readCnt_of_lt b.isLt]
    exact Vector.getElem_replicate ..
  refine ⟨⟨⟨rfl, rfl⟩, h0⟩, fun v _ => ⟨writeCnt 7 v State.reset, ⟨rfl, rfl⟩, ?_, fun x hx => ?_⟩⟩
  · rw [readCnt_of_lt (by decide)]
    exact Vector.getElem_set_self ..
  · have h7 : x.toNat ≠ 7 := fun h => hx (BitVec.eq_of_toNat_eq h)
    rw [← h0 x, readCnt_of_lt x.isLt, readCnt_of_lt x.isLt]
    exact Vector.getElem_set_ne (by decide) _ (Ne.symm h7)

theorem witness_EveryMinimalEntryCanBeDrawn :
    let w : NodeIx → Weight := fun i => if i = 0 then 3#40 else 1#40
    (∃ a rest, extractMin w 0 [0, 1, 2] = some (a, rest)) ∧ [0, 1, 2] ≠ ([] : List NodeIx) ∧
    (2 : NodeIx) ∈ [0, 1, 2] ∧ ∀ b ∈ [0, 1, 2], (w 2).toNat ≤ (w b).toNat := by
  refine ⟨?_, by decide +kernel, by decide +kernel, by decide +kernel⟩
  rw [test_extraction_draws 0]
  split <;> exact ⟨_, _, rfl⟩

/-- For GENCODES, WRHDR and DECODE: a ready state that holds a tree, with a finite input. -/
theorem witness_HoldsTree : Ready (abeFed [true]) ∧ (abeFed [true]).treeValid = true ∧ HoldsTree (abeFed [true]) abe ∧
    FiniteInput (abeFed [true]) ∧ (eos.toNat ≤ 256) ∧ ∀ x, abe = .leaf x → x = eos :=
  ⟨⟨rfl, rfl⟩, rfl, abe_holds _, ⟨_, rfl⟩, by decide, fun _ h => by cases h⟩

theorem witness_EncodeAppendsCodesAndTerminator :
    Ready (abeCodes [true]) ∧ (abeCodes [true]).codesValid = true ∧ FiniteInput (abeCodes [true]) :=
  ⟨⟨rfl, rfl⟩, rfl, _, rfl⟩

theorem witness_EncodeWithoutRewindEmitsOnlyTheTerminator :
    Ready (abeCodes [true]) ∧ FiniteInput (abeCodes [true]) ∧ (abeCodes [true]).codesValid = true ∧
    (readCode 256 (abeCodes [true])).valid = true := ⟨⟨rfl, rfl⟩, ⟨_, rfl⟩, rfl, by decide +kernel⟩

theorem witness_DecodeIgnoresBitsAfterTheTerminator :
    ∃ (s u : State) (pre post : Bits), Ready s ∧ s.treeValid = true ∧ HoldsTree s abe ∧ s.source = .bits (pre ++ post) ∧
      s.inPos ≤ pre.length ∧ exec .decode s = .next u ∧ u.done = true ∧ u.inPos ≤ pre.length :=
  ⟨abeFed [false, true, true], after .decode (abeFed [false, true, true]), [false, true], [true], ⟨rfl, rfl⟩, rfl, abe_holds _,
    rfl, by decide, rfl, by decide +kernel, by decide +kernel⟩

theorem witness_DecodeWithoutEosNeverEndsDone :
    (∀ src, Ready (abFed src) ∧ (abFed src).treeValid = true ∧ HoldsTree (abFed src) (.node (.leaf 65#9) (.leaf 66#9))) ∧
    eos ∉ (Machine.Tree.node (.leaf 65#9) (.leaf 66#9)).symbols ∧ FiniteInput (abFed (.bits [true])) ∧
    (abFed .endless).source = .endless :=
  ⟨fun src => ⟨⟨rfl, rfl⟩, rfl, ab_holds src⟩, by decide, ⟨_, rfl⟩, rfl⟩

/-- For the two statements on COMPRESS. -/
theorem witness_CompressFromTheStartEndsDone :
    Ready (fed [true]) ∧ (fed [true]).source = .bits [true] ∧ (fed [true]).inPos = 0 := ⟨⟨rfl, rfl⟩, rfl, rfl⟩

theorem witness_HeaderRoundTrip :
    (Ready (abeFed []) ∧ (abeFed []).treeValid = true ∧ HoldsTree (abeFed []) abe ∧ ∀ x, abe = .leaf x → x = eos) ∧
    ∀ hdr : Bits, ∃ (v : State) (pre post : Bits), Ready v ∧ v.source = .bits (pre ++ hdr ++ post) ∧ v.inPos = pre.length :=
  ⟨⟨⟨rfl, rfl⟩, rfl, abe_holds _, fun _ h => by cases h⟩,
    fun hdr => ⟨{ fed ([true] ++ hdr ++ [true]) with inPos := 1 }, [true], [true], ⟨rfl, rfl⟩, rfl, rfl⟩⟩

theorem witness_CompressThenDecompressGivesTheBytesBack :
    (Ready (fed (bitsOfBytes [7#8])) ∧ (fed (bitsOfBytes [7#8])).source = .bits (bitsOfBytes [7#8]) ∧
      (fed (bitsOfBytes [7#8])).inPos = 0 ∧ (fed (bitsOfBytes [7#8])).out = []) ∧
    ∀ out : Bits, ∃ (v : State) (pad : Bits), Ready v ∧ v.source = .bits (out ++ pad) ∧ v.inPos = 0 :=
  ⟨⟨⟨rfl, rfl⟩, rfl, rfl, rfl⟩, fun out => ⟨fed (out ++ [false]), [false], ⟨rfl, rfl⟩, rfl, rfl⟩⟩

/-- For the two statements that every step keeps an invariant. -/
theorem witness_EveryStepKeepsTheTreeInvariant :
    ControlInv (abeFed []) ∧ TreeInv (abeFed []) ∧ ∃ t, step (abeFed []) = .next t :=
  ⟨abe_control _, abe_treeInv _, _, rfl⟩

theorem witness_ResetRestoresTheBlockState :
    (∃ s : State, s.script = .rst :: []) ∧ (0x00000001#32 : Word).getLsbD 0 = true ∧
    ∃ s : State, s.script = wordWrite 0x0C 0x00000001#32 :: [] :=
  ⟨⟨{ running with script := [.rst] }, rfl⟩, by decide, { running with script := [wordWrite 0x0C 1#32] }, rfl⟩

theorem witness_ResetCutsACommandBetweenCoreSteps :
    ∃ (s : State) (rest : List Move), s.busy = true ∧
      s.script = List.replicate 1 .core ++ .rst :: (List.replicate 1 .core ++ rest) :=
  ⟨{ running with pos := .rewind, script := [.core, .rst, .core] }, [], rfl, rfl⟩

theorem witness_TreeinfoReadsTheCounters :
    (State.reset.busy = false ∧ State.reset.treeValid = false) ∧ (abeFed []).busy = false ∧ (abeFed []).treeValid = true :=
  ⟨⟨rfl, rfl⟩, rfl, rfl⟩

/-- The bounds of the selector: 255, 256 and 257, and an entry that is valid at 256. -/
theorem witness_ReadbackRegistersShowTheStores :
    (abeCodes []).busy = false ∧ (255#9).toNat ≤ 255 ∧ ¬ (256#9).toNat ≤ 255 ∧ (256#9).toNat ≤ 256 ∧
    (readCode 256 (abeCodes [])).valid = true ∧ ¬ (257#9).toNat ≤ 256 := by decide +kernel

theorem witness_ReadsHaveNoSideEffect :
    ∀ offset ∈ [0x28, 0xFC], 0x28 ≤ offset ∧ offset ≤ 0xFC ∧ offset % 4 = 0 := by decide

theorem witness_WritesReachOnlyWritableFields : (0x00000002#32 : Word).getLsbD 0 = false := by decide

theorem witness_HostPortRefusesOtherAccesses :
    ∀ a ∈ [({ offset := 0xFC, bytes := 4, data := none } : Access), { offset := 0xFE, bytes := 2, data := none }],
      (∃ s : State, s.script = .access a :: []) ∧ a.offset < 0x100 := by
  intro a ha
  exact ⟨⟨{ State.reset with script := [.access a] }, rfl⟩, by revert a; decide⟩

theorem witness_PseudoInstructionsExpand :
    (511#32 : Word).toNat < 512 ∧ (7#32 : Word).toNat < 8 ∧
    (∀ x : Stmt, ∃ s : State, s.script = expandStmt x ++ [] ∧ s.busy = false) ∧
    ∃ s : State, s.script = expandStmt .wait ++ [] ∧ s.busy = true :=
  ⟨by decide, by decide, fun x => ⟨{ State.reset with script := expandStmt x ++ [] }, rfl, rfl⟩,
    { running with script := [.wait] }, rfl, rfl⟩

/-- For the statements about every command: a command outside each list, and a state that it leads to. -/
theorem witness_OnlyTheirWritersChangeTheStores :
    (∃ t, exec .rewind (abeFed []) = .next t) ∧ Instr.rewind ∉ [Instr.count, .clear, .compress] ∧
    Instr.rewind ∉ [Instr.gencodes, .clear, .compress] ∧
    Instr.rewind ∉ [Instr.build, .rdtree, .clear, .compress, .decompress] ∧
    Instr.rewind ∉ [Instr.wrhdr, .encode, .decode, .compress, .decompress] :=
  ⟨exec_answers _ _, by decide, by decide, by decide, by decide⟩

theorem witness_ValidityBitsFollowTheTable :
    Ready State.reset ∧ (∀ i, ∃ t, exec i State.reset = .next t) ∧
    (∃ t, exec .rdtree State.reset = .next t ∧ t.busy = false) ∧
    (∃ t, exec .gencodes (abeFed []) = .next t ∧ t.done = true) ∧
    ∀ p ∈ [Pos.buildStart, .treeStart, .genStart], ∃ v : State, v.busy = true ∧ v.pos = p :=
  ⟨⟨rfl, rfl⟩, fun i => exec_answers i _, ⟨after .rdtree State.reset, rfl, by decide +kernel⟩,
    ⟨after .gencodes (abeFed []), rfl, by decide +kernel⟩, fun p _ => ⟨{ running with pos := p }, rfl, rfl⟩⟩

theorem witness_AbortIsPrecise :
    let s : State := { running with pos := .rdMagic, curop := 0x08#8, lastOp := 0x08#8 }
    ControlInv s ∧ s.err = false ∧ (coreStep s).err = true := by
  refine ⟨⟨⟨?_, ?_, ?_, ?_⟩, ?_, ?_, fun _ => ⟨.rdmagic, ?_⟩, ?_⟩, rfl, by decide +kernel⟩ <;>
    simp [running, State.reset, opcode, mayFollow, ValidWhile, bodyOf]

theorem witness_CompletionSetsDone :
    ControlInv running ∧ running.busy = true ∧ (coreStep running).busy = false ∧ (coreStep running).err = false :=
  ⟨running_control, rfl, rfl, rfl⟩

end Sys2Proof.Tests
end

/-! PROOFS. Extraction from the priority queue (spec 41_tree_builder.md R122) and the commands that never end on an endless
channel (00_scope.md R17, 60_exceptions.md R232). -/

namespace Sys2Proof.Machine

/-! ### The admissible entries of an extraction -/

theorem mem_minEntries {w : NodeIx → Weight} {pq : List NodeIx} {a : NodeIx} :
    a ∈ minEntries w pq ↔ a ∈ pq ∧ ∀ b ∈ pq, (w a).toNat ≤ (w b).toNat := by
  simp [minEntries]

/-- Every entry of `a :: rest` is the answer of the draws that are one residue modulo the number of entries (R12). -/
theorem exists_drawFrom_eq {a : NodeIx} {rest : List NodeIx} {x : NodeIx} (hx : x ∈ a :: rest) :
    ∃ j < rest.length + 1, ∀ k, Config.tieDraw k % (rest.length + 1) = j → drawFrom k a rest = x := by
  obtain ⟨j, hj, rfl⟩ := List.mem_iff_getElem.mp hx
  refine ⟨j, hj, fun k hk => ?_⟩
  cases rest with
  | nil => simp [drawFrom]
  | cons b rest => rw [drawFrom, hk, List.getD_eq_getElem _ _ hj]; simp

/-- Settles O23: the answer of a draw is an entry of `minEntries`, and every entry of `minEntries` is the answer of the
draws of one residue. -/
theorem everyMinimalEntryCanBeDrawn : Obligations.EveryMinimalEntryCanBeDrawn := by
  intro w pq
  refine ⟨fun k a rest h => ?_, fun hne k => ?_, fun a ha hmin => ?_⟩
  · have hne : pq ≠ [] := by rintro rfl; simp [extractMin, minEntries] at h
    obtain ⟨m, hm, hmem, hle⟩ := extractMin_spec w k hne
    obtain ⟨rfl, rfl⟩ : m = a ∧ pq.erase m = rest := by simpa [hm] using h
    exact ⟨hmem, hle, rfl⟩
  · obtain ⟨m, hm, -⟩ := extractMin_spec w k hne
    rw [hm, Option.isSome_some]
  · have hmem : a ∈ minEntries w pq := mem_minEntries.mpr ⟨ha, hmin⟩
    cases hl : minEntries w pq with
    | nil => simp [hl] at hmem
    | cons b rest =>
      obtain ⟨j, hj, hdraw⟩ := exists_drawFrom_eq (hl ▸ hmem)
      exact ⟨rest.length + 1, j, hj, fun k hk => by simp only [extractMin, hl, hdraw k hk]⟩

/-! ### Commands that never end -/

/-- A property of busy states that every core step keeps: the block is still busy after any number of core steps (R17). -/
theorem runCore_busy_of_kept {P : State → Prop} (hbusy : ∀ s, P s → s.busy = true)
    (hstep : ∀ s, P s → P (stepAt s.pos s)) (n : Nat) {s : State} (hs : P s) : (runCore n s).busy = true := by
  induction n generalizing s with
  | zero => exact hbusy s hs
  | succ n ih => rw [runCore_succ (hbusy s hs)]; exact ih (hstep s hs)

/-- A channel that never ends answers every read with a value (R17, R232). -/
theorem chanRead_endless {s : State} (h : s.source = .endless) (n : Nat) :
    ∃ v, chanRead n s = (some v, { s with inPos := s.inPos + n }) := by
  simp [chanRead, sourceRead, h, Source.draws]

/-- COUNT is inside its body on an endless channel. -/
structure CountRunning (s : State) : Prop where
  busy : s.busy = true
  endless : s.source = .endless
  inBody : bodyOf s.pos = some .count

/-- Only `End` leads out of COUNT's body (R110). -/
theorem CountRunning.step {s : State} (h : CountRunning s) : CountRunning (stepAt s.pos s) := by
  obtain ⟨hb, hsrc, hbody⟩ := h
  cases hp : s.pos <;> simp only [hp, bodyOf, Option.some.injEq, reduceCtorEq] at hbody
  case countZero i =>
    refine ⟨by simpa [stepAt, countZeroStep] using hb, by simpa [stepAt, countZeroStep] using hsrc, ?_⟩
    simp only [stepAt, countZeroStep, goto_pos]
    split <;> rfl
  case countRead =>
    obtain ⟨v, hv⟩ := chanRead_endless hsrc 8
    simp only [stepAt, countReadStep, hv]
    exact ⟨hb, hsrc, rfl⟩
  case countBump v =>
    exact ⟨by simpa [stepAt, countBumpStep] using hb, by simpa [stepAt, countBumpStep] using hsrc, rfl⟩

/-- ENCODE reads or emits the code of a byte, on an endless channel and with a code for every byte. -/
structure EncodeRunning (s : State) : Prop where
  busy : s.busy = true
  endless : s.source = .endless
  coded : ∀ b : Byte, (readCode b.toNat s).valid = true
  inLoop : s.pos = .encRead ∨ ∃ left, s.pos = .encEmit left false

/-- Only `End` leads ENCODE to the terminator, and only a byte without a code to an abort (R180, R182). -/
theorem EncodeRunning.step {s : State} (h : EncodeRunning s) : EncodeRunning (stepAt s.pos s) := by
  obtain ⟨hb, hsrc, hcoded, hp | ⟨left, hp⟩⟩ := h
  · obtain ⟨v, hv⟩ := chanRead_endless hsrc 8
    have hstep : stepAt s.pos s = emitEntry (readCode v.toNat s) false { s with inPos := s.inPos + 8 } := by
      rw [hp, stepAt, encReadStep, hv]; rfl
    rw [hstep, emitEntry, if_pos (hcoded v)]
    exact ⟨hb, hsrc, hcoded, .inr ⟨_, rfl⟩⟩
  · rw [hp]
    cases left with
    | nil => exact ⟨hb, hsrc, hcoded, .inl rfl⟩
    | cons b left => exact ⟨hb, hsrc, hcoded, .inr ⟨left, rfl⟩⟩

/-- Settles O19: from the start of its body COUNT stays `CountRunning` and ENCODE stays `EncodeRunning`. -/
theorem countAndEncodeHangOnAnEndlessChannel : Obligations.CountAndEncodeHangOnAnEndlessChannel := by
  rintro s n ⟨hidle, hnoErr⟩ hsrc
  have hstart : ∀ i : Instr, i ≠ .nop → prerequisite i s = true → hostWrite 0x00 (encode i) s = s.started i :=
    fun i hi hpre => submit_started hidle hi (.inl hnoErr) hpre
  refine ⟨?_, fun hcodes hcoded => ?_⟩
  · rw [hstart .count nofun rfl]
    exact runCore_busy_of_kept (fun _ h => h.busy) (fun _ h => h.step) n (P := CountRunning) ⟨rfl, hsrc, rfl⟩
  · rw [hstart .encode nofun hcodes]
    exact runCore_busy_of_kept (fun _ h => h.busy) (fun _ h => h.step) n (P := EncodeRunning)
      ⟨rfl, hsrc, hcoded, .inl rfl⟩

end Sys2Proof.Machine

/-! PROOFS. What every step is made of, and the two invariants that every step keeps (spec 10_state.md R24, R25 and R30 to
R37, 60_exceptions.md R222 to R231). -/

namespace Sys2Proof.Machine

/-! ### What a step is made of -/

/-- With RSVD = 0 a word is its OP (R90). -/
theorem toNat_opField {w : Word} (h : rsvdField w = 0#24) : (opField w).toNat = w.toNat := by
  have hr : (rsvdField w).toNat = 0 := by rw [h]; rfl
  simp only [rsvdField, opField, BitVec.extractLsb'_toNat, Nat.shiftRight_eq_div_pow] at hr ⊢
  have := w.isLt
  omega

/-- The decoder reads a command from its own word only (R93). -/
theorem eq_encode_of_decode {w : Word} {i : Instr} (h : decode w = .ok i) : w = encode i := by
  have hr : rsvdField w = 0#24 := by
    by_contra hr
    simp [decode, hr] at h
  have hw := toNat_opField hr
  simp only [decode, hr, ne_eq, not_true_eq_false, if_false] at h
  split at h <;> cases h
  all_goals
    refine BitVec.eq_of_toNat_eq (hw.symm.trans ?_)
    assumption

theorem readback_snd (v : Word) (s : State) : (readback v s).2 = { s with draws := (readback v s).2.draws } := by
  unfold readback
  split <;> rfl

theorem readRegister_snd (offset : Nat) (s : State) :
    (readRegister offset s).2 = { s with draws := (readRegister offset s).2.draws } := by
  unfold readRegister
  split
  case h_6 | h_8 | h_9 | h_10 => exact readback_snd _ s
  all_goals rfl

/-- A host read changes only what the model keeps of the host, and the count of draws (R43, R63). -/
theorem hostRead_eq (offset : Nat) (s : State) :
    hostRead offset s = { s with rdata := (hostRead offset s).rdata, draws := (hostRead offset s).draws } := by
  unfold hostRead
  rw [readRegister_snd]

/-- The states differ at most in fields that neither the control invariant nor the tree invariant reads. -/
def AgreeInside (s t : State) : Prop :=
  t = { s with
    cmdDropped := t.cmdDropped, selSym := t.selSym, selWidx := t.selWidx, source := t.source, inPos := t.inPos,
    out := t.out, script := t.script, rdata := t.rdata, checkFailed := t.checkFailed, draws := t.draws }

/-- `P` is kept by every act that a step is made of: what does not reach inside, one core step, the start of a command,
the refusal of a word, and a reset. -/
structure KeptByParts (P : State → Prop) : Prop where
  outside {s t : State} : AgreeInside s t → P s → P t
  core {s : State} : P s → s.busy = true → P (stepAt s.pos s)
  started {s : State} {i : Instr} : P s → s.busy = false → i ≠ .nop → s.err = false ∨ i = .clear →
    prerequisite i s = true → P (s.started i)
  refused {s : State} {w : Word} {e : ErrCode} : P s → s.busy = false → P (raiseErr e (acceptWord w s))
  reset (s : State) : P (resetBlock s)

section
variable {P : State → Prop} (hP : KeptByParts P) {s t : State}
include hP

theorem KeptByParts.coreStep (h : P s) : P (coreStep s) := by
  unfold Machine.coreStep
  split
  next hb => exact hP.core h hb
  next => exact h

theorem KeptByParts.runCore (n : Nat) (h : P s) : P (runCore n s) := by
  induction n generalizing s with
  | zero => exact h
  | succ n ih =>
    unfold Machine.runCore
    split
    · exact ih (hP.coreStep h)
    · exact h

/-- The acceptance of a word (R222, R224). -/
theorem KeptByParts.startWord {w : Word} (h : P s) (hb : s.busy = false) (h₀ : w ≠ 0#32)
    (he : s.err = false ∨ w = 1#32) : P (startWord w s) := by
  cases hd : decode w with
  | error e => simpa only [Machine.startWord, hd] using hP.refused h hb
  | ok i =>
    obtain rfl := eq_encode_of_decode hd
    rw [Ne, encode_eq_zero] at h₀
    rw [encode_eq_one] at he
    cases hp : prerequisite i s with
    | true =>
      rw [← submit_accepted hb (by rwa [Ne, encode_eq_zero]) (by rwa [encode_eq_one]), submit_started hb h₀ he hp]
      exact hP.started h hb h₀ he hp
    | false => simpa [Machine.startWord, hp] using hP.refused (e := .sequence) h hb

theorem KeptByParts.submit (w : Word) (h : P s) : P (submit w s) := by
  unfold Machine.submit
  split
  next => exact hP.outside rfl h
  next hb =>
    split
    next => exact hP.outside rfl h
    next he =>
      split
      next => exact h
      next h₀ => exact hP.startWord h (by simpa using hb) h₀ (by grind)

theorem KeptByParts.runWord (w : Word) (h : P s) : P (runWord w s) := by
  unfold Machine.runWord
  split
  · exact hP.submit w h
  · exact hP.runCore _ (hP.submit w h)

theorem KeptByParts.hostRead (offset : Nat) (h : P s) : P (hostRead offset s) :=
  hP.outside (by rw [hostRead_eq]; rfl) h

theorem KeptByParts.hostWrite (offset : Nat) (v : Word) (h : P s) : P (hostWrite offset v s) := by
  unfold Machine.hostWrite
  split
  · exact hP.submit v h
  · unfold writeCtrl
    split
    · exact hP.reset s
    · exact h
  · exact hP.outside rfl h
  · exact h

theorem KeptByParts.hostAccess {a : Access} (h : P s) (ht : hostAccess a s = .next t) : P t := by
  unfold Machine.hostAccess at ht
  split at ht
  · cases ht
  · split at ht
    · cases ht
    · split at ht <;> cases ht
      · exact hP.hostWrite _ _ h
      · exact hP.hostRead _ h

theorem KeptByParts.runMove {m : Move} {rest : List Move} (h : P s) (ht : runMove m rest s = .next t) : P t := by
  have hrest : P { s with script := rest } := hP.outside rfl h
  cases m with
  | access a => exact hP.hostAccess (a := a) hrest ht
  | call w => cases ht; exact hP.runWord w hrest
  | wait =>
    cases ht
    unfold waitPoll
    split
    · exact hP.coreStep (hP.hostRead _ h)
    · exact hP.outside rfl (hP.hostRead 0x04 h)
  | check offset v =>
    change (if _ then _ else _) = _ at ht
    split at ht
    · cases ht
      exact hP.outside rfl (hP.hostRead offset hrest)
    · exact hP.hostAccess hrest ht
  | core => cases ht; exact hP.coreStep hrest
  | rst => cases ht; exact hP.reset _
  | present src => cases ht; exact hP.outside rfl h
  | closeOutput => cases ht; exact hP.outside rfl h
  | freshOutput => cases ht; exact hP.outside rfl h

/-- What every act of a step keeps, the step keeps. -/
theorem KeptByParts.step (h : P s) (ht : step s = .next t) : P t := by
  unfold Machine.step at ht
  split at ht
  next => cases ht; exact hP.coreStep h
  next w rest _ =>
    have hrest : P { s with script := rest } := hP.outside rfl h
    unfold stepCall at ht
    split at ht
    next i _ => rw [exec_eq_runWord] at ht; cases ht; exact hP.runWord _ hrest
    next => cases ht; exact hP.runWord w hrest
  next => exact hP.runMove h ht

end

/-! ### The control state -/

theorem bodyOf_eq_none {p : Pos} : bodyOf p = none ↔ p = .idle ∨ p = .ret := by cases p <;> simp [bodyOf]

/-- CLEAR's body ends only with its register writes (R201). -/
theorem stepAt_clear {s : State} {p : Pos} (hp : bodyOf p = some .clear) (hr : p ≠ .clearRegs) :
    bodyOf (stepAt p s).pos = some .clear := by
  cases p <;> simp only [bodyOf, Option.some.injEq, reduceCtorEq] at hp
  case clearCnt k => simp only [stepAt, clearCntStep, goto_pos]; split <;> rfl
  case clearCode k => simp only [stepAt, clearCodeStep, goto_pos]; split <;> rfl
  case clearRegs => exact absurd rfl hr

theorem ControlInv.stepAt {s : State} (h : ControlInv s) (hb : s.busy = true) : ControlInv (stepAt s.pos s) := by
  cases hbody : bodyOf s.pos with
  | none =>
    rcases bodyOf_eq_none.mp hbody with hp | hp
    · simp [h.2.1.mpr hp] at hb
    · rw [hp]; exact h.ret hb hp
  | some i =>
    by_cases hr : s.pos = .clearRegs
    · rw [hr]; exact h.clearRegs hb hr
    · rcases stepAt_cases rfl hbody hr with hk | ⟨e, u, hu, hk⟩
      · refine hk.inv h hb hbody ?_
        by_cases hi : i = .clear
        · exact .inr (stepAt_clear (hi ▸ hbody) hr)
        · exact .inl hi
      · rw [hu]; exact h.raiseErr e hk.tree hk.codes

theorem entryOf_ne_idle (i : Instr) : entryOf i ≠ .idle := by cases i <;> decide

theorem entryOf_inBody (i : Instr) : entryOf i = .ret ∨ bodyOf (entryOf i) = some i := by cases i <;> decide

theorem subsOf_mem_mayFollow (i : Instr) : subsOf i ∈ mayFollow i := by cases i <;> decide

/-- The prerequisite of R205 is what the validity bits have to keep while the body runs. -/
theorem validWhile_started {s : State} {i : Instr} (hp : prerequisite i s = true) : ValidWhile i (s.started i) := by
  cases i
  case build | rdtree => exact nofun
  case gencodes => exact ⟨hp, nofun⟩
  case wrhdr => exact ⟨hp, fun h => absurd rfl h⟩
  case rewind => exact fun h => absurd rfl h
  case encode | decode => exact hp
  all_goals trivial

/-- A command that is accepted stands at the start of its body with its whole pipeline before it (R203, R204, R222). -/
theorem ControlInv.started {s : State} {i : Instr} (h : ControlInv s) (hi : i ≠ .nop) (he : s.err = false ∨ i = .clear)
    (hp : prerequisite i s = true) : ControlInv (s.started i) := by
  obtain ⟨⟨-, herr0, herr1, hcodes⟩, -⟩ := h
  refine ⟨⟨nofun, herr0, herr1, hcodes⟩, ⟨nofun, fun h => absurd h (entryOf_ne_idle i)⟩, nofun,
    fun _ => ⟨i, hi, (if_neg ?_).symm, subsOf_mem_mayFollow i, entryOf_inBody i, validWhile_started hp⟩,
    fun _ herr => ?_⟩
  · rintro ⟨rfl, hret⟩
    cases hret
  · rcases he with he | rfl
    · exact absurd herr (by simp [State.started, he])
    · rfl

theorem controlInv_resetBlock (s : State) : ControlInv (resetBlock s) :=
  ⟨⟨nofun, fun _ => ⟨rfl, rfl⟩, nofun, nofun⟩, ⟨fun _ => rfl, fun _ => rfl⟩, fun _ => rfl, nofun, nofun⟩

theorem controlInv_kept : KeptByParts ControlInv where
  outside ht hs := by rw [ht]; exact hs
  core hs hb := hs.stepAt hb
  started hs _ hi he hp := hs.started hi he hp
  refused hs _ := hs.raiseErr _ rfl rfl
  reset := controlInv_resetBlock

/-- Settles O39: every act of a step keeps the invariant, a core step by the kinds of `stepAt_cases`. -/
theorem everyStepKeepsTheControlInvariant : Obligations.EveryStepKeepsTheControlInvariant :=
  fun _ _ hs ht => controlInv_kept.step hs ht

/-! ### The node store and the hidden state -/

/-- While (sub-)command `i` runs, `ValidWhile` holds of it (R203, R204). -/
theorem ControlInv.validWhile {s : State} {i : Instr} (h : ControlInv s) (hb : s.busy = true)
    (hi : bodyOf s.pos = some i) : ValidWhile i s := by
  obtain ⟨-, -, -, hrun, -⟩ := h
  obtain ⟨j, -, -, -, hpos | hpos, hval⟩ := hrun hb
  · rw [hpos] at hi; cases hi
  · rw [hpos] at hi; cases hi; exact hval

/-- GENCODES, WRHDR and DECODE run on a tree (R205). -/
theorem ControlInv.treeValid {s : State} {i : Instr} (h : ControlInv s) (hb : s.busy = true)
    (hi : bodyOf s.pos = some i) (hm : i ∈ [Instr.gencodes, .wrhdr, .decode]) : s.treeValid = true := by
  have hval := h.validWhile hb hi
  simp only [List.mem_cons, List.not_mem_nil, or_false] at hm
  rcases hm with rfl | rfl | rfl
  · exact hval.1
  · exact hval.1
  · exact hval

/-- The positions at which the hidden state holds nothing. -/
def quiet : Pos → Bool
  | .decRead | .decEmit => false
  | p => !usesStack p && !usesQueue p

theorem posInv_of_quiet {s : State} (h : quiet s.pos = true) : PosInv s := by
  cases hp : s.pos
  case buildLeaf | buildMerge | genWalk | hdrWalk | hdrSym | parseBit | parseInternal | parseSym | parseLeaf | parseRet
      | decRead | decEmit =>
    rw [hp] at h; cases h
  all_goals simp only [PosInv, hp]

theorem usesQueue_of_quiet {p : Pos} (h : quiet p = true) : usesQueue p = false := by
  cases p <;> simp_all [quiet, usesQueue]

theorem usesStack_of_quiet {p : Pos} (h : quiet p = true) : usesStack p = false := by
  cases p <;> simp_all [quiet, usesStack]

theorem quiet_entryOf (i : Instr) : quiet (entryOf i) = true := by cases i <;> rfl

/-- What the tree invariant reads beside the stack and the cursor. -/
def State.tree (s : State) := (s.store, s.treeValid, s.pq)

theorem TreeInv.posInv {s : State} (h : TreeInv s) : PosInv s := by
  obtain ⟨-, -, -, -, -, hpos⟩ := h
  exact hpos

theorem TreeInv.pq_nil {s : State} (h : TreeInv s) (hu : usesQueue s.pos = false) : s.pq = [] := by
  obtain ⟨-, -, -, hq, -⟩ := h
  exact hq hu

theorem TreeInv.stack_nil {s : State} (h : TreeInv s) (hu : usesStack s.pos = false) : s.stack = [] := by
  obtain ⟨-, -, -, -, hst, -⟩ := h
  exact hst hu

/-- A step to a position that needs nothing hidden. -/
theorem TreeInv.toQuiet {s t : State} (h : TreeInv s) (hs : usesQueue s.pos = false) (e : t.tree = s.tree)
    (hst : t.stack = []) (ht : quiet t.pos = true) : TreeInv t := by
  simp only [State.tree, Prod.mk.injEq] at e
  obtain ⟨hstore, hvalid, hpq⟩ := e
  exact h.same hstore hvalid (by simp [hst]) hpq hs (fun _ => hst) (posInv_of_quiet ht)

/-- A step between positions that need nothing hidden. -/
theorem TreeInv.stayQuiet {s t : State} (h : TreeInv s) (hs : quiet s.pos = true) (e : t.tree = s.tree)
    (hst : t.stack = s.stack) (ht : quiet t.pos = true) : TreeInv t :=
  h.toQuiet (usesQueue_of_quiet hs) e (hst.trans (h.stack_nil (usesStack_of_quiet hs))) ht

/-- A step to a walk of GENCODES or WRHDR. -/
theorem TreeInv.toWalk {s t : State} (h : TreeInv s) (hs : usesQueue s.pos = false) (e : t.tree = s.tree)
    (hw : ∃ ts, WalkHolds t ts) (ht : t.pos = .genWalk ∨ t.pos = .hdrWalk) : TreeInv t := by
  simp only [State.tree, Prod.mk.injEq] at e
  obtain ⟨hstore, hvalid, hpq⟩ := e
  obtain ⟨ts, hts⟩ := id hw
  refine h.same hstore hvalid hts.length hpq hs ?_ ?_
  · rcases ht with ht | ht <;> rw [ht] <;> exact nofun
  · unfold PosInv
    rcases ht with ht | ht <;> rw [ht] <;> exact hw

/-- With no tree valid, the invariant is the capacities and what the position asks for. -/
theorem treeInv_of_invalid {t : State} (hv : t.treeValid = false) (hN : t.nNodes.toNat ≤ 513) (hL : t.nLeaf.toNat ≤ 257)
    (hI : t.nInt.toNat ≤ 256) (hq : t.pq.length ≤ 257) (hst : t.stack.length ≤ 257)
    (hq' : usesQueue t.pos = false → t.pq = []) (hst' : usesStack t.pos = false → t.stack = []) (hp : PosInv t) :
    TreeInv t :=
  ⟨fun h => absurd h (by simp [hv]), ⟨hN, hL, hI⟩, ⟨hq, hst⟩, hq', hst', hp⟩

theorem writeCnt_tree (i : Nat) (v : Word) (s : State) : (writeCnt i v s).tree = s.tree := by
  unfold writeCnt; split <;> rfl

theorem writeCode_tree (i : Nat) (e : CodeEntry) (s : State) : (writeCode i e s).tree = s.tree := by
  unfold writeCode; split <;> rfl

/-! #### BUILD -/

/-- BUILD's leaf loop: at most `k` leaves are queued, and no node is internal (R120, R121). -/
structure LeafLoop (k : Nat) (f : List Tree) (s : State) : Prop where
  invalid : s.treeValid = false
  length : s.pq.length ≤ k
  nodes : s.nNodes.toNat = s.nLeaf.toNat + s.nInt.toNat
  noInt : s.nInt = 0#9
  noStack : s.stack = []
  queue : QueueHolds s f

theorem LeafLoop.succ {k : Nat} {f : List Tree} {s : State} (h : LeafLoop k f s) : LeafLoop (k + 1) f s :=
  { h with length := by have := h.length; omega }

theorem LeafLoop.goto {k : Nat} {f : List Tree} {s : State} (h : LeafLoop k f s) (p : Pos) : LeafLoop k f (goto p s) :=
  ⟨h.invalid, h.length, h.nodes, h.noInt, h.noStack, h.queue⟩

theorem LeafLoop.nLeaf_le {k : Nat} {f : List Tree} {s : State} (h : LeafLoop k f s) :
    s.nLeaf.toNat ≤ k ∧ s.nInt.toNat = 0 := by
  have hI : s.nInt.toNat = 0 := by rw [h.noInt]; rfl
  have := h.queue.length
  have := h.length
  omega

theorem LeafLoop.queueLeaf {k : Nat} {f : List Tree} {s : State} (h : LeafLoop k f s) (hk : k ≤ 256) {sym : Sym}
    (hsym : sym.toNat ≤ 256) (v : Weight) : LeafLoop (k + 1) (f ++ [.leaf sym]) (queueLeaf sym v s) := by
  have hle := h.nLeaf_le
  have hN := h.nodes
  refine ⟨h.invalid, ?_, ?_, h.noInt, h.noStack, h.queue.queueLeaf (by omega) (by omega) hsym⟩
  · simpa [Machine.queueLeaf] using h.length
  · show (s.nNodes + 1#10).toNat = (s.nLeaf + 1#9).toNat + s.nInt.toNat
    rw [toNat_add_one (by omega), toNat_add_one (by omega)]
    omega

theorem LeafLoop.treeInv {k : Nat} {f : List Tree} {s : State} (h : LeafLoop k f s) (hk : k ≤ 257)
    (hu : usesQueue s.pos = true) (hp : PosInv s) : TreeInv s := by
  have hle := h.nLeaf_le
  have hN := h.nodes
  have hq := h.length
  exact treeInv_of_invalid h.invalid (by omega) (by omega) (by omega) (by omega) (by simp [h.noStack])
    (fun hu' => by rw [hu] at hu'; cases hu') (fun _ => h.noStack) hp

theorem TreeInv.leafLoop {k : Nat} {s : State} (h : TreeInv s) (hp : s.pos = .buildLeaf k) :
    k ≤ 256 ∧ ∃ f, LeafLoop k f s := by
  have hpos := h.posInv
  rw [PosInv, hp] at hpos
  obtain ⟨hv, hk, hlen, hN, hI, f, hf⟩ := hpos
  exact ⟨hk, f, hv, hlen, hN, hI, h.stack_nil (by rw [hp]; rfl), hf⟩

theorem LeafLoop.next {k : Nat} {f : List Tree} {s : State} (h : LeafLoop (k + 1) f s) (hk : k < 256) :
    TreeInv (Machine.goto (.buildLeaf (k + 1)) s) :=
  (h.goto _).treeInv (by omega) rfl ⟨h.invalid, hk, h.length, h.nodes, h.noInt, f, h.queue⟩

theorem TreeInv.buildLeafStep {k : Nat} {s : State} (h : TreeInv s) (hp : s.pos = .buildLeaf k) :
    TreeInv (buildLeafStep k s) := by
  obtain ⟨hk, f, hloop⟩ := h.leafLoop hp
  unfold Machine.buildLeafStep
  split
  next hlt =>
    have hsym : (BitVec.ofNat 9 k).toNat ≤ 256 := by rw [BitVec.toNat_ofNat]; omega
    split
    · exact (hloop.queueLeaf hk hsym _).next hlt
    · exact hloop.succ.next hlt
  next =>
    have hend := (hloop.queueLeaf hk (sym := eos) (by decide) 1#40).goto .buildMerge
    exact hend.treeInv (by omega) rfl ⟨hend.invalid, hend.nodes, _, hend.queue, by simp [Tree.symbols]⟩

/-- The queue holds one tree: it is the tree that BUILD leaves (R124). -/
theorem QueueHolds.single {s : State} {f : List Tree} (h : QueueHolds s f) (hlen : ¬ 1 < s.pq.length)
    (hne : f ≠ []) : ∃ i t, s.pq = [i] ∧ f = [t] := by
  have hl := h.1.length_eq
  cases f with
  | nil => exact absurd rfl hne
  | cons t g =>
    obtain ⟨i, hi⟩ := List.length_eq_one_iff.mp (show s.pq.length = 1 by simp at hl; omega)
    rw [hi] at hl
    obtain rfl := List.length_eq_zero_iff.mp (show g.length = 0 by simpa using hl.symm)
    exact ⟨i, t, hi, rfl⟩

theorem TreeInv.buildMergeStep {s : State} (h : TreeInv s) (hp : s.pos = .buildMerge) :
    TreeInv (buildMergeStep s) := by
  have hst : s.stack = [] := h.stack_nil (by rw [hp]; rfl)
  obtain ⟨-, ⟨-, hL, hI⟩, ⟨hq, -⟩, -, -, hpos⟩ := h
  rw [PosInv, hp] at hpos
  obtain ⟨hv, hN, f, hf, heos⟩ := hpos
  have hlen := hf.length
  unfold Machine.buildMergeStep
  split
  next hmany =>
    obtain ⟨g, hg, hpq, hnl, hni, hnn, hv', hst', hp', hsub⟩ := hf.merge hmany hN hL
    rw [hv] at hv'
    rw [hst] at hst'
    rw [hp] at hp'
    refine treeInv_of_invalid hv' (by omega) (by rwa [hnl]) (by omega) (by omega) (by simp [hst']) ?_ (fun _ => hst') ?_
    · rw [hp']; exact nofun
    · rw [PosInv, hp']
      exact ⟨hv', by rw [hnl]; omega, g, hg, hsub _ heos⟩
  next hone =>
    obtain ⟨i, t, hpq, rfl⟩ := hf.single hone (by rintro rfl; simp at heos)
    obtain ⟨hall, hsym, hleaves, hints⟩ := hf
    rw [hpq] at hall
    simp only [List.forall₂_cons, List.Forall₂.nil, and_true] at hall
    have hleaves : t.leaves = s.nLeaf.toNat := by simpa using hleaves
    have hints : t.internals = s.nInt.toNat := by simpa using hints
    have hroot : (buildEndStep s).root = i := by simp [buildEndStep, hpq]
    refine ⟨fun _ => ⟨t, ⟨by rw [hroot]; exact hall, hleaves, hints, by omega, hsym t (by simp)⟩, ?_⟩, ⟨?_, hL, hI⟩,
      ⟨by simp [buildEndStep], ?_⟩, fun _ => rfl, fun _ => hst, trivial⟩
    · rintro x rfl
      simpa [Tree.symbols, eq_comm] using heos
    · show s.nNodes.toNat ≤ 513
      omega
    · show s.stack.length ≤ 257
      simp [hst]

/-! #### GENCODES and WRHDR -/

theorem TreeInv.genZeroStep {s : State} {k : Nat} (h : TreeInv s) (hp : s.pos = .genZero k) (hv : s.treeValid = true) :
    TreeInv (genZeroStep k s) := by
  have hq : quiet s.pos = true := by rw [hp]; rfl
  have htree := writeCode_tree k noCode s
  unfold Machine.genZeroStep
  split
  · exact h.stayQuiet hq htree (by simp) rfl
  · obtain ⟨t, ht, -⟩ := h.1 hv
    exact h.toWalk (usesQueue_of_quiet hq) htree (WalkHolds.start ht (congrArg Prod.fst htree) rfl) (.inl rfl)

theorem TreeInv.hdrMagicStep {s : State} (h : TreeInv s) (hp : s.pos = .hdrMagic) (hv : s.treeValid = true) :
    TreeInv (hdrMagicStep s) := by
  obtain ⟨t, ht, -⟩ := h.1 hv
  exact h.toWalk (by rw [hp]; rfl) rfl (WalkHolds.start ht rfl rfl) (.inr rfl)

/-- A walk holds visits only, so a step that takes another frame off the stack does not happen (R36). -/
theorem WalkHolds.visits {s : State} {ts : List Tree} (h : WalkHolds s ts) {fr : Frame} {rest : List Frame}
    (hs : s.stack = fr :: rest) : ∃ i p, fr = .visit i p := by
  obtain ⟨hall, -⟩ := h
  rw [hs] at hall
  obtain ⟨t, us, ⟨i, p, hfr, -⟩, -⟩ := List.forall₂_cons_left_iff.mp hall
  exact ⟨i, p, hfr⟩

theorem TreeInv.genWalkStep {s : State} (h : TreeInv s) (hp : s.pos = .genWalk) : TreeInv (genWalkStep s) := by
  have hu : usesQueue s.pos = false := by rw [hp]; rfl
  obtain ⟨ts, hw⟩ : ∃ ts, WalkHolds s ts := by simpa only [PosInv, hp] using h.posInv
  unfold Machine.genWalkStep
  split
  next hst => exact h.toQuiet hu rfl hst rfl
  next i p rest hst =>
    simp only [walkNode, readNode_eq]
    split
    next hleaf =>
      have htree := writeCode_tree s.node[i].sym.toNat (codeOf p) s
      have hnext := hw.visitLeaf (t := { writeCode s.node[i].sym.toNat (codeOf p) s with stack := rest }) hst
        (congrArg Prod.fst htree) hleaf rfl
      exact h.toWalk hu htree hnext.2 (.inl (by rw [writeCode_pos, hp]))
    next hleaf => exact h.toWalk hu rfl (hw.visitNode hst rfl (by simpa using hleaf) rfl) (.inl hp)
  next fr rest hno hst =>
    obtain ⟨i, p, rfl⟩ := hw.visits hst
    exact absurd rfl (hno i p)

theorem TreeInv.hdrWalkStep {s : State} (h : TreeInv s) (hp : s.pos = .hdrWalk) : TreeInv (hdrWalkStep s) := by
  have hu : usesQueue s.pos = false := by rw [hp]; rfl
  obtain ⟨ts, hw⟩ : ∃ ts, WalkHolds s ts := by simpa only [PosInv, hp] using h.posInv
  unfold Machine.hdrWalkStep
  split
  next hst => exact h.toQuiet hu rfl hst rfl
  next i p rest hst =>
    simp only [serNode, readNode_eq]
    split
    next hleaf =>
      obtain ⟨hsym, us, hus⟩ := hw.visitLeaf hst
        (t := { chanWrite 1 1#1 s with stack := rest, pos := .hdrSym s.node[i].sym }) rfl hleaf rfl
      exact h.same rfl rfl hus.length rfl hu nofun ⟨hsym, us, hus⟩
    next hleaf => exact h.toWalk hu rfl (hw.visitNode hst rfl (by simpa using hleaf) rfl) (.inr hp)
  next fr rest hno hst =>
    obtain ⟨i, p, rfl⟩ := hw.visits hst
    exact absurd rfl (hno i p)

theorem TreeInv.hdrSymStep {s : State} {sym : Sym} (h : TreeInv s) (hp : s.pos = .hdrSym sym) :
    TreeInv (hdrSymStep sym s) := by
  have hpos := h.posInv
  rw [PosInv, hp] at hpos
  obtain ⟨-, ts, hts⟩ := hpos
  exact h.toWalk (by rw [hp]; rfl) rfl ⟨ts, hts.same rfl rfl⟩ (.inr rfl)

/-! #### RDTREE -/

theorem TreeInv.parseBitStep {s : State} (h : TreeInv s) (hp : s.pos = .parseBit) : TreeInv (parseBitStep s) := by
  have hu : usesQueue s.pos = false := by rw [hp]; rfl
  obtain ⟨-, ⟨-, -, hI⟩, ⟨-, hlen⟩, -, -, hb⟩ := id h
  rw [PosInv, hp] at hb
  unfold Machine.parseBitStep
  rcases chanRead_cases 1 s with ⟨v, d, hr⟩ | ⟨d, hr⟩ <;> rw [hr] <;> simp only []
  · split
    · split
      · exact h.raise (.inl rfl) rfl rfl hu .hdrCapacity
      next hne =>
        have hlt : s.nInt.toNat < 256 := lt_of_le_of_ne hI fun he => hne (BitVec.eq_of_toNat_eq he)
        exact h.same rfl rfl hlen rfl hu nofun ⟨hb, hlt⟩
    · exact h.same rfl rfl hlen rfl hu nofun hb
  · exact h.raise (.inl rfl) rfl rfl hu .truncated

theorem TreeInv.parseSymStep {s : State} (h : TreeInv s) (hp : s.pos = .parseSym) : TreeInv (parseSymStep s) := by
  have hu : usesQueue s.pos = false := by rw [hp]; rfl
  obtain ⟨-, -, ⟨-, hlen⟩, -, -, hb⟩ := id h
  rw [PosInv, hp] at hb
  unfold Machine.parseSymStep
  rcases chanRead_cases 9 s with ⟨v, d, hr⟩ | ⟨d, hr⟩ <;> rw [hr] <;> simp only []
  · split
    · exact h.raise (.inl rfl) rfl rfl hu .hdrSymbol
    next hle => exact h.same rfl rfl hlen rfl hu nofun ⟨hb, not_lt.mp hle⟩
  · exact h.raise (.inl rfl) rfl rfl hu .truncated

theorem TreeInv.parseInternalStep {s : State} (h : TreeInv s) (hp : s.pos = .parseInternal) :
    TreeInv (parseInternalStep s) := by
  have hpq : s.pq = [] := h.pq_nil (by rw [hp]; rfl)
  obtain ⟨-, ⟨-, hL, hI⟩, -, -, -, hpos⟩ := h
  rw [PosInv, hp] at hpos
  obtain ⟨hb, hlt⟩ := hpos
  obtain ⟨hb', hN', hL', hI'⟩ := hb.internal hlt
  obtain ⟨hv', -, hst', -⟩ := id hb'
  have hq : s.pq.length ≤ 257 := by simp [hpq]
  exact treeInv_of_invalid hv' hN' (by rwa [hL']) (by omega) hq (by omega) (fun _ => hpq) nofun hb'

theorem TreeInv.parseLeafStep {s : State} {sym : Sym} (h : TreeInv s) (hp : s.pos = .parseLeaf sym) :
    TreeInv (parseLeafStep sym s) := by
  have hpq : s.pq = [] := h.pq_nil (by rw [hp]; rfl)
  obtain ⟨-, ⟨-, hL, hI⟩, -, -, -, hpos⟩ := h
  rw [PosInv, hp] at hpos
  obtain ⟨hb, hsym⟩ := hpos
  obtain ⟨hr', hN', hL', hI'⟩ := hb.leafStep hI hsym
  obtain ⟨hv', hst', -⟩ := id hr'
  rw [hI'] at hst'
  have hq : s.pq.length ≤ 257 := by simp [hpq]
  exact treeInv_of_invalid hv' hN' hL' (by rwa [hI']) hq (by omega) (fun _ => hpq) nofun hr'

/-- The root of the parse is accepted or refused (R153, R157). -/
theorem TreeInv.parseEnd {s : State} {i : NodeIx} {t : Tree} (h : TreeInv s) (hu : usesQueue s.pos = false)
    (hv : s.treeValid = false) (hst : s.stack = []) (ht : HoldsTree { s with root := i } t)
    (hleaf : ∀ x, t = .leaf x → (readNode i s).leaf = true ∧ (readNode i s).sym = x) : TreeInv (parseEnd i s) := by
  unfold Machine.parseEnd
  simp only []
  split
  next => exact h.raise (.inr ⟨i, rfl, hv⟩) rfl rfl hu .hdrShape
  next hroot =>
    obtain ⟨-, hcap, ⟨hpq, -⟩, hq, -⟩ := h
    refine ⟨fun _ => ⟨t, ht, fun x hx => ?_⟩, hcap, ⟨hpq, ?_⟩, fun _ => hq hu, fun _ => hst, trivial⟩
    · obtain ⟨hl, hs⟩ := hleaf x hx
      by_contra hne
      exact hroot ⟨hl, by rwa [hs]⟩
    · show s.stack.length ≤ 257
      simp [hst]

/-- What a return to an open call leaves alone. -/
theorem parseRetStep_open {s : State} {i j : NodeIx} {rest : List Frame}
    (h : s.stack = .left j :: rest ∨ s.stack = .right j :: rest) :
    (parseRetStep i s).nNodes = s.nNodes ∧ (parseRetStep i s).nLeaf = s.nLeaf ∧ (parseRetStep i s).nInt = s.nInt ∧
      (parseRetStep i s).pq = s.pq := by
  rcases h with h | h <;> simp only [parseRetStep, h] <;> exact ⟨rfl, rfl, rfl, rfl⟩

/-- Inside a `parse()` the capacities stay, and the queue stays empty. -/
theorem TreeInv.toParse {s t : State} (h : TreeInv s) (hu : usesQueue s.pos = false)
    (hsame : t.nNodes = s.nNodes ∧ t.nLeaf = s.nLeaf ∧ t.nInt = s.nInt ∧ t.pq = s.pq) (hv : t.treeValid = false)
    (hst : t.stack.length ≤ t.nInt.toNat) (hs : usesStack t.pos = true) (hp : PosInv t) : TreeInv t := by
  obtain ⟨eN, eL, eI, eq⟩ := hsame
  have hpq : t.pq = [] := eq.trans (h.pq_nil hu)
  obtain ⟨-, ⟨hN, hL, hI⟩, -⟩ := h
  rw [eI] at hst
  exact treeInv_of_invalid hv (by rwa [eN]) (by rwa [eL]) (by rwa [eI]) (by simp [hpq]) (by omega) (fun _ => hpq)
    (fun hs' => by rw [hs] at hs'; cases hs') hp

theorem TreeInv.parseRetStep {s : State} {i : NodeIx} (h : TreeInv s) (hp : s.pos = .parseRet i) :
    TreeInv (parseRetStep i s) := by
  have hu : usesQueue s.pos = false := by rw [hp]; rfl
  obtain ⟨-, ⟨-, -, hI⟩, -, -, -, hpos⟩ := id h
  rw [PosInv, hp] at hpos
  rcases hpos.step hI with ⟨hst, t, ht, hleaf, hsym⟩ | ⟨j, rest, hst, hb⟩ | ⟨j, rest, hst, hr⟩
  · rw [show Machine.parseRetStep i s = Machine.parseEnd i s by simp only [Machine.parseRetStep, hst]]
    obtain ⟨hv, -⟩ := hpos
    exact h.parseEnd hu hv hst ht fun x hx => ⟨by rw [hleaf, hx], hsym x hx⟩
  · have hp' : (Machine.parseRetStep i s).pos = .parseBit := by simp only [Machine.parseRetStep, hst]
    obtain ⟨hv, -, hlen, -⟩ := id hb
    exact h.toParse hu (parseRetStep_open (.inl hst)) hv hlen (by rw [hp']; rfl) (by rw [PosInv, hp']; exact hb)
  · have hp' : (Machine.parseRetStep i s).pos = .parseRet j := by simp only [Machine.parseRetStep, hst]
    obtain ⟨hv, hlen, -⟩ := id hr
    exact h.toParse hu (parseRetStep_open (.inr hst)) hv hlen (by rw [hp']; rfl) (by rw [PosInv, hp']; exact hr)

/-! #### DECODE -/

theorem TreeInv.decStartStep {s : State} (h : TreeInv s) (hp : s.pos = .decStart) (hv : s.treeValid = true) :
    TreeInv (decStartStep s) := by
  have hq : quiet s.pos = true := by rw [hp]; rfl
  have hst : s.stack = [] := h.stack_nil (usesStack_of_quiet hq)
  obtain ⟨t, ht, -⟩ := h.1 hv
  obtain ⟨hheld, -, -, -, hsym⟩ := id ht
  unfold Machine.decStartStep
  split
  next => exact h.stayQuiet hq rfl rfl rfl
  next hleaf =>
    cases t with
    | leaf x => exact absurd (by rw [readNode_eq]; exact hheld.2.1) hleaf
    | node l r =>
      exact h.same rfl rfl (by simp [hst]) rfl (usesQueue_of_quiet hq) (fun _ => hst)
        ⟨⟨l, r, ht⟩, l, r, hheld, hsym⟩

/-- The cursor has moved to a node of the tree (R190, R191). -/
theorem TreeInv.decArrive {s u : State} {t l r : Tree} (h : TreeInv s) (hu : usesQueue s.pos = false)
    (e : u.tree = s.tree) (hst : u.stack = []) (htree : HoldsTree u (.node l r))
    (hcur : HoldsAt u.node u.nNodes.toNat u.cur t) (hsym : SymbolsInRange t) : TreeInv (decArrive u) := by
  have e' := e
  simp only [State.tree, Prod.mk.injEq] at e'
  obtain ⟨hstore, hvalid, hpq⟩ := e'
  unfold Machine.decArrive
  simp only [readNode_eq]
  cases t with
  | leaf x =>
    obtain ⟨-, hleaf, hx⟩ := hcur
    have hle : x.toNat ≤ 256 := hsym x (by simp [Tree.symbols])
    rw [if_pos hleaf, hx]
    split
    next => exact h.toQuiet hu e hst rfl
    next hne =>
      have hlt : x.toNat ≠ 256 := fun he => hne (BitVec.eq_of_toNat_eq he)
      refine h.same hstore hvalid (by simp [hst]) hpq hu (fun _ => hst) ⟨⟨l, r, htree⟩, ?_⟩
      simp only [readNode_eq, goto_node, goto_cur]
      exact ⟨hleaf, by rw [hx]; omega⟩
  | node l' r' =>
    rw [if_neg (by rw [hcur.2.1]; exact nofun)]
    exact h.same hstore hvalid (by simp [hst]) hpq hu (fun _ => hst) ⟨⟨l, r, htree⟩, l', r', hcur, hsym⟩

theorem TreeInv.decReadStep {s : State} (h : TreeInv s) (hp : s.pos = .decRead) : TreeInv (decReadStep s) := by
  have hu : usesQueue s.pos = false := by rw [hp]; rfl
  have hst : s.stack = [] := h.stack_nil (by rw [hp]; rfl)
  have hpos := h.posInv
  rw [PosInv, hp] at hpos
  obtain ⟨⟨l, r, htree⟩, l', r', hcur, hsym⟩ := hpos
  unfold Machine.decReadStep
  rcases chanRead_cases 1 s with ⟨v, d, hr⟩ | ⟨d, hr⟩ <;> rw [hr] <;> simp only []
  · obtain ⟨t, ht, htsym⟩ := HoldsTree.child hcur hsym v
    rw [readNode_eq]
    exact h.decArrive hu rfl hst htree ht htsym
  · exact h.raise (.inl rfl) rfl rfl hu .truncated

theorem TreeInv.decEmitStep {s : State} (h : TreeInv s) (hp : s.pos = .decEmit) : TreeInv (decEmitStep s) := by
  have hu : usesQueue s.pos = false := by rw [hp]; rfl
  have hst : s.stack = [] := h.stack_nil (by rw [hp]; rfl)
  have hpos := h.posInv
  rw [PosInv, hp] at hpos
  obtain ⟨⟨l, r, htree⟩, -⟩ := hpos
  obtain ⟨hheld, -, -, -, hsym⟩ := id htree
  have hlen : s.stack.length ≤ 257 := by simp [hst]
  exact h.same rfl rfl hlen rfl hu (fun _ => hst) ⟨⟨l, r, htree⟩, l, r, hheld, hsym⟩

/-! #### The other steps -/

/-- With no nodes allocated and nothing hidden, as CLEAR, a reset and the starts of BUILD and RDTREE leave the store
(R120, R153, R201, R250). -/
theorem treeInv_of_empty {t : State} (hv : t.treeValid = false) (hn : t.nNodes = 0#10 ∧ t.nLeaf = 0#9 ∧ t.nInt = 0#9)
    (hq : t.pq = []) (hst : t.stack = []) (hp : PosInv t) : TreeInv t := by
  obtain ⟨hN, hL, hI⟩ := hn
  exact treeInv_of_invalid hv (by simp [hN]) (by simp [hL]) (by simp [hI]) (by simp [hq]) (by simp [hst]) (fun _ => hq)
    (fun _ => hst) hp

theorem treeInv_buildStartStep {s : State} (hst : s.stack = []) : TreeInv (buildStartStep s) :=
  treeInv_of_empty rfl ⟨rfl, rfl, rfl⟩ rfl hst
    ⟨rfl, Nat.zero_le _, le_refl 0, rfl, rfl, [], .nil, by simp, rfl, rfl⟩

theorem TreeInv.retStep {s : State} (h : TreeInv s) (hp : s.pos = .ret) : TreeInv (retStep s) := by
  have hq : quiet s.pos = true := by rw [hp]; rfl
  unfold Machine.retStep
  split
  · exact h.stayQuiet hq rfl rfl rfl
  · exact h.toQuiet (usesQueue_of_quiet hq) rfl rfl (quiet_entryOf _)

theorem TreeInv.countReadStep {s : State} (h : TreeInv s) (hq : quiet s.pos = true) : TreeInv (countReadStep s) := by
  unfold Machine.countReadStep
  rcases chanRead_cases 8 s with ⟨v, d, hr⟩ | ⟨d, hr⟩ <;> rw [hr] <;> exact h.stayQuiet hq rfl rfl rfl

theorem TreeInv.emitEntry {s u : State} (h : TreeInv s) (hq : quiet s.pos = true) (e : u.tree = s.tree)
    (hst : u.stack = s.stack) (c : CodeEntry) (last : Bool) : TreeInv (emitEntry c last u) := by
  have e' := e
  simp only [State.tree, Prod.mk.injEq] at e'
  obtain ⟨hstore, hvalid, hpq⟩ := e'
  unfold Machine.emitEntry
  split
  · exact h.stayQuiet hq e hst rfl
  · exact h.raise (.inl hstore) hvalid hpq (usesQueue_of_quiet hq) .internalTable

theorem TreeInv.encReadStep {s : State} (h : TreeInv s) (hq : quiet s.pos = true) : TreeInv (encReadStep s) := by
  unfold Machine.encReadStep
  rcases chanRead_cases 8 s with ⟨v, d, hr⟩ | ⟨d, hr⟩ <;> rw [hr] <;>
    refine h.emitEntry hq ?_ ?_ _ _ <;> rfl

theorem TreeInv.encEmitStep {s : State} (h : TreeInv s) (hq : quiet s.pos = true) (left : Bits) (last : Bool) :
    TreeInv (encEmitStep left last s) := by
  unfold Machine.encEmitStep
  split
  · exact h.stayQuiet hq rfl rfl rfl
  · cases last <;> exact h.stayQuiet hq rfl rfl rfl

theorem TreeInv.rdMagicStep {s : State} (h : TreeInv s) (hq : quiet s.pos = true) : TreeInv (rdMagicStep s) := by
  have hu := usesQueue_of_quiet hq
  unfold Machine.rdMagicStep
  rcases chanRead_cases 32 s with ⟨v, d, hr⟩ | ⟨d, hr⟩ <;> rw [hr] <;> simp only []
  · split
    · exact h.raise (.inl rfl) rfl rfl hu .format
    · exact h.stayQuiet hq rfl rfl rfl
  · exact h.raise (.inl rfl) rfl rfl hu .truncated

/-- A core step keeps the tree invariant. The commands that read the tree run on one (R205). -/
theorem TreeInv.stepAt {s : State} (h : TreeInv s) (hc : ControlInv s) (hb : s.busy = true) :
    TreeInv (stepAt s.pos s) := by
  have hvalid : ∀ i ∈ [Instr.gencodes, .wrhdr, .decode], bodyOf s.pos = some i → s.treeValid = true :=
    fun i hm hi => hc.treeValid hb hi hm
  have hqueue := h.pq_nil
  have hstack := h.stack_nil
  cases hp : s.pos <;> rw [hp] at hvalid hqueue hstack
  case idle => exact h
  case ret => exact h.retStep hp
  case clearCnt k =>
    refine h.stayQuiet (by rw [hp]; rfl) (writeCnt_tree k 0#32 s) (by simp [Machine.stepAt, clearCntStep]) ?_
    simp only [Machine.stepAt, clearCntStep, goto_pos]
    split <;> rfl
  case clearCode k =>
    refine h.stayQuiet (by rw [hp]; rfl) (writeCode_tree k noCode s) (by simp [Machine.stepAt, clearCodeStep]) ?_
    simp only [Machine.stepAt, clearCodeStep, goto_pos]
    split <;> rfl
  case clearRegs => exact treeInv_of_empty rfl ⟨rfl, rfl, rfl⟩ rfl (hstack rfl) trivial
  case countZero k =>
    refine h.stayQuiet (by rw [hp]; rfl) (writeCnt_tree k 0#32 s) (by simp [Machine.stepAt, countZeroStep]) ?_
    simp only [Machine.stepAt, countZeroStep, goto_pos]
    split <;> rfl
  case countRead => exact h.countReadStep (by rw [hp]; rfl)
  case countBump v =>
    exact h.stayQuiet (by rw [hp]; rfl) (writeCnt_tree _ _ s) (by simp [Machine.stepAt, countBumpStep]) rfl
  case buildStart => exact treeInv_buildStartStep (hstack rfl)
  case buildLeaf k => exact h.buildLeafStep hp
  case buildMerge => exact h.buildMergeStep hp
  case genStart => exact h.stayQuiet (by rw [hp]; rfl) rfl rfl rfl
  case genZero k => exact h.genZeroStep hp (hvalid .gencodes (by simp) rfl)
  case genWalk => exact h.genWalkStep hp
  case hdrMagic => exact h.hdrMagicStep hp (hvalid .wrhdr (by simp) rfl)
  case hdrWalk => exact h.hdrWalkStep hp
  case hdrSym sym => exact h.hdrSymStep hp
  case rewind => exact h.stayQuiet (by rw [hp]; rfl) rfl rfl rfl
  case encRead => exact h.encReadStep (by rw [hp]; rfl)
  case encEmit left last => exact h.encEmitStep (by rw [hp]; rfl) left last
  case rdMagic => exact h.rdMagicStep (by rw [hp]; rfl)
  case treeStart => exact treeInv_of_empty rfl ⟨rfl, rfl, rfl⟩ (hqueue rfl) rfl ParseBegins.start
  case parseBit => exact h.parseBitStep hp
  case parseInternal => exact h.parseInternalStep hp
  case parseSym => exact h.parseSymStep hp
  case parseLeaf sym => exact h.parseLeafStep hp
  case parseRet i => exact h.parseRetStep hp
  case decStart => exact h.decStartStep hp (hvalid .decode (by simp) rfl)
  case decRead => exact h.decReadStep hp
  case decEmit => exact h.decEmitStep hp

theorem treeInv_resetBlock (s : State) : TreeInv (resetBlock s) :=
  treeInv_of_empty rfl ⟨rfl, rfl, rfl⟩ rfl rfl trivial

theorem ControlInv.usesQueue_idle {s : State} (h : ControlInv s) (hb : s.busy = false) : usesQueue s.pos = false := by
  obtain ⟨-, hidle, -⟩ := h
  rw [hidle.mp hb]
  rfl

theorem invariants_kept : KeptByParts fun s => ControlInv s ∧ TreeInv s where
  outside ht hs := by rw [ht]; exact hs
  core hs hb := ⟨hs.1.stepAt hb, hs.2.stepAt hs.1 hb⟩
  started hs hb hi he hp :=
    ⟨hs.1.started hi he hp, hs.2.toQuiet (hs.1.usesQueue_idle hb) rfl rfl (quiet_entryOf _)⟩
  refused {_ w e} hs hb := ⟨hs.1.raiseErr e rfl rfl, hs.2.raise (.inl rfl) rfl rfl (hs.1.usesQueue_idle hb) e⟩
  reset s := ⟨controlInv_resetBlock s, treeInv_resetBlock s⟩

/-- Settles O40: every act of a step keeps both invariants together, since the commands that read the tree are started
only on one (R205). -/
theorem everyStepKeepsTheTreeInvariant : Obligations.EveryStepKeepsTheTreeInvariant :=
  fun _ _ hc hs ht => (invariants_kept.step ⟨hc, hs⟩ ht).2

/-- Settles O41: the state right after reset is what a reset of it leaves. -/
theorem resetMeetsTheInvariants : Obligations.ResetMeetsTheInvariants :=
  ⟨controlInv_resetBlock State.reset, treeInv_resetBlock State.reset⟩

end Sys2Proof.Machine

/-! PROOFS. SEL stands apart from the commands (spec 10_state.md R39). -/

namespace Sys2Proof.Machine

/-- `s` with another SEL (R39). -/
def State.withSel (sym : Sym) (widx : BitVec 3) (s : State) : State := { s with selSym := sym, selWidx := widx }

section
variable (sym : Sym) (widx : BitVec 3)

theorem withSel_busy (s : State) : (s.withSel sym widx).busy = s.busy := rfl
theorem withSel_stack (s : State) : (s.withSel sym widx).stack = s.stack := rfl
theorem withSel_pq (s : State) : (s.withSel sym widx).pq = s.pq := rfl
theorem withSel_draws (s : State) : (s.withSel sym widx).draws = s.draws := rfl
theorem withSel_todo (s : State) : (s.withSel sym widx).todo = s.todo := rfl
theorem readCnt_withSel (k : Nat) (s : State) : readCnt k (s.withSel sym widx) = readCnt k s := rfl
theorem weightOf_withSel (s : State) : weightOf (s.withSel sym widx) = weightOf s := rfl

theorem prerequisite_withSel (i : Instr) (s : State) : prerequisite i (s.withSel sym widx) = prerequisite i s := by
  cases i <;> rfl

theorem withSel_ite (c : Prop) [Decidable c] (s t : State) :
    (if c then s else t).withSel sym widx = if c then s.withSel sym widx else t.withSel sym widx :=
  apply_ite _ c s t

/-! ### The operations with another SEL -/

theorem chanRead_withSel (n : Nat) (s : State) :
    chanRead n (s.withSel sym widx) = ((chanRead n s).1, (chanRead n s).2.withSel sym widx) := by
  simp only [chanRead, State.withSel]
  split <;> rfl

theorem writeCnt_withSel (k : Nat) (v : Word) (s : State) :
    writeCnt k v (s.withSel sym widx) = (writeCnt k v s).withSel sym widx := by
  unfold writeCnt
  split <;> rfl

theorem writeCode_withSel (k : Nat) (e : CodeEntry) (s : State) :
    writeCode k e (s.withSel sym widx) = (writeCode k e s).withSel sym widx := by
  unfold writeCode
  split <;> rfl

theorem walkNode_withSel (i : NodeIx) (p : Bits) (rest : List Frame) (s : State) :
    walkNode i p rest (s.withSel sym widx) = (walkNode i p rest s).withSel sym widx := by
  simp only [walkNode, writeCode_withSel, withSel_ite]
  rfl

theorem serNode_withSel (i : NodeIx) (rest : List Frame) (s : State) :
    serNode i rest (s.withSel sym widx) = (serNode i rest s).withSel sym widx := by
  simp only [serNode, withSel_ite]
  rfl

theorem mergeStep_withSel (s : State) : mergeStep (s.withSel sym widx) = (mergeStep s).withSel sym widx := by
  simp only [mergeStep, weightOf_withSel, withSel_draws, withSel_pq]
  split
  · rfl
  · split <;> rfl

/-- A core step does the same with another SEL. -/
theorem stepAt_withSel (p : Pos) (s : State) : stepAt p (s.withSel sym widx) = (stepAt p s).withSel sym widx := by
  cases p
  case ret =>
    simp only [stepAt, retStep, withSel_todo]
    split <;> rfl
  case clearCnt k => simp only [stepAt, clearCntStep, writeCnt_withSel]; rfl
  case clearCode k => simp only [stepAt, clearCodeStep, writeCode_withSel]; rfl
  case countZero k => simp only [stepAt, countZeroStep, writeCnt_withSel]; rfl
  case countRead =>
    simp only [stepAt, countReadStep, chanRead_withSel]
    rcases chanRead 8 s with ⟨_ | v, t⟩ <;> rfl
  case countBump v => exact congrArg (goto .countRead) (writeCnt_withSel sym widx _ _ s)
  case buildLeaf k =>
    simp only [stepAt, buildLeafStep, readCnt_withSel]
    split
    · by_cases hc : 0 < (readCnt k s).toNat <;> simp only [hc, if_true, if_false] <;> rfl
    · rfl
  case buildMerge => simp only [stepAt, buildMergeStep, withSel_pq, mergeStep_withSel, withSel_ite]; rfl
  case genZero k => simp only [stepAt, genZeroStep, writeCode_withSel, withSel_ite]; rfl
  case genWalk =>
    simp only [stepAt, genWalkStep, withSel_stack]
    split
    · rfl
    · exact walkNode_withSel sym widx _ _ _ s
    · rfl
  case hdrWalk =>
    simp only [stepAt, hdrWalkStep, withSel_stack]
    split
    · rfl
    · exact serNode_withSel sym widx _ _ s
    · rfl
  case encRead =>
    simp only [stepAt, encReadStep, chanRead_withSel]
    rcases chanRead 8 s with ⟨_ | v, t⟩ <;> simp only [emitEntry, withSel_ite] <;> rfl
  case encEmit left last => cases left <;> rfl
  case rdMagic =>
    simp only [stepAt, rdMagicStep, chanRead_withSel]
    rcases chanRead 32 s with ⟨_ | v, t⟩ <;> simp only [withSel_ite] <;> rfl
  case parseBit =>
    simp only [stepAt, parseBitStep, chanRead_withSel]
    rcases chanRead 1 s with ⟨_ | v, t⟩ <;> simp only [withSel_ite] <;> rfl
  case parseSym =>
    simp only [stepAt, parseSymStep, chanRead_withSel]
    rcases chanRead 9 s with ⟨_ | v, t⟩ <;> simp only [withSel_ite] <;> rfl
  case parseRet i =>
    simp only [stepAt, parseRetStep, withSel_stack]
    split
    · simp only [parseEnd, withSel_ite]; rfl
    all_goals rfl
  case decStart => simp only [stepAt, decStartStep, withSel_ite]; rfl
  case decRead =>
    simp only [stepAt, decReadStep, chanRead_withSel]
    rcases chanRead 1 s with ⟨_ | v, t⟩ <;> simp only [decArrive, withSel_ite] <;> rfl
  all_goals rfl

/-! ### The commands with another SEL -/

theorem coreStep_withSel (s : State) : coreStep (s.withSel sym widx) = (coreStep s).withSel sym widx := by
  simp only [coreStep, withSel_busy, withSel_ite]
  exact congrArg (ite _ · _) (stepAt_withSel sym widx s.pos s)

theorem runCore_withSel (n : Nat) (s : State) : runCore n (s.withSel sym widx) = (runCore n s).withSel sym widx := by
  induction n generalizing s with
  | zero => rfl
  | succ n ih => simp only [runCore, withSel_busy, coreStep_withSel, ih, withSel_ite]

theorem startWord_withSel (w : Word) (s : State) :
    startWord w (s.withSel sym widx) = (startWord w s).withSel sym widx := by
  unfold startWord
  split
  · rfl
  · simp only [prerequisite_withSel, withSel_ite]; rfl

theorem submit_withSel (w : Word) (s : State) : submit w (s.withSel sym widx) = (submit w s).withSel sym widx := by
  simp only [submit, startWord_withSel, withSel_ite]
  rfl

theorem runWord_withSel (w : Word) (s : State) : runWord w (s.withSel sym widx) = (runWord w s).withSel sym widx := by
  simp only [runWord, submit_withSel, runCore_withSel, withSel_ite]
  rfl

theorem exec_withSel {i : Instr} {s t : State} (h : exec i s = .next t) :
    exec i (s.withSel sym widx) = .next (t.withSel sym widx) := by
  rw [exec_eq_runWord] at h ⊢
  cases h
  rw [runWord_withSel]

end

/-- Settles O56: a command commutes with a change of SEL; for the change to the SEL that stands there this says that the
command leaves SEL alone. -/
theorem selIsNeitherReadNorWrittenByCommands : Obligations.SelIsNeitherReadNorWrittenByCommands := by
  intro i s t sym widx h
  have hsame : exec i s = .next (t.withSel s.selSym s.selWidx) := exec_withSel s.selSym s.selWidx h
  have ht : t = t.withSel s.selSym s.selWidx := by simpa [h] using hsame
  exact ⟨by rw [ht]; rfl, by rw [ht]; rfl, exec_withSel sym widx h⟩

end Sys2Proof.Machine

/-! PROOFS. The register port: what each register reads (spec 10_state.md R22 to R28 and R39 to R43), and what a write
reaches. -/

namespace Sys2Proof.Machine

/-! ### Fields of the register words -/

/-- The word that holds `v` from bit `k` on and 0 elsewhere. -/
def fieldAt {n : Nat} (k : Nat) (v : BitVec n) : Word := v.setWidth 32 <<< k

@[simp] theorem getElem_fieldAt {n : Nat} (k : Nat) (v : BitVec n) {j : Nat} (hj : j < 32) :
    (fieldAt k v)[j] = (decide (k ≤ j) && v.getLsbD (j - k)) := by
  rcases Nat.lt_or_ge j k with h | h
  · simp [fieldAt, h]
  · simp [fieldAt, Nat.not_lt.mpr h, h]

/-- A field is read where it stands. -/
theorem extract_fieldAt_same {n k : Nat} (v : BitVec n) (h : k + n ≤ 32) : (fieldAt k v).extractLsb' k n = v := by
  ext j hj
  simp [BitVec.getLsbD_eq_getElem (show k + j < 32 by omega), hj]

/-- Elsewhere a field leaves 0. -/
theorem extract_fieldAt_apart {n k i m : Nat} (v : BitVec n) (h : k + n ≤ i ∨ i + m ≤ k) :
    (fieldAt k v).extractLsb' i m = 0#m := by
  ext j hj
  rw [BitVec.getElem_extractLsb', BitVec.getElem_zero]
  rcases Nat.lt_or_ge (i + j) 32 with hij | hij
  · rw [BitVec.getLsbD_eq_getElem hij, getElem_fieldAt]
    rcases h with h | h
    · simp [BitVec.getLsbD_of_ge v (i + j - k) (by omega)]
    · simp [show ¬ k ≤ i + j by omega]
  · exact BitVec.getLsbD_of_ge _ _ hij

theorem bitAt_eq_fieldAt (b : Bool) (k : Nat) : bitAt b k = fieldAt k (BitVec.ofBool b) := by
  apply BitVec.eq_of_toNat_eq
  cases b <;> simp [bitAt, fieldAt]

theorem setWidth_eq_fieldAt {n : Nat} (v : BitVec n) : v.setWidth 32 = fieldAt 0 v := by simp [fieldAt]

theorem statusWord_eq (s : State) : statusWord s =
    fieldAt 0 (BitVec.ofBool s.busy) ||| fieldAt 1 (BitVec.ofBool s.done) ||| fieldAt 2 (BitVec.ofBool s.err)
      ||| fieldAt 3 (BitVec.ofBool s.treeValid) ||| fieldAt 4 (BitVec.ofBool s.codesValid)
      ||| fieldAt 5 (BitVec.ofBool s.cmdDropped) ||| fieldAt 8 s.lastOp := by
  simp only [statusWord, bitAt_eq_fieldAt]
  rfl

theorem errinfoWord_eq (s : State) : errinfoWord s = fieldAt 0 s.errCode ||| fieldAt 8 s.errOp := by
  rw [errinfoWord, setWidth_eq_fieldAt s.errCode]
  rfl

theorem selWord_eq (s : State) : selWord s = fieldAt 0 s.selSym ||| fieldAt 16 s.selWidx := by
  rw [selWord, setWidth_eq_fieldAt s.selSym]
  rfl

theorem treeInfoWord_of_valid {s : State} (h : s.treeValid = true) :
    treeInfoWord s = fieldAt 0 s.nLeaf ||| fieldAt 16 s.nInt := by
  rw [treeInfoWord, if_pos h, setWidth_eq_fieldAt s.nLeaf]
  rfl

/-! ### Reads -/

/-- A readback register reads its exact value on an idle block (R76). -/
theorem readback_idle {s : State} (h : s.busy = false) (v : Word) : readback v s = (v, s) := by simp [readback, h]

/-- Settles O45: STATUS is its fields, which stand apart. -/
theorem statusReadsItsBits : Obligations.StatusReadsItsBits := by
  intro s
  have hv : (hostRead 0x04 s).rdata = statusWord s := rfl
  rw [hv, statusWord_eq]
  refine ⟨?_, ?_, ?_, ?_, ?_, ?_, ?_, ?_, ?_⟩ <;>
    simp [BitVec.extractLsb'_or, extract_fieldAt_same, extract_fieldAt_apart]

/-- Settles O46: each register is its fields, which stand apart. -/
theorem controlRegistersReadTheirFields : Obligations.ControlRegistersReadTheirFields := by
  intro s
  have he : (hostRead 0x08 s).rdata = errinfoWord s := rfl
  have hs : (hostRead 0x18 s).rdata = selWord s := rfl
  rw [he, hs, errinfoWord_eq, selWord_eq]
  refine ⟨rfl, ⟨?_, ?_, ?_, ?_⟩, rfl, rfl, ?_, ?_, ?_, ?_⟩ <;>
    simp [BitVec.extractLsb'_or, extract_fieldAt_same, extract_fieldAt_apart]

/-- Settles O47: TREEINFO is 0 without a tree, and else its two counters. -/
theorem treeinfoReadsTheCounters : Obligations.TreeinfoReadsTheCounters := by
  intro s hb
  have hv : (hostRead 0x14 s).rdata = treeInfoWord s := by simp [hostRead, readRegister, readback_idle hb]
  rw [hv]
  refine ⟨fun ht => by simp [treeInfoWord, ht], fun ht => ?_⟩
  rw [treeInfoWord_of_valid ht]
  refine ⟨?_, ?_, ?_, ?_⟩ <;> simp [BitVec.extractLsb'_or, extract_fieldAt_same, extract_fieldAt_apart]

/-- The registers end at 0x24 (R22). -/
theorem readRegister_unmapped {offset : Nat} (h : 0x28 ≤ offset) (s : State) : readRegister offset s = (0#32, s) := by
  unfold readRegister
  split
  case h_11 => rfl
  all_goals omega

theorem hostWrite_unmapped {offset : Nat} (h : 0x28 ≤ offset) (v : Word) (s : State) : hostWrite offset v s = s := by
  unfold hostWrite
  split
  case h_4 => rfl
  all_goals omega

/-- Settles O49: `hostRead_eq` says what a read leaves alone, and the offsets from 0x28 on name no register. -/
theorem readsHaveNoSideEffect : Obligations.ReadsHaveNoSideEffect := by
  intro s offset
  refine ⟨by rw [hostRead_eq], fun h _ _ => ⟨?_, fun v => hostWrite_unmapped h v s⟩⟩
  rw [hostRead, readRegister_unmapped h]

/-- Element `j` of a bit string stands at bit `length - 1 - j` of its number (R10). -/
theorem testBit_natOfBits (bs : Bits) {j : Nat} (hj : j < bs.length) :
    (natOfBits bs).testBit (bs.length - 1 - j) = bs[j] := by
  induction bs generalizing j with
  | nil => cases hj
  | cons b bs ih =>
    rw [natOfBits_cons, Nat.mul_comm, List.length_cons, Nat.testBit_two_pow_mul_add _ (natOfBits_lt bs)]
    cases j with
    | zero => cases b <;> simp
    | succ j =>
      have hj : j < bs.length := by simpa using hj
      rw [if_pos (by omega), show bs.length + 1 - 1 - (j + 1) = bs.length - 1 - j by omega, ih hj]
      rfl

/-- CODE_WORD of a selected code, its bits from bit 31 down (R42). -/
theorem getLsbD_codeWordWord {s : State} {e : CodeEntry} (h : selectedCode s = some e) {j : Nat} (hj : j < 32) :
    (codeWordWord s).getLsbD (31 - j) = codeWordBit e s.selWidx.toNat j := by
  have hbit := testBit_natOfBits ((List.range 32).map (codeWordBit e s.selWidx.toNat)) (j := j) (by simpa using hj)
  simp only [List.length_map, List.length_range, List.getElem_map, List.getElem_range] at hbit
  simp only [codeWordWord, h, BitVec.getLsbD_ofNat, ← hbit, show 31 - j < 32 by omega, decide_true, Bool.true_and]

theorem codeLenWord_eq {s : State} {e : CodeEntry} (h : selectedCode s = some e) :
    codeLenWord s = fieldAt 31 (BitVec.ofBool true) ||| fieldAt 0 e.len := by
  simp only [codeLenWord, h, bitAt_eq_fieldAt, setWidth_eq_fieldAt e.len]

/-- Settles O48: with a code selected the two registers show it, else they are 0. -/
theorem readbackRegistersShowTheStores : Obligations.ReadbackRegistersShowTheStores := by
  intro s hb
  have hcount : (hostRead 0x1C s).rdata = countRdWord s := by simp [hostRead, readRegister, readback_idle hb]
  have hlen : (hostRead 0x20 s).rdata = codeLenWord s := by simp [hostRead, readRegister, readback_idle hb]
  have hword : (hostRead 0x24 s).rdata = codeWordWord s := by simp [hostRead, readRegister, readback_idle hb]
  rw [hcount, hlen, hword]
  refine ⟨rfl, ?_⟩
  simp only []
  split
  next hsel =>
    have he : selectedCode s = some (readCode s.selSym.toNat s) := if_pos hsel
    refine ⟨?_, fun j hj => getLsbD_codeWordWord he hj⟩
    rw [codeLenWord_eq he]
    refine ⟨?_, ?_, ?_⟩ <;> simp [BitVec.extractLsb'_or, extract_fieldAt_same, extract_fieldAt_apart]
  next hsel =>
    have he : selectedCode s = none := if_neg hsel
    exact ⟨by rw [codeLenWord, he], by rw [codeWordWord, he]⟩

/-! ### Writes -/

/-- The mask of SEL's two fields (R39). -/
theorem selMask_eq : 0x000701FF#32 = fieldAt 0 (BitVec.allOnes 9) ||| fieldAt 16 (BitVec.allOnes 3) := by decide

theorem fieldAt_extract {k n : Nat} (v : Word) :
    fieldAt k (v.extractLsb' k n) = v &&& fieldAt k (BitVec.allOnes n) := by
  ext j hj
  rw [getElem_fieldAt, BitVec.getElem_and, getElem_fieldAt, BitVec.getLsbD_extractLsb']
  by_cases h : k ≤ j
  · simp [h, hj, Bool.and_comm]
  · simp [h]

/-- Settles O50: SEL reads back as the two fields that its mask keeps. -/
theorem writesReachOnlyWritableFields : Obligations.WritesReachOnlyWritableFields := by
  intro s v
  refine ⟨fun offset ho => ?_, fun h0 => ?_, rfl, ?_⟩
  · fin_cases ho <;> rfl
  · show writeCtrl v s = s
    rw [writeCtrl, h0, if_neg Bool.false_ne_true]
  · have hr : (hostRead 0x18 (hostWrite 0x18 v s)).rdata = selWord (writeSel v s) := rfl
    rw [hr, selWord_eq, selMask_eq, BitVec.and_or_distrib_left, ← fieldAt_extract, ← fieldAt_extract]
    rfl

end Sys2Proof.Machine

/-! PROOFS. The host port and the core stand apart (spec 20_memory.md R62 and R76): no core step reads or writes the script,
so a call is a host write and then core steps. -/

namespace Sys2Proof.Machine

/-- `s` with another script: what lands next is not the block's (R76). -/
def State.withScript (rest : List Move) (s : State) : State := { s with script := rest }

section
variable (rest : List Move)

theorem withScript_busy (s : State) : (s.withScript rest).busy = s.busy := rfl
theorem withScript_stack (s : State) : (s.withScript rest).stack = s.stack := rfl
theorem withScript_pq (s : State) : (s.withScript rest).pq = s.pq := rfl
theorem withScript_draws (s : State) : (s.withScript rest).draws = s.draws := rfl
theorem withScript_todo (s : State) : (s.withScript rest).todo = s.todo := rfl
theorem readCnt_withScript (k : Nat) (s : State) : readCnt k (s.withScript rest) = readCnt k s := rfl
theorem weightOf_withScript (s : State) : weightOf (s.withScript rest) = weightOf s := rfl

theorem prerequisite_withScript (i : Instr) (s : State) : prerequisite i (s.withScript rest) = prerequisite i s := by
  cases i <;> rfl

theorem withScript_ite (c : Prop) [Decidable c] (s t : State) :
    (if c then s else t).withScript rest = if c then s.withScript rest else t.withScript rest :=
  apply_ite _ c s t

/-! ### The operations with another script -/

theorem chanRead_withScript (n : Nat) (s : State) :
    chanRead n (s.withScript rest) = ((chanRead n s).1, (chanRead n s).2.withScript rest) := by
  simp only [chanRead, State.withScript]
  split <;> rfl

theorem writeCnt_withScript (k : Nat) (v : Word) (s : State) :
    writeCnt k v (s.withScript rest) = (writeCnt k v s).withScript rest := by
  unfold writeCnt
  split <;> rfl

theorem writeCode_withScript (k : Nat) (e : CodeEntry) (s : State) :
    writeCode k e (s.withScript rest) = (writeCode k e s).withScript rest := by
  unfold writeCode
  split <;> rfl

theorem mergeStep_withScript (s : State) : mergeStep (s.withScript rest) = (mergeStep s).withScript rest := by
  simp only [mergeStep, weightOf_withScript, withScript_draws, withScript_pq]
  split
  · rfl
  · split <;> rfl

/-- A core step does the same with another script. -/
theorem stepAt_withScript (p : Pos) (s : State) :
    stepAt p (s.withScript rest) = (stepAt p s).withScript rest := by
  cases p
  case ret =>
    simp only [stepAt, retStep, withScript_todo]
    split <;> rfl
  case clearCnt k => exact congrArg (goto _) (writeCnt_withScript rest k _ s)
  case clearCode k => exact congrArg (goto _) (writeCode_withScript rest k _ s)
  case countZero k => exact congrArg (goto _) (writeCnt_withScript rest k _ s)
  case countBump v => exact congrArg (goto _) (writeCnt_withScript rest _ _ s)
  case buildLeaf k =>
    simp only [stepAt, buildLeafStep, readCnt_withScript]
    split
    · exact congrArg (goto (.buildLeaf (k + 1))) (withScript_ite rest _ (queueLeaf _ _ s) s).symm
    · rfl
  case buildMerge => simp only [stepAt, buildMergeStep, withScript_pq, mergeStep_withScript, withScript_ite]; rfl
  case genZero k => simp only [stepAt, genZeroStep, writeCode_withScript, withScript_ite]; rfl
  case genWalk =>
    simp only [stepAt, genWalkStep, withScript_stack]
    split
    · rfl
    · simp only [walkNode, writeCode_withScript, withScript_ite]; rfl
    · rfl
  case hdrWalk =>
    simp only [stepAt, hdrWalkStep, withScript_stack]
    split
    · rfl
    · simp only [serNode, withScript_ite]; rfl
    · rfl
  case encEmit left last => cases left <;> rfl
  case parseRet i =>
    simp only [stepAt, parseRetStep, withScript_stack]
    split
    · simp only [parseEnd, withScript_ite]; rfl
    all_goals rfl
  case decStart => simp only [stepAt, decStartStep, withScript_ite]; rfl
  case countRead | encRead | rdMagic | parseBit | parseSym | decRead =>
    simp only [stepAt, countReadStep, encReadStep, rdMagicStep, parseBitStep, parseSymStep, decReadStep,
      chanRead_withScript]
    rcases chanRead _ s with ⟨_ | v, t⟩ <;> simp only [emitEntry, decArrive, withScript_ite] <;> rfl
  all_goals rfl

/-! ### The handling of a word, and host accesses, with another script -/

theorem coreStep_withScript (s : State) : coreStep (s.withScript rest) = (coreStep s).withScript rest := by
  simp only [coreStep, withScript_busy, withScript_ite]
  exact congrArg (ite _ · _) (stepAt_withScript rest s.pos s)

theorem runCore_withScript (n : Nat) (s : State) : runCore n (s.withScript rest) = (runCore n s).withScript rest := by
  induction n generalizing s with
  | zero => rfl
  | succ n ih => simp only [runCore, withScript_busy, coreStep_withScript, ih, withScript_ite]

theorem startWord_withScript (w : Word) (s : State) :
    startWord w (s.withScript rest) = (startWord w s).withScript rest := by
  unfold startWord
  split
  · rfl
  · simp only [prerequisite_withScript, withScript_ite]; rfl

theorem submit_withScript (w : Word) (s : State) : submit w (s.withScript rest) = (submit w s).withScript rest := by
  simp only [submit, startWord_withScript, withScript_ite]
  rfl

theorem hostWrite_withScript (offset : Nat) (v : Word) (s : State) :
    hostWrite offset v (s.withScript rest) = (hostWrite offset v s).withScript rest := by
  unfold hostWrite
  split
  · exact submit_withScript rest v s
  · simp only [writeCtrl, withScript_ite]; rfl
  all_goals rfl

theorem hostRead_withScript_script (offset : Nat) (s : State) : (hostRead offset (s.withScript rest)).script = rest := by
  rw [hostRead_eq]
  rfl

end

/-! ### What the host port accepts -/

/-- An access that the host port accepts leaves the rest of the script (R62). -/
theorem hostAccess_accepted {a : Access} (ha : a.wellFormed = true) (rest : List Move) (s : State) :
    ∃ t, hostAccess a (s.withScript rest) = .next t ∧ t.script = rest := by
  have hwin : a.inWindow = true := (Bool.and_eq_true_iff.mp ha).2
  obtain ⟨offset, bytes, data⟩ := a
  simp only [hostAccess, hwin, ha, not_true_eq_false, if_false]
  cases data with
  | some v => exact ⟨_, rfl, by rw [hostWrite_withScript]; rfl⟩
  | none => exact ⟨_, rfl, hostRead_withScript_script rest offset s⟩

theorem hostAccess_refused {a : Access} (hwin : a.inWindow = true) (ha : a.wellFormed = false) (s : State) :
    hostAccess a s = .refused .hostAccessForm := by simp [hostAccess, hwin, ha]

theorem access_wellFormed_iff {a : Access} (hwin : a.offset < 0x100) :
    a.wellFormed = true ↔ a.bytes = 4 ∧ a.offset % 4 = 0 := by
  simp [Access.wellFormed, Access.wordWide, Access.aligned, Access.inWindow, hwin]

theorem step_access {s : State} {a : Access} {rest : List Move} (h : s.script = .access a :: rest) :
    step s = hostAccess a (s.withScript rest) := by
  rw [step, h]
  rfl

/-- Settles O51: in the window an access is well formed exactly when it is one aligned word. -/
theorem hostPortRefusesOtherAccesses : Obligations.HostPortRefusesOtherAccesses := by
  intro s a rest hs hwin
  rw [step_access hs, ← access_wellFormed_iff hwin]
  refine ⟨fun ha => hostAccess_accepted ha rest s, fun ha => ?_⟩
  exact hostAccess_refused (decide_eq_true hwin) (Bool.not_eq_true _ ▸ ha) _

/-! ### A call is a host write and core steps -/

theorem step_core {s : State} {rest : List Move} (h : s.script = .core :: rest) :
    step s = .next (coreStep (s.withScript rest)) := by
  rw [step, h]
  rfl

theorem runCore_succ_coreStep (n : Nat) (s : State) : runCore (n + 1) s = runCore n (coreStep s) := by
  cases hb : s.busy with
  | true => rw [runCore_succ hb, coreStep, if_pos hb]
  | false => rw [runCore_idle hb, coreStep, if_neg (by simp [hb]), runCore_idle hb]

/-- `n` core moves of the script are `n` core steps (R76, R251). -/
theorem stepN_core (n : Nat) (rest : List Move) (s : State) :
    stepN n (s.withScript (List.replicate n .core ++ rest)) = some ((runCore n s).withScript rest) := by
  induction n generalizing s with
  | zero => rfl
  | succ n ih =>
    rw [stepN, step_core rfl, runCore_succ_coreStep, ← ih, ← coreStep_withScript]
    rfl

theorem step_wordWrite_cmd (w : Word) (rest : List Move) (s : State) :
    step (s.withScript (wordWrite 0x00 w :: rest)) = .next ((submit w s).withScript rest) := by
  rw [← submit_withScript]
  rfl

/-- Settles O6: the bound of a called command is the number of core steps. -/
theorem callIsAWriteAndCoreSteps : Obligations.CallIsAWriteAndCoreSteps := by
  intro i s rest hb
  refine ⟨workBound s, (runCore (workBound s) (submit (encode i) s)).withScript rest, ?_, ?_⟩
  · rw [exec_eq_runWord, runWord, if_neg (by simp [hb]), ← runCore_withScript, ← submit_withScript]
    rfl
  · show stepN _ (s.withScript _) = _
    rw [stepN, step_wordWrite_cmd]
    exact stepN_core _ rest _

end Sys2Proof.Machine

/-! PROOFS. What the commands do on the channels (spec 20_memory.md R69 and R73, 60_exceptions.md R227): a step of a body
writes, moves in the input, or leaves both alone, and a command does what its sub-commands do. -/

namespace Sys2Proof.Machine

/-- The commands that write to the output (R73). -/
def writers : List Instr := [.wrhdr, .encode, .decode, .compress, .decompress]

/-- The commands that do not move in the input (R73). -/
def stayers : List Instr := [.nop, .clear, .build, .gencodes, .wrhdr]

/-- What (sub-)command `i` can do on the channels between `s` and `t`: the source stays, a writer may append to the output,
and all but the stayers may move in the input. -/
structure ChannelUse (i : Instr) (s t : State) : Prop where
  source : t.source = s.source
  out : ∃ bits, t.out = s.out ++ bits ∧ (i ∉ writers → bits = [])
  inPos : i ∈ stayers → t.inPos = s.inPos

/-- What stands on the two channels. -/
def State.channels (s : State) := (s.source, s.inPos, s.out)

/-- What a move in the input leaves alone. -/
def State.sides (s : State) := (s.source, s.out)

section
variable {i : Instr} {s t u : State}

theorem ChannelUse.none (h : t.channels = s.channels) : ChannelUse i s t := by
  simp only [State.channels, Prod.mk.injEq] at h
  obtain ⟨hsource, hpos, hout⟩ := h
  exact ⟨hsource, ⟨[], by simp [hout], fun _ => rfl⟩, fun _ => hpos⟩

theorem ChannelUse.read (hi : i ∉ stayers) (h : t.sides = s.sides) : ChannelUse i s t := by
  simp only [State.sides, Prod.mk.injEq] at h
  obtain ⟨hsource, hout⟩ := h
  exact ⟨hsource, ⟨[], by simp [hout], fun _ => rfl⟩, fun h => absurd h hi⟩

theorem ChannelUse.write {bits : Bits} (hi : i ∈ writers)
    (h : t.channels = { s with out := s.out ++ bits }.channels) : ChannelUse i s t := by
  simp only [State.channels, Prod.mk.injEq] at h
  obtain ⟨hsource, hpos, hout⟩ := h
  exact ⟨hsource, ⟨bits, hout, fun h => absurd hi h⟩, fun _ => hpos⟩

/-- A command and its sub-commands. -/
def runs (i : Instr) : List Instr := i :: subsOf i

theorem not_mem_writers_of_mem_runs : ∀ j ∈ runs i, i ∉ writers → j ∉ writers := by cases i <;> decide

theorem mem_stayers_of_mem_runs : ∀ j ∈ runs i, i ∈ stayers → j ∈ stayers := by cases i <;> decide

/-- What a sub-command does, its command does (R203, R204). -/
theorem ChannelUse.trans {j : Instr} (h : ChannelUse i s t) (hj : j ∈ runs i) (h' : ChannelUse j t u) :
    ChannelUse i s u := by
  obtain ⟨hsource, ⟨bits, hout, hbits⟩, hpos⟩ := h
  obtain ⟨hsource', ⟨bits', hout', hbits'⟩, hpos'⟩ := h'
  have happend : u.out = s.out ++ (bits ++ bits') := by rw [hout', hout, List.append_assoc]
  refine ⟨hsource'.trans hsource, ⟨bits ++ bits', happend, fun hi => ?_⟩, fun hi => ?_⟩
  · rw [hbits hi, hbits' (not_mem_writers_of_mem_runs j hj hi), List.append_nil]
  · rw [hpos' (mem_stayers_of_mem_runs j hj hi), hpos hi]

end

/-! ### The steps of the bodies -/

theorem writeCnt_channels (k : Nat) (v : Word) (s : State) : (writeCnt k v s).channels = s.channels := by
  simp [State.channels]

theorem writeCode_channels (k : Nat) (e : CodeEntry) (s : State) : (writeCode k e s).channels = s.channels := by
  simp [State.channels]

theorem mergeStep_channels (s : State) : (mergeStep s).channels = s.channels := by
  unfold mergeStep
  split
  · rfl
  · split <;> rfl

theorem chanRead_sides (n : Nat) (s : State) : (chanRead n s).2.sides = s.sides := by
  rcases chanRead_cases n s with ⟨v, d, h⟩ | ⟨d, h⟩ <;> rw [h] <;> rfl

theorem emitEntry_sides (e : CodeEntry) (last : Bool) (s : State) : (emitEntry e last s).sides = s.sides := by
  unfold emitEntry
  split <;> rfl

theorem decArrive_sides (s : State) : (decArrive s).sides = s.sides := by
  simp only [decArrive]
  split
  · split <;> rfl
  · rfl

/-- The step at a position of a body does on the channels what the body's command may do. -/
theorem stepAt_channelUse {p : Pos} {i : Instr} (hi : bodyOf p = some i) (s : State) :
    ChannelUse i s (stepAt p s) := by
  cases p <;> simp only [bodyOf, Option.some.injEq, reduceCtorEq] at hi <;> subst hi
  case clearCnt k => exact .none (writeCnt_channels k _ s)
  case clearCode k => exact .none (writeCode_channels k _ s)
  case countZero k => exact .none (writeCnt_channels k _ s)
  case countBump v => exact .none (writeCnt_channels _ _ s)
  case buildLeaf k =>
    refine .none ?_
    simp only [stepAt, buildLeafStep]
    split
    · split <;> rfl
    · rfl
  case buildMerge =>
    refine .none ?_
    simp only [stepAt, buildMergeStep]
    split
    · exact mergeStep_channels s
    · rfl
  case genZero k =>
    refine .none ?_
    simp only [stepAt, genZeroStep]
    split <;> exact writeCode_channels k _ s
  case genWalk =>
    refine .none ?_
    simp only [stepAt, genWalkStep, walkNode]
    split
    · rfl
    · split
      · exact writeCode_channels _ _ s
      · rfl
    · rfl
  case hdrMagic | hdrSym | decEmit => exact .write (by decide) rfl
  case hdrWalk =>
    simp only [stepAt, hdrWalkStep, serNode]
    split
    · exact .none rfl
    · split <;> exact .write (by decide) rfl
    · exact .none rfl
  case encEmit left last =>
    cases left with
    | nil => exact .none rfl
    | cons b left => exact .write (by decide) rfl
  case parseRet k =>
    refine .none ?_
    simp only [stepAt, parseRetStep, parseEnd]
    split
    · split <;> rfl
    all_goals rfl
  case decStart =>
    refine .none ?_
    simp only [stepAt, decStartStep]
    split <;> rfl
  case rewind => exact .read (by decide) rfl
  case countRead =>
    refine .read (by decide) (.trans ?_ (chanRead_sides 8 s))
    simp only [stepAt, countReadStep]
    rcases chanRead 8 s with ⟨_ | v, t⟩ <;> rfl
  case encRead =>
    refine .read (by decide) (.trans ?_ (chanRead_sides 8 s))
    simp only [stepAt, encReadStep]
    rcases chanRead 8 s with ⟨_ | v, t⟩ <;> exact emitEntry_sides _ _ t
  case rdMagic =>
    refine .read (by decide) (.trans ?_ (chanRead_sides 32 s))
    simp only [stepAt, rdMagicStep]
    rcases chanRead 32 s with ⟨_ | v, t⟩
    · rfl
    · dsimp only; split <;> rfl
  case parseBit =>
    refine .read (by decide) (.trans ?_ (chanRead_sides 1 s))
    simp only [stepAt, parseBitStep]
    rcases chanRead 1 s with ⟨_ | v, t⟩
    · rfl
    · dsimp only
      split
      · split <;> rfl
      · rfl
  case parseSym =>
    refine .read (by decide) (.trans ?_ (chanRead_sides 9 s))
    simp only [stepAt, parseSymStep]
    rcases chanRead 9 s with ⟨_ | v, t⟩
    · rfl
    · dsimp only; split <;> rfl
  case decRead =>
    refine .read (by decide) (.trans ?_ (chanRead_sides 1 s))
    simp only [stepAt, decReadStep]
    rcases chanRead 1 s with ⟨_ | v, t⟩
    · rfl
    · exact decArrive_sides { t with cur := childOf v (readNode t.cur t) }
  all_goals exact .none rfl

/-! ### The run of a command -/

/-- What every core step of a busy block keeps, a run keeps. -/
theorem runCore_kept {P : State → Prop} (hstep : ∀ s, P s → s.busy = true → P (stepAt s.pos s)) (n : Nat) {s : State}
    (hs : P s) : P (runCore n s) := by
  induction n generalizing s with
  | zero => exact hs
  | succ n ih =>
    cases hb : s.busy with
    | true => rw [runCore_succ hb]; exact ih (hstep s hs hb)
    | false => rwa [runCore_idle hb]

/-- The run of command `i` from `s` has come to `u`: the body that runs and those to come are the command's. -/
structure RunsFrom (i : Instr) (s u : State) : Prop where
  use : ChannelUse i s u
  body : u.busy = true → ∀ j, bodyOf u.pos = some j → j ∈ runs i
  todo : u.busy = true → ∀ j ∈ u.todo, j ∈ runs i

/-- A command whose body does not start leaves the block idle and the channels alone: in the error state it is dropped, NOP
has no body, and without its prerequisite it raises SEQUENCE (R200, R205, R222). -/
theorem submit_cases (i : Instr) {s : State} (hb : s.busy = false) :
    submit (encode i) s = s.started i ∨
      (submit (encode i) s).busy = false ∧ (submit (encode i) s).channels = s.channels := by
  by_cases hi : i = .nop
  · subst hi
    exact .inr (by rw [encode_eq_zero.mpr rfl, submit_zero hb]; exact ⟨hb, rfl⟩)
  by_cases he : s.err = false ∨ i = .clear
  · cases hp : prerequisite i s with
    | true => exact .inl (submit_started hb hi he hp)
    | false =>
      refine .inr ?_
      rw [submit_accepted hb (by rwa [Ne, encode_eq_zero]) (by rwa [encode_eq_one]), startWord, decode_encode]
      simp only [hp, Bool.false_eq_true, if_false]
      exact ⟨rfl, rfl⟩
  · obtain ⟨herr, hclear⟩ := not_or.mp he
    refine .inr ?_
    rw [submit_error hb (by simpa using herr) (by rwa [Ne, encode_eq_zero]) (by rwa [Ne, encode_eq_one])]
    exact ⟨hb, rfl⟩

theorem RunsFrom.of_idle {i : Instr} {s u : State} (huse : ChannelUse i s u) (hb : u.busy = false) : RunsFrom i s u :=
  ⟨huse, fun h => absurd h (by simp [hb]), fun h => absurd h (by simp [hb])⟩

/-- The body of a command starts at its entry, with the sub-commands to come. -/
theorem mem_runs_of_entryOf {i j k : Instr} (hj : j ∈ runs i) (hk : bodyOf (entryOf j) = some k) : k ∈ runs i := by
  rcases entryOf_inBody j with h | h
  · rw [h] at hk; cases hk
  · rw [h] at hk; cases hk; exact hj

theorem runsFrom_submit (i : Instr) {s : State} (hb : s.busy = false) : RunsFrom i s (submit (encode i) s) := by
  rcases submit_cases i hb with h | ⟨hidle, hch⟩
  · rw [h]
    exact ⟨.none rfl, fun _ _ hj => mem_runs_of_entryOf List.mem_cons_self hj, fun _ _ hj => List.mem_cons_of_mem _ hj⟩
  · exact .of_idle (.none hch) hidle

/-- The next sub-command starts, or the command completes (R203, R204, R223). -/
theorem RunsFrom.ret {i : Instr} {s u : State} (h : RunsFrom i s u) (hb : u.busy = true) : RunsFrom i s (retStep u) := by
  have htodo := h.todo hb
  unfold retStep
  split
  · exact .of_idle (h.use.trans List.mem_cons_self (.none rfl)) rfl
  next j rest heq =>
    rw [heq] at htodo
    exact ⟨h.use.trans List.mem_cons_self (.none rfl), fun _ _ hk => mem_runs_of_entryOf (htodo j (by simp)) hk,
      fun _ k hk => htodo k (by simp [show k ∈ rest from hk])⟩

theorem RunsFrom.stepAt {i : Instr} {s u : State} (h : RunsFrom i s u) (hb : u.busy = true) :
    RunsFrom i s (stepAt u.pos u) := by
  cases hbody : bodyOf u.pos with
  | none =>
    rcases bodyOf_eq_none.mp hbody with hp | hp
    · rw [hp]; exact h
    · rw [hp]; exact h.ret hb
  | some j =>
    have hj : j ∈ runs i := h.body hb j hbody
    have huse : ChannelUse i s (Machine.stepAt u.pos u) := h.use.trans hj (stepAt_channelUse hbody u)
    by_cases hr : u.pos = .clearRegs
    · rw [hr] at huse ⊢
      exact ⟨huse, nofun, h.todo⟩
    · rcases stepAt_cases rfl hbody hr with hk | ⟨e, v, hv, -⟩
      · have htodo : (Machine.stepAt u.pos u).todo = u.todo := congrArg Control.todo hk.same
        refine ⟨huse, fun _ k hpos => ?_, fun _ => by rw [htodo]; exact h.todo hb⟩
        rcases hk.pos with hret | hin
        · rw [hret] at hpos; cases hpos
        · rw [hin] at hpos; cases hpos; exact hj
      · exact .of_idle huse (by rw [hv]; rfl)

/-- Settles O55: the word's handling uses no channel, and every step of the run uses them as its body's command may. -/
theorem outputIsOnlyAppendedTo : Obligations.OutputIsOnlyAppendedTo := by
  intro i s t h
  have huse : ChannelUse i s t := by
    rw [exec_eq_runWord, runWord] at h
    cases hb : s.busy with
    | true =>
      rw [hb, if_pos rfl, submit_busy hb] at h
      cases h
      exact .none rfl
    | false =>
      rw [hb, if_neg Bool.false_ne_true] at h
      cases h
      exact (runCore_kept (fun _ hu hbu => hu.stepAt hbu) _ (runsFrom_submit i hb)).use
  exact ⟨huse.source, huse.out, huse.inPos⟩

end Sys2Proof.Machine

/-! PROOFS. The command words and their decoder (spec 30_encoding.md R90 to R97), what a called word does (60_exceptions.md
R222 to R225), and the pseudo-instructions of a host script (30_encoding.md R100). -/

namespace Sys2Proof.Machine

/-! ### The command words -/

/-- A command is its opcode and zeros (R90). -/
theorem rsvdField_encode (i : Instr) : rsvdField (encode i) = 0#24 := by cases i <;> rfl

theorem legalWord_encode (i : Instr) : legalWord (encode i) = true := by cases i <;> rfl

theorem toNat_encode_le (i : Instr) : (encode i).toNat ≤ 0x0C := by cases i <;> decide

/-- The commands in the order of the opcode map (R93). -/
def commands : List Instr :=
  [.nop, .clear, .count, .build, .gencodes, .wrhdr, .rewind, .encode, .rdmagic, .rdtree, .decode, .compress, .decompress]

/-- The opcodes run from 0 to 0x0C (R93). -/
theorem opcodes_eq_range : commands.map (fun i => (opcode i).toNat) = List.range 13 := rfl

/-- Every word up to 0x0C is the word of a command (R96). -/
theorem exists_eq_encode {w : Word} (h : w.toNat ≤ 0x0C) : ∃ i, w = encode i := by
  have hmem : w.toNat ∈ commands.map (fun i => (opcode i).toNat) := by
    rw [opcodes_eq_range, List.mem_range]
    omega
  obtain ⟨i, -, hi⟩ := List.mem_map.mp hmem
  refine ⟨i, BitVec.eq_of_toNat_eq ?_⟩
  rw [← hi, encode, BitVec.toNat_setWidth_of_le (by decide)]

theorem decode_eq_ok_iff {w : Word} {i : Instr} : decode w = .ok i ↔ w = encode i :=
  ⟨eq_encode_of_decode, fun h => h ▸ decode_encode i⟩

/-- The words that are commands (R96). -/
theorem exists_decode_eq_ok_iff {w : Word} : (∃ i, decode w = .ok i) ↔ w.toNat ≤ 0x0C := by
  simp only [decode_eq_ok_iff]
  exact ⟨fun ⟨i, hi⟩ => hi ▸ toNat_encode_le i, exists_eq_encode⟩

/-- A word is legal by its fields exactly when it is up to 0x0C as a number (R93, R96). -/
theorem legalWord_iff {w : Word} : legalWord w = true ↔ w.toNat ≤ 0x0C := by
  refine ⟨fun h => ?_, fun h => ?_⟩
  · obtain ⟨hr, ho⟩ : rsvdField w = 0#24 ∧ (opField w).toNat ≤ 0x0C := by
      simpa only [legalWord, rsvdField, opField, Bool.and_eq_true, beq_iff_eq, decide_eq_true_eq] using h
    rwa [toNat_opField hr] at ho
  · obtain ⟨i, rfl⟩ := exists_eq_encode h
    exact legalWord_encode i

theorem decode_reservedBits {w : Word} (h : rsvdField w ≠ 0#24) : decode w = .error .reservedBits := if_pos h

theorem decode_reservedOpcode {w : Word} (hr : rsvdField w = 0#24) (ho : 0x0C < (opField w).toNat) :
    decode w = .error .reservedOpcode := by
  rw [decode, if_neg (not_not_intro hr)]
  split
  case h_14 => rfl
  all_goals omega

/-- A word above 0x0C is no command, for its reserved bits or for its opcode (R94, R95). -/
theorem exists_decode_eq_error {w : Word} (h : 0x0C < w.toNat) : ∃ e, decode w = .error e := by
  cases hd : decode w with
  | error e => exact ⟨e, rfl⟩
  | ok i => exact absurd (exists_decode_eq_ok_iff.mp ⟨i, hd⟩) (Nat.not_le.mpr h)

/-- Settles O1: the fields of a command's word are its opcode and 0, and the decoder reads the opcode's row. -/
theorem decodeInvertsEncode : Obligations.DecodeInvertsEncode := fun i =>
  ⟨decode_encode i, opField_encode i, rsvdField_encode i, legalWord_encode i⟩

/-- Settles O2: the opcodes are the numbers up to 0x0C, and a word is its opcode when its reserved bits are 0. -/
theorem exactlyThirteenWordsAreLegal : Obligations.ExactlyThirteenWordsAreLegal :=
  ⟨fun _ _ => decode_eq_ok_iff, fun _ => exists_decode_eq_ok_iff, fun _ => legalWord_iff.trans exists_decode_eq_ok_iff.symm⟩

/-- Settles O3: one lemma for each of the decoder's two rejections, and a word that passes both tests is a command's. -/
theorem decodeChecksReservedBitsThenOpcode : Obligations.DecodeChecksReservedBitsThenOpcode := by
  refine ⟨fun w => ?_, opcodes_eq_range⟩
  split
  next hr => exact decode_reservedBits hr
  next hr =>
    have hr : rsvdField w = 0#24 := not_not.mp hr
    split
    next ho => exact decode_reservedOpcode hr ho
    next ho =>
      have ho : (opField w).toNat ≤ 0x0C := Nat.not_lt.mp ho
      obtain ⟨i, rfl⟩ := exists_eq_encode (toNat_opField hr ▸ ho)
      exact ⟨i, decode_encode i, (opField_encode i).symm⟩

/-- Settles O4: six closed words. -/
theorem writtenOutWordsDecode : Obligations.WrittenOutWordsDecode := by
  refine ⟨?_, ?_, ?_, ?_, ?_, ?_⟩ <;> decide

/-! ### A called word -/

theorem step_call {s : State} {w : Word} {rest : List Move} (h : s.script = .call w :: rest) :
    step s = stepCall w (s.withScript rest) := by
  rw [step, h]
  rfl

theorem stepCall_of_ok {w : Word} {i : Instr} (h : decode w = .ok i) (s : State) : stepCall w s = exec i s := by
  rw [stepCall, h]

theorem stepCall_of_error {w : Word} {e : Illegal} (h : decode w = .error e) (s : State) :
    stepCall w s = .next (runWord w s) := by
  rw [stepCall, h]

/-- A word of the opcode table is the 32-bit word with those bits (R91). -/
theorem decode_of_decodeTableWord {n w : Nat} {i : Instr} (h : decodeTableWord n w = some i) :
    decode (BitVec.ofNat 32 w) = .ok i := by
  unfold decodeTableWord at h
  split at h
  · cases hd : decode (BitVec.ofNat 32 w) with
    | ok j => rw [hd] at h; exact congrArg Except.ok (Option.some.inj h)
    | error e => rw [hd] at h; cases h
  · cases h

/-- Settles O5: the step takes the call off the script, and `withFetchWord` is one call at its head. -/
theorem stepRunsTheDecodedCommand : Obligations.StepRunsTheDecodedCommand := by
  refine ⟨fun s w i rest hs hd => ?_, fun s w i hd => ?_⟩
  · rw [step_call hs, stepCall_of_ok hd]
    rfl
  · rw [step_call (w := BitVec.ofNat 32 w) (rest := s.script) rfl, stepCall_of_ok (decode_of_decodeTableWord hd)]
    rfl

/-- `s` after the idle block has accepted the word `w` and raised ILLEGAL_CMD for it (R94, R95, R225). -/
def State.refusedWord (w : Word) (s : State) : State :=
  { s with done := false, lastOp := opField w, curop := opField w, err := true, errCode := 0x8#4, errOp := opField w,
           pos := .idle, todo := [], stack := [] }

theorem raiseErr_acceptWord {s : State} (hb : s.busy = false) (w : Word) :
    raiseErr .illegalCmd (acceptWord w s) = s.refusedWord w := by
  simp only [raiseErr, acceptWord, State.refusedWord, hb]
  rfl

/-- A word above 0x0C is neither NOP's nor CLEAR's. -/
theorem ne_of_illegal {w : Word} (h : 0x0C < w.toNat) : w ≠ 0#32 ∧ w ≠ 1#32 := by
  constructor <;> rintro rfl <;> exact absurd h (by decide)

/-- A ready block accepts an illegal word and raises ILLEGAL_CMD (R94, R95). -/
theorem submit_illegal {s : State} (hs : Ready s) {w : Word} (hw : 0x0C < w.toNat) : submit w s = s.refusedWord w := by
  obtain ⟨hb, he⟩ := hs
  obtain ⟨e, hd⟩ := exists_decode_eq_error hw
  rw [submit_accepted hb (ne_of_illegal hw).1 (.inl he), ← raiseErr_acceptWord hb, startWord, hd]

/-- After the refusal the block is idle, so the call of an illegal word runs no core step. -/
theorem runWord_illegal {s : State} (hs : Ready s) {w : Word} (hw : 0x0C < w.toNat) : runWord w s = s.refusedWord w := by
  refine runWord_of_leads (n := 0) hs.1 ?_ hs.1 (Nat.zero_le _)
  rw [submit_illegal hs hw]
  exact .refl _

/-- Settles O12: the decoder rejects the word, so a ready block raises ILLEGAL_CMD and stays idle; in the error state the word
is dropped before it is decoded. -/
theorem illegalWordRaisesIllegalCmd : Obligations.IllegalWordRaisesIllegalCmd := by
  intro s w hw
  refine ⟨fun hs => submit_illegal hs hw, fun rest hs hscript => ?_, fun hb he => ?_⟩
  · have hready : Ready (s.withScript rest) := hs
    obtain ⟨e, hd⟩ := exists_decode_eq_error hw
    rw [step_call hscript, stepCall_of_error hd, runWord_illegal hready hw]
    rfl
  · obtain ⟨h₀, h₁⟩ := ne_of_illegal hw
    exact submit_error hb he h₀ h₁

/-! ### Pseudo-instructions -/

/-- Every register stands at a word of the window (R22, R61). -/
theorem regOffset_word (r : Reg) : regOffset r < 0x100 ∧ regOffset r % 4 = 0 := by cases r <;> decide

/-- A host write that a script makes at the offset of a register (R22, R62). -/
theorem step_regWrite {s : State} {r : Reg} {v : Word} {rest : List Move}
    (h : s.script = wordWrite (regOffset r) v :: rest) :
    step s = .next (hostWrite (regOffset r) v (s.withScript rest)) := by
  obtain ⟨hlt, halign⟩ := regOffset_word r
  have hwin : (⟨regOffset r, 4, some v⟩ : Access).inWindow = true := decide_eq_true hlt
  have hwf : (⟨regOffset r, 4, some v⟩ : Access).wellFormed = true := (access_wellFormed_iff hlt).mpr ⟨rfl, halign⟩
  rw [step_access h, hostAccess, if_neg (not_not_intro hwin), if_neg (not_not_intro hwf)]

theorem step_wait {s : State} {rest : List Move} (h : s.script = .wait :: rest) : step s = .next (waitPoll rest s) := by
  rw [step, h]
  rfl

/-- A word below `2^n` is the field of its low `n` bits. -/
theorem shiftLeft_eq_fieldAt {n k : Nat} {v : Word} (h : v.toNat < 2 ^ n) : v <<< k = fieldAt k (v.setWidth n) := by
  have hv : (v.setWidth n).setWidth 32 = v := by
    apply BitVec.eq_of_toNat_eq
    simp only [BitVec.toNat_setWidth, Nat.mod_eq_of_lt h, Nat.mod_eq_of_lt v.isLt]
  rw [fieldAt, hv]

/-- The immediate of `SELECT <sym>, <widx>` is the two fields of SEL (R39, R100). -/
theorem writeSel_select {sym widx : Word} (hsym : sym.toNat < 2 ^ 9) (hwidx : widx.toNat < 2 ^ 3) (s : State) :
    writeSel (widx <<< 16 ||| sym) s = { s with selSym := sym.setWidth 9, selWidx := widx.setWidth 3 } := by
  have himm : widx <<< 16 ||| sym = fieldAt 16 (widx.setWidth 3) ||| fieldAt 0 (sym.setWidth 9) := by
    rw [← shiftLeft_eq_fieldAt hsym, ← shiftLeft_eq_fieldAt hwidx, BitVec.shiftLeft_zero]
  simp [writeSel, himm, BitVec.extractLsb'_or, extract_fieldAt_same, extract_fieldAt_apart]

/-- No core step touches the script (R76). -/
theorem coreStep_script (s : State) : (coreStep s).script = s.script := by
  have h : coreStep s = (coreStep s).withScript s.script := coreStep_withScript s.script s
  rw [h]
  rfl

/-- Settles O52: `SELECT` and `RESET` are one write each, to SEL and to CTRL, and `WAIT` polls STATUS, keeping its place in
the script while BUSY = 1. -/
theorem pseudoInstructionsExpand : Obligations.PseudoInstructionsExpand := by
  intro s rest
  refine ⟨fun sym widx hsym hwidx hs => ?_, fun hs => ?_, fun hs hb => ?_, fun hs hb => ⟨?_, coreStep_script s⟩⟩
  · rw [step_regWrite (r := .sel) hs]
    exact congrArg _ (writeSel_select hsym hwidx (s.withScript rest))
  · rw [step_regWrite (r := .ctrl) hs]
    rfl
  · rw [step_wait hs, waitPoll, if_neg (by simp [hb])]
    rfl
  · rw [step_wait hs, waitPoll, if_pos hb]
    rfl

end Sys2Proof.Machine

/-! PROOFS. What COUNT counts (spec 40_frequency_counter.md R110 and R111), and which commands write the counts, the code
table and the tree (R112, 10_state.md R29, R30 and R33): a step of a body writes no store but those of the body's command,
and a command writes what its sub-commands write. -/

namespace Sys2Proof.Machine

/-! ### COUNT -/

/-- The counts that COUNT leaves when the bytes read are `bytes` (R110). -/
def countsOf (bytes : List Byte) : Vector Word 256 := countBytes (Vector.replicate 256 0#32) bytes

theorem readCnt_countsOf {t : State} {bytes : List Byte} (h : t.cnt = countsOf bytes) (b : Byte) :
    (readCnt b.toNat t).toNat = min (bytes.count b) (2 ^ 32 - 1) := by
  rw [readCnt_of_lt b.isLt]
  simpa [h, countsOf] using toNat_countBytes bytes (Vector.replicate 256 0#32) b

/-- COUNT on a ready block with a finite input (R110). -/
theorem exec_count {s : State} (hs : Ready s) (hf : FiniteInput s) :
    exec .count s = .next (({ s with
      cnt := countsOf (bytesOf s.rest), inPos := s.inPos + 8 * (s.rest.length / 8) } : State).finished .count .count) := by
  obtain ⟨hb, he⟩ := hs
  have hrest : (s.started .count).rest = s.rest := rest_congr rfl rfl
  have hbody := count_leads (s := s.started .count) (hf.congr rfl) rfl rfl
  have hbound : s.rest.length ≤ s.source.length := length_rest_le hf
  rw [hrest] at hbody
  exact exec_of_leads hb nofun (.inl he) rfl (hbody.complete rfl rfl rfl) rfl (by rw [workBound]; omega)

/-- Settles O18: COUNT ends with `countsOf` the bytes left, whose entries are their saturated numbers. -/
theorem countCountsTheBytesLeft : Obligations.CountCountsTheBytesLeft := fun _ hs hf =>
  ⟨_, exec_count hs hf, rfl, readCnt_countsOf rfl⟩

/-! ### What a command may write in the stores -/

/-- The commands that write the counts (R112). -/
def cntWriters : List Instr := [.count, .clear, .compress]

/-- The commands that write the code table (R33). -/
def codeWriters : List Instr := [.gencodes, .clear, .compress]

/-- The commands that write the node store or the tree registers (R30). -/
def treeWriters : List Instr := [.build, .rdtree, .clear, .compress, .decompress]

/-- What (sub-)command `i` can do in the stores between `s` and `t`: each store stays but for its writers. -/
structure StoreUse (i : Instr) (s t : State) : Prop where
  cnt : i ∉ cntWriters → t.cnt = s.cnt
  code : i ∉ codeWriters → t.code = s.code
  tree : i ∉ treeWriters → t.store = s.store

/-- The three stores. -/
def State.stores (s : State) := (s.cnt, s.code, s.store)

section
variable {i : Instr} {s t u : State}

theorem StoreUse.none (h : t.stores = s.stores) : StoreUse i s t := by
  simp only [State.stores, Prod.mk.injEq] at h
  obtain ⟨hcnt, hcode, htree⟩ := h
  exact ⟨fun _ => hcnt, fun _ => hcode, fun _ => htree⟩

theorem StoreUse.writesCnt (hi : i ∈ cntWriters) (hcode : t.code = s.code) (htree : t.store = s.store) : StoreUse i s t :=
  ⟨fun h => absurd hi h, fun _ => hcode, fun _ => htree⟩

theorem StoreUse.writesCode (hi : i ∈ codeWriters) (hcnt : t.cnt = s.cnt) (htree : t.store = s.store) : StoreUse i s t :=
  ⟨fun _ => hcnt, fun h => absurd hi h, fun _ => htree⟩

theorem StoreUse.writesTree (hi : i ∈ treeWriters) (hcnt : t.cnt = s.cnt) (hcode : t.code = s.code) : StoreUse i s t :=
  ⟨fun _ => hcnt, fun _ => hcode, fun h => absurd hi h⟩

/-- CLEAR writes every store (R201). -/
theorem StoreUse.clear : StoreUse .clear s t :=
  ⟨fun h => absurd (by decide) h, fun h => absurd (by decide) h, fun h => absurd (by decide) h⟩

theorem not_mem_cntWriters_of_mem_runs : ∀ j ∈ runs i, i ∉ cntWriters → j ∉ cntWriters := by cases i <;> decide

theorem not_mem_codeWriters_of_mem_runs : ∀ j ∈ runs i, i ∉ codeWriters → j ∉ codeWriters := by cases i <;> decide

theorem not_mem_treeWriters_of_mem_runs : ∀ j ∈ runs i, i ∉ treeWriters → j ∉ treeWriters := by cases i <;> decide

/-- What a sub-command writes, its command writes (R203, R204). -/
theorem StoreUse.trans {j : Instr} (h : StoreUse i s t) (hj : j ∈ runs i) (h' : StoreUse j t u) : StoreUse i s u where
  cnt hi := (h'.cnt (not_mem_cntWriters_of_mem_runs j hj hi)).trans (h.cnt hi)
  code hi := (h'.code (not_mem_codeWriters_of_mem_runs j hj hi)).trans (h.code hi)
  tree hi := (h'.tree (not_mem_treeWriters_of_mem_runs j hj hi)).trans (h.tree hi)

end

/-! ### The steps of the bodies -/

theorem writeCnt_store (k : Nat) (v : Word) (s : State) : (writeCnt k v s).store = s.store := by simp [State.store]

theorem writeCode_store (k : Nat) (e : CodeEntry) (s : State) : (writeCode k e s).store = s.store := by simp [State.store]

theorem chanRead_stores (n : Nat) (s : State) : (chanRead n s).2.stores = s.stores := by
  rcases chanRead_cases n s with ⟨v, d, h⟩ | ⟨d, h⟩ <;> rw [h] <;> rfl

theorem emitEntry_stores (e : CodeEntry) (last : Bool) (s : State) : (emitEntry e last s).stores = s.stores := by
  unfold emitEntry
  split <;> rfl

theorem decArrive_stores (s : State) : (decArrive s).stores = s.stores := by
  simp only [decArrive]
  split
  · split <;> rfl
  · rfl

theorem mergeStep_storeUse (s : State) : StoreUse .build s (mergeStep s) := by
  unfold mergeStep
  split
  · exact .none rfl
  · split
    · exact .none rfl
    · exact .writesTree (by decide) rfl rfl

/-- The step at a position of a body writes no store but those of the body's command. -/
theorem stepAt_storeUse {p : Pos} {i : Instr} (hi : bodyOf p = some i) (s : State) : StoreUse i s (stepAt p s) := by
  cases p <;> simp only [bodyOf, Option.some.injEq, reduceCtorEq] at hi <;> subst hi
  case clearCnt | clearCode | clearRegs => exact .clear
  case countZero k => exact .writesCnt (by decide) (writeCnt_code k _ s) (writeCnt_store k _ s)
  case countBump v => exact .writesCnt (by decide) (writeCnt_code _ _ s) (writeCnt_store _ _ s)
  case buildStart | treeStart | parseInternal | parseLeaf => exact .writesTree (by decide) rfl rfl
  case buildLeaf k =>
    simp only [stepAt, buildLeafStep]
    split
    · split <;> exact .writesTree (by decide) rfl rfl
    · exact .writesTree (by decide) rfl rfl
  case buildMerge =>
    simp only [stepAt, buildMergeStep]
    split
    · exact mergeStep_storeUse s
    · exact .writesTree (by decide) rfl rfl
  case parseRet k =>
    simp only [stepAt, parseRetStep, parseEnd]
    split
    · split <;> exact .writesTree (by decide) rfl rfl
    all_goals exact .writesTree (by decide) rfl rfl
  case genZero k =>
    simp only [stepAt, genZeroStep]
    split <;> exact .writesCode (by decide) (writeCode_cnt k _ s) (writeCode_store k _ s)
  case genWalk =>
    simp only [stepAt, genWalkStep, walkNode]
    split
    · exact .none rfl
    · split
      · exact .writesCode (by decide) (writeCode_cnt _ _ s) (writeCode_store _ _ s)
      · exact .none rfl
    · exact .none rfl
  case hdrWalk =>
    refine .none ?_
    simp only [stepAt, hdrWalkStep, serNode]
    split
    · rfl
    · split <;> rfl
    · rfl
  case encEmit left last => cases left <;> exact .none rfl
  case decStart =>
    refine .none ?_
    simp only [stepAt, decStartStep]
    split <;> rfl
  case countRead =>
    refine .none (.trans ?_ (chanRead_stores 8 s))
    simp only [stepAt, countReadStep]
    rcases chanRead 8 s with ⟨_ | v, t⟩ <;> rfl
  case encRead =>
    refine .none (.trans ?_ (chanRead_stores 8 s))
    simp only [stepAt, encReadStep]
    rcases chanRead 8 s with ⟨_ | v, t⟩ <;> exact emitEntry_stores _ _ t
  case rdMagic =>
    refine .none (.trans ?_ (chanRead_stores 32 s))
    simp only [stepAt, rdMagicStep]
    rcases chanRead 32 s with ⟨_ | v, t⟩
    · rfl
    · dsimp only; split <;> rfl
  case parseBit =>
    refine .none (.trans ?_ (chanRead_stores 1 s))
    simp only [stepAt, parseBitStep]
    rcases chanRead 1 s with ⟨_ | v, t⟩
    · rfl
    · dsimp only
      split
      · split <;> rfl
      · rfl
  case parseSym =>
    refine .none (.trans ?_ (chanRead_stores 9 s))
    simp only [stepAt, parseSymStep]
    rcases chanRead 9 s with ⟨_ | v, t⟩
    · rfl
    · dsimp only; split <;> rfl
  case decRead =>
    refine .none (.trans ?_ (chanRead_stores 1 s))
    simp only [stepAt, decReadStep]
    rcases chanRead 1 s with ⟨_ | v, t⟩
    · rfl
    · exact decArrive_stores { t with cur := childOf v (readNode t.cur t) }
  case genStart | hdrMagic | hdrSym | rewind | decEmit => exact .none rfl

/-! ### The run of a command -/

theorem startWord_stores (w : Word) (s : State) : (startWord w s).stores = s.stores := by
  unfold startWord
  split
  · rfl
  · split <;> rfl

/-- The handling of a word writes no store, whether it is dropped, refused or accepted (R222, R225). -/
theorem submit_stores (w : Word) (s : State) : (submit w s).stores = s.stores := by
  unfold submit
  split_ifs
  · rfl
  · rfl
  · rfl
  · exact startWord_stores w s

theorem retStep_stores (s : State) : (retStep s).stores = s.stores := by
  unfold retStep
  split <;> rfl

theorem StoreUse.stepAt {i : Instr} {s u : State} (h : StoreUse i s u) (hrun : RunsFrom i s u) (hb : u.busy = true) :
    StoreUse i s (stepAt u.pos u) := by
  cases hbody : bodyOf u.pos with
  | none =>
    rcases bodyOf_eq_none.mp hbody with hp | hp <;> rw [hp]
    · exact h
    · exact h.trans List.mem_cons_self (.none (retStep_stores u))
  | some j => exact h.trans (hrun.body hb j hbody) (stepAt_storeUse hbody u)

/-- What a called command writes in the stores, whatever the state of the block. -/
theorem runWord_storeUse (i : Instr) (s : State) : StoreUse i s (runWord (encode i) s) := by
  have hsubmit : StoreUse i s (submit (encode i) s) := .none (submit_stores _ s)
  unfold runWord
  cases hb : s.busy with
  | true => exact hsubmit
  | false =>
    exact (runCore_kept (P := fun u => RunsFrom i s u ∧ StoreUse i s u)
      (fun u ⟨hrun, huse⟩ hbu => ⟨hrun.stepAt hbu, huse.stepAt hrun hbu⟩) _ ⟨runsFrom_submit i hb, hsubmit⟩).2

/-- Settles O53: every step of the run writes no store but those of its body's command, which the command runs. -/
theorem onlyTheirWritersChangeTheStores : Obligations.OnlyTheirWritersChangeTheStores := by
  intro i s t h
  rw [exec_eq_runWord] at h
  cases h
  obtain ⟨hcnt, hcode, htree⟩ := runWord_storeUse i s
  refine ⟨hcnt, hcode, fun hi => ?_⟩
  simpa only [State.store, Prod.mk.injEq] using htree hi

end Sys2Proof.Machine

/-! PROOFS. The tree that BUILD makes (spec 41_tree_builder.md R120 to R128): one lemma says what BUILD ends with, and the
symbols, the weights and the shape of the tree follow from the merges that made it. -/

namespace Sys2Proof.Machine

/-! ### The symbols that BUILD counts -/

/-- A byte symbol is counted when its count is positive, and EOS always (R121). -/
theorem mem_countedSymbols {s : State} {x : Sym} :
    x ∈ countedSymbols s.cnt ↔ x = eos ∨ x.toNat < 256 ∧ 0 < (readCnt x.toNat s).toNat := by
  have hbyte : x ∈ (List.range 256).map (BitVec.ofNat 9) ↔ x.toNat < 256 := by
    simp only [List.mem_map, List.mem_range]
    constructor
    · rintro ⟨i, hi, rfl⟩
      rw [BitVec.toNat_ofNat]; omega
    · exact fun h => ⟨x.toNat, h, by simp⟩
  rw [countedSymbols, List.mem_append, List.mem_filter, hbyte, List.mem_singleton, or_comm]
  refine or_congr_right (and_congr_right fun h => ?_)
  rw [decide_eq_true_eq, leafWeight, dif_pos h, readCnt_of_lt h]

theorem eos_mem_countedSymbols {s : State} : eos ∈ countedSymbols s.cnt := mem_countedSymbols.mpr (.inl rfl)

/-- The symbol of a byte is counted when its count is positive. -/
theorem byteSym_mem_countedSymbols {s : State} {b : Byte} :
    b.setWidth 9 ∈ countedSymbols s.cnt ↔ 0 < (readCnt b.toNat s).toNat := by
  have hb := b.isLt
  have hne : b.setWidth 9 ≠ eos := by simpa using byteSym_ne_eos b
  have htoNat : (b.setWidth 9).toNat = b.toNat := by rw [BitVec.toNat_setWidth]; omega
  rw [mem_countedSymbols, htoNat]
  simp [hne, hb]

/-- A counted symbol is EOS or the symbol of a byte. -/
theorem eq_eos_or_byteSym_of_mem_countedSymbols {s : State} {x : Sym} (h : x ∈ countedSymbols s.cnt) :
    x = eos ∨ ∃ b : Byte, x = b.setWidth 9 ∧ 0 < (readCnt b.toNat s).toNat := by
  refine (mem_countedSymbols.mp h).imp_right fun ⟨hlt, hpos⟩ => ⟨x.setWidth 8, ?_, ?_⟩
  · refine BitVec.eq_of_toNat_eq ?_
    rw [BitVec.toNat_setWidth, BitVec.toNat_setWidth]; omega
  · rwa [BitVec.toNat_setWidth, Nat.mod_eq_of_lt hlt]

theorem nodup_countedSymbols (cnt : Vector Word 256) : (countedSymbols cnt).Nodup := by
  have hinj : ∀ i ∈ List.range 256, ∀ j ∈ List.range 256, BitVec.ofNat 9 i = BitVec.ofNat 9 j → i = j := by
    intro i hi j hj h
    have h := congrArg BitVec.toNat h
    rw [List.mem_range] at hi hj
    rw [BitVec.toNat_ofNat, BitVec.toNat_ofNat] at h
    omega
  refine List.nodup_append.mpr ⟨(List.nodup_range.map_on hinj).filter _, List.nodup_singleton _, ?_⟩
  intro x hx y hy
  obtain ⟨i, hi, rfl⟩ := List.mem_map.mp (List.mem_of_mem_filter hx)
  rw [List.mem_singleton.mp hy, ← Nat.mod_eq_of_lt (List.mem_range.mp hi)]
  exact byteSym_ne_eos (BitVec.ofNat 8 i)

theorem leafForest_eq_map (cnt : Vector Word 256) : leafForest cnt = (countedSymbols cnt).map .leaf := by
  rw [leafForest, countedSymbols, List.map_append]; rfl

/-- BUILD starts from the leaves of the counted symbols, here in the order of any list that has each once. -/
theorem leafForest_perm {s : State} {l : List Sym} (hl : l.Nodup) (hmem : ∀ x, x ∈ countedSymbols s.cnt ↔ x ∈ l) :
    (leafForest s.cnt).Perm (l.map .leaf) := by
  rw [leafForest_eq_map]
  exact ((List.perm_ext_iff_of_nodup (nodup_countedSymbols _) hl).mpr hmem).map _

/-! ### Weights -/

theorem forestWeight_append (w : Sym → Nat) (f g : List Tree) :
    forestWeight w (f ++ g) = forestWeight w f + forestWeight w g := by
  rw [forestWeight, List.map_append, List.sum_append]; rfl

/-- The leaves of the bytes below `i` weigh the sum of their counts: a count of 0 has no leaf and adds nothing. -/
theorem forestWeight_leavesBelow_eq (cnt : Vector Word 256) {i : Nat} (hi : i ≤ 256) :
    forestWeight (leafWeight cnt) (leavesBelow cnt i) = ((cnt.toList.take i).map BitVec.toNat).sum := by
  induction i with
  | zero => rfl
  | succ i ih =>
    have hlt : i < 256 := hi
    have hleaf : forestWeight (leafWeight cnt) (if 0 < cnt[i].toNat then [.leaf (BitVec.ofNat 9 i)] else []) =
        cnt[i].toNat := by
      split
      · simpa [forestWeight, Tree.weight] using leafWeight_byte cnt hlt
      · simp only [forestWeight, List.map_nil, List.sum_nil]; omega
    rw [leavesBelow_succ cnt hlt, List.take_succ_eq_append_getElem (by simpa using hlt), List.map_append, List.sum_append,
      ← ih (by omega), forestWeight_append, hleaf]
    simp

/-- A forest of the counts weighs the sum of all counts and EOS's 1 (R128). -/
theorem forestWeight_leafForest (cnt : Vector Word 256) :
    forestWeight (leafWeight cnt) (leafForest cnt) = (cnt.toList.map BitVec.toNat).sum + 1 := by
  have hbytes := forestWeight_leavesBelow_eq cnt (le_refl 256)
  rw [List.take_of_length_le (by simp)] at hbytes
  rw [leafForest_eq, ← hbytes, forestWeight_append]
  simp [forestWeight, Tree.weight, leafWeight, eos]

/-! ### Paths -/

/-- No path of a tree begins another one (R128). -/
theorem Tree.paths_prefixFree (t : Tree) : ∀ p ∈ t.paths, ∀ q ∈ t.paths, p.2 <+: q.2 → p = q := by
  induction t with
  | leaf s => simp [Tree.paths]
  | node l r ihl ihr =>
    simp only [Tree.paths, List.mem_append, List.mem_map]
    rintro _ (⟨p, hp, rfl⟩ | ⟨p, hp, rfl⟩) _ (⟨q, hq, rfl⟩ | ⟨q, hq, rfl⟩) h
    · rw [ihl p hp q hq (List.cons_prefix_cons.mp h).2]
    · exact absurd (List.cons_prefix_cons.mp h).1 Bool.false_ne_true
    · exact absurd (List.cons_prefix_cons.mp h).1.symm Bool.false_ne_true
    · rw [ihr p hp q hq (List.cons_prefix_cons.mp h).2]

/-! ### Merges of small forests -/

/-- A forest of one tree has no merge. -/
theorem Merges.eq_of_perm_singleton {w : Sym → Nat} {f : List Tree} {x t : Tree} (h : Merges w f t) (hf : f.Perm [x]) :
    t = x := by
  cases h with
  | done => exact List.singleton_perm_singleton.mp hf
  | merge _ rest a b _ hperm => simpa using (hperm.symm.trans hf).length_eq

/-- A forest of two trees has one merge, which takes the lighter tree first (R122, R123). -/
theorem Merges.eq_of_perm_pair {w : Sym → Nat} {f : List Tree} {x y t : Tree} (h : Merges w f t) (hf : f.Perm [x, y]) :
    t = .node x y ∧ x.weight w ≤ y.weight w ∨ t = .node y x ∧ y.weight w ≤ x.weight w := by
  cases h with
  | done => simpa using hf.length_eq
  | merge _ rest a b _ hperm ha _ hrest =>
    have hxy := hperm.symm.trans hf
    obtain rfl : rest = [] := by simpa using hxy.length_eq
    have ht : t = .node a b := hrest.eq_of_perm_singleton (.refl _)
    have hab : a.weight w ≤ b.weight w := ha b (hperm.mem_iff.mpr (by simp))
    rcases List.perm_pair.mp hxy with h | h <;> cases h
    · exact .inl ⟨ht, hab⟩
    · exact .inr ⟨ht, hab⟩

/-! ### What BUILD ends with -/

/-- BUILD takes `s` to `u`, which holds the tree `t`: the frame, the merges that made `t`, and the counters. -/
structure BuildEnds (s : State) (t : Tree) (u : State) : Prop where
  exec : exec .build s = .next u
  frame : u = ({ s with
    treeValid := true, codesValid := false, node := u.node, nNodes := u.nNodes, nLeaf := u.nLeaf, nInt := u.nInt,
    root := u.root, pq := [], draws := u.draws } : State).finished .build .build
  built : BuiltAt u.node u.nNodes.toNat (leafWeight s.cnt) u.root t
  merges : Merges (leafWeight s.cnt) (leafForest s.cnt) t
  leaves : t.leaves = u.nLeaf.toNat
  internals : t.internals = u.nInt.toNat
  slots : u.nNodes.toNat = u.nLeaf.toNat + u.nInt.toNat
  leaves_le : u.nLeaf.toNat ≤ 257
  nodup : (slotsOf u.node u.root t).Nodup

/-- BUILD on a ready block, whatever the draws (R120). -/
theorem exec_build {s : State} (hs : Ready s) : ∃ t u, BuildEnds s t u := by
  obtain ⟨hb, he⟩ := hs
  obtain ⟨nodes, nn, nl, ni, i, d, t, hlead, hbuilt, hmerges, hleaves, hinternals, hslots, hle, hnodup⟩ :=
    build_leads (s := s.started .build) rfl rfl
  have hexec := exec_of_leads (i := .build) hb nofun (.inl he) rfl (hlead.complete rfl rfl rfl) rfl (by rw [workBound]; omega)
  exact ⟨t, _, hexec, rfl, hbuilt, hmerges, hleaves, hinternals, hslots, hle, hnodup⟩

section
variable {s u : State} {t : Tree}

theorem BuildEnds.treeValid (h : BuildEnds s t u) : u.treeValid = true := by rw [h.frame]; rfl

/-- The tree's symbols are the counted ones. -/
theorem BuildEnds.symbols_perm (h : BuildEnds s t u) : t.symbols.Perm (countedSymbols s.cnt) :=
  symbols_leafForest s.cnt ▸ h.merges.symbols_perm

theorem BuildEnds.mem_symbols (h : BuildEnds s t u) {x : Sym} :
    x ∈ t.symbols ↔ x = eos ∨ x.toNat < 256 ∧ 0 < (readCnt x.toNat s).toNat :=
  h.symbols_perm.mem_iff.trans mem_countedSymbols

theorem BuildEnds.nInt_succ (h : BuildEnds s t u) : u.nInt.toNat + 1 = u.nLeaf.toNat := by
  rw [← h.leaves, ← h.internals, t.leaves_eq]

theorem BuildEnds.holdsTree (h : BuildEnds s t u) : HoldsTree u t := by
  have hint := h.nInt_succ
  have hle := h.leaves_le
  refine ⟨h.built.1, h.leaves, h.internals, by rw [h.internals]; omega, fun x hx => ?_⟩
  rcases h.mem_symbols.mp hx with rfl | ⟨hlt, -⟩
  · exact le_refl 256
  · exact hlt.le

/-- The root's weight field (R128). -/
theorem BuildEnds.weightOf_root (h : BuildEnds s t u) :
    (weightOf u u.root).toNat = (s.cnt.toList.map BitVec.toNat).sum + 1 := by
  rw [weightOf, readNode_eq, h.built.weight, h.merges.weight_eq, forestWeight_leafForest]

/-- R126: of no counted byte comes the leaf of EOS. -/
theorem BuildEnds.eq_leaf_eos (h : BuildEnds s t u) (h0 : ∀ b : Byte, readCnt b.toNat s = 0#32) : t = .leaf eos := by
  refine h.merges.eq_of_perm_singleton (leafForest_perm (List.nodup_singleton eos) fun x => ?_)
  rw [List.mem_singleton]
  refine ⟨fun hx => ?_, fun hx => hx ▸ eos_mem_countedSymbols⟩
  rcases eq_eos_or_byteSym_of_mem_countedSymbols hx with rfl | ⟨b, rfl, hb⟩
  · rfl
  · simp [h0 b] at hb

/-- R126: a root that is a leaf is that of EOS, so no byte is counted. -/
theorem BuildEnds.counts_zero_of_leaf {x : Sym} (h : BuildEnds s (.leaf x) u) (b : Byte) : readCnt b.toNat s = 0#32 := by
  by_contra hb
  have hsingle : ∀ y ∈ countedSymbols s.cnt, y = x := fun y hy => List.mem_singleton.mp (h.symbols_perm.mem_iff.mpr hy)
  have hmem : b.setWidth 9 ∈ countedSymbols s.cnt :=
    byteSym_mem_countedSymbols.mpr (Nat.pos_of_ne_zero fun h0 => hb (BitVec.eq_of_toNat_eq h0))
  apply byteSym_ne_eos b
  rw [BitVec.ofNat_toNat, hsingle _ hmem, hsingle _ eos_mem_countedSymbols]

/-- R127: the one merge of EOS's leaf, of weight 1, and the leaf of the one byte counted. -/
theorem BuildEnds.eq_node_of_one_byte (h : BuildEnds s t u) {b : Byte} (hb : 0 < (readCnt b.toNat s).toNat)
    (h0 : ∀ x : Byte, x ≠ b → readCnt x.toNat s = 0#32) :
    t = .node (.leaf eos) (.leaf (b.setWidth 9)) ∨
      readCnt b.toNat s = 1#32 ∧ t = .node (.leaf (b.setWidth 9)) (.leaf eos) := by
  have hne : eos ≠ b.setWidth 9 := by simpa using (byteSym_ne_eos b).symm
  have hperm : (leafForest s.cnt).Perm ([eos, b.setWidth 9].map .leaf) := by
    refine leafForest_perm (by simpa using hne) fun x => ?_
    rw [List.mem_pair]
    refine ⟨fun hx => ?_, ?_⟩
    · refine (eq_eos_or_byteSym_of_mem_countedSymbols hx).imp_right fun ⟨c, hc, hpos⟩ => ?_
      by_cases hcb : c = b
      · rw [hc, hcb]
      · simp [h0 c hcb] at hpos
    · rintro (rfl | rfl)
      · exact eos_mem_countedSymbols
      · exact byteSym_mem_countedSymbols.mpr hb
  refine (h.merges.eq_of_perm_pair hperm).imp (·.1) fun ⟨ht, hle⟩ => ⟨BitVec.eq_of_toNat_eq ?_, ht⟩
  have hwe : leafWeight s.cnt eos = 1 := by simp [leafWeight, eos]
  have hwb : leafWeight s.cnt (b.setWidth 9) = (readCnt b.toNat s).toNat := by
    rw [← BitVec.ofNat_toNat, leafWeight_byte s.cnt b.isLt, readCnt_of_lt b.isLt]
  rw [Tree.weight, Tree.weight, hwe, hwb] at hle
  exact le_antisymm hle hb

end

/-! ### The statements -/

/-- Settles O20: the frame and the merges are those of `BuildEnds`. -/
theorem buildMergesMinimumWeightsFirst : Obligations.BuildMergesMinimumWeightsFirst := by
  intro s hs
  obtain ⟨t, u, h⟩ := exec_build hs
  exact ⟨t, u, h.exec, h.frame, h.holdsTree, h.built.2, h.merges⟩

/-- Settles O21: each property follows from the merges (`BuildEnds`) or holds of the paths of any tree. -/
theorem builtTreeIsAProperHuffmanTree : Obligations.BuiltTreeIsAProperHuffmanTree := by
  intro s hs
  obtain ⟨t, u, h⟩ := exec_build hs
  have hint := h.nInt_succ
  have hslots := h.slots
  have hle := h.leaves_le
  exact ⟨t, u, h.exec, h.treeValid, h.built.1, h.nodup, h.symbols_perm.nodup_iff.mpr (nodup_countedSymbols _),
    fun _ => h.mem_symbols, h.built.2, h.weightOf_root, t.paths_prefixFree, h.internals ▸ t.length_path, by omega, hint,
    by omega, h.leaves⟩

/-- Settles O22: a forest of one leaf has no merge and one of two leaves has one, the lighter leaf on the left. -/
theorem buildOfFewSymbols : Obligations.BuildOfFewSymbols := by
  intro s hs
  obtain ⟨t, u, h⟩ := exec_build hs
  refine ⟨t, u, h.exec, h.holdsTree, ⟨?_, fun h0 => ⟨eos, h.eq_leaf_eos h0⟩⟩, fun h0 => ?_,
    fun b hb h0 => h.eq_node_of_one_byte hb h0⟩
  · rintro ⟨x, rfl⟩
    exact h.counts_zero_of_leaf
  · have ht := h.eq_leaf_eos h0
    have hl : u.nLeaf.toNat = 1 := by rw [← h.leaves, ht]; rfl
    have hi : u.nInt.toNat = 0 := by rw [← h.internals, ht]; rfl
    have hn : u.nNodes.toNat = 1 := by rw [h.slots, hl, hi]
    exact ⟨ht, BitVec.eq_of_toNat_eq hl, BitVec.eq_of_toNat_eq hi, BitVec.eq_of_toNat_eq hn⟩

end Sys2Proof.Machine

/-! PROOFS. The code table that GENCODES makes (spec 42_code_table.md R140 to R144): an entry is the code of its symbol in the
tree, and the codes of a tree with distinct symbols are a complete prefix code. -/

namespace Sys2Proof.Machine

/-! ### The code of a symbol -/

/-- Below an internal node no leaf has the empty path. -/
theorem Tree.path_ne_nil {l r : Tree} {q : Sym × Bits} (hq : q ∈ (Tree.node l r).paths) : q.2 ≠ [] := by
  rw [Tree.paths, List.mem_append, List.mem_map, List.mem_map] at hq
  rcases hq with ⟨_, -, rfl⟩ | ⟨_, -, rfl⟩
  · exact List.cons_ne_nil _ _
  · exact List.cons_ne_nil _ _

/-- A code has at most one bit for each internal node. -/
theorem Tree.length_codeFor {t : Tree} {x : Sym} {p : Bits} (h : t.codeFor x = some p) : p.length ≤ t.internals :=
  t.length_path _ (Tree.codeFor_mem h)

/-- Where no symbol has two leaves, the path of a leaf is the code of its symbol. -/
theorem Tree.codeFor_of_mem_paths {t : Tree} (hnd : t.symbols.Nodup) {q : Sym × Bits} (hq : q ∈ t.paths) :
    t.codeFor q.1 = some q.2 := by
  rw [t.symbols_eq_paths] at hnd
  have hmem : q.1 ∈ t.symbols := t.symbols_eq_paths ▸ List.mem_map_of_mem hq
  obtain ⟨p, hp⟩ := Option.isSome_iff_exists.mp (Tree.codeFor_isSome.mpr hmem)
  have heq : (q.1, p) = q := List.inj_on_of_nodup_map hnd (Tree.codeFor_mem hp) hq rfl
  rw [hp, ← congrArg Prod.snd heq]

/-- The codes of a tree are prefix-free: only one symbol's code begins another's (R144). -/
theorem Tree.codeFor_prefixFree {t : Tree} {x y : Sym} {p q : Bits} (hx : t.codeFor x = some p) (hy : t.codeFor y = some q)
    (h : p <+: q) : x = y :=
  congrArg Prod.fst (t.paths_prefixFree _ (Tree.codeFor_mem hx) _ (Tree.codeFor_mem hy) h)

/-! ### The code space -/

/-- The leaves of a tree fill the code space: each internal node halves its part between its children (R144). -/
theorem Tree.sum_paths (t : Tree) {n : Nat} (hn : t.internals ≤ n) :
    (t.paths.map fun q => 2 ^ (n - q.2.length)).sum = 2 ^ n := by
  induction t generalizing n with
  | leaf s => simp [Tree.paths]
  | node l r ihl ihr =>
    rw [Tree.internals] at hn
    obtain ⟨m, rfl⟩ : ∃ m, n = m + 1 := ⟨n - 1, by omega⟩
    have hl := ihl (n := m) (by omega)
    have hr := ihr (n := m) (by omega)
    simp only [Tree.paths, List.map_append, List.map_map, List.sum_append, Function.comp_def, List.length_cons,
      Nat.add_sub_add_right, hl, hr]
    rw [pow_succ, mul_two]

/-- The part of the code space of 2^256 strings that an entry takes (R144). -/
def codeShare (e : CodeEntry) : Nat := if e.valid then 2 ^ (256 - e.len.toNat) else 0

theorem toNat_len_codeOf {p : Bits} (h : p.length ≤ 256) : (codeOf p).len.toNat = p.length := by
  rw [codeOf, BitVec.toNat_ofNat]; omega

theorem codeShare_codeOf {p : Bits} (h : p.length ≤ 256) : codeShare (codeOf p) = 2 ^ (256 - p.length) := by
  rw [codeShare, codeOf_valid, if_pos rfl, toNat_len_codeOf h]

theorem codeShare_of_not_valid {e : CodeEntry} (h : ¬ e.valid = true) : codeShare e = 0 := if_neg h

/-- A sum over a list is that over the part of it outside which the terms are 0. -/
theorem sum_map_eq_of_zero_outside {f : Nat → Nat} {l m : List Nat} (hl : l.Nodup) (hm : m.Nodup) (hsub : ∀ x ∈ l, x ∈ m)
    (h0 : ∀ x ∈ m, x ∉ l → f x = 0) : (m.map f).sum = (l.map f).sum := by
  rw [← List.sum_toFinset f hl, ← List.sum_toFinset f hm]
  refine (Finset.sum_subset (fun x hx => ?_) fun x hx hnot => ?_).symm
  · exact List.mem_toFinset.mpr (hsub x (List.mem_toFinset.mp hx))
  · exact h0 x (List.mem_toFinset.mp hx) fun h => hnot (List.mem_toFinset.mpr h)

/-! ### The entries of the code table -/

/-- An index of the code table is the number of a symbol. -/
theorem exists_sym_toNat {i : Nat} (hi : i ≤ 256) : ∃ x : Sym, x.toNat = i :=
  ⟨BitVec.ofNat 9 i, by rw [BitVec.toNat_ofNat]; omega⟩

section
variable {v : State} {t : Tree}

/-- The entry of a symbol holds its code, and of any other symbol no code (R140). -/
theorem readCode_codesOf (hv : v.code = codesOf t) {x : Sym} (hx : x.toNat ≤ 256) :
    readCode x.toNat v = ((t.codeFor x).map codeOf).getD noCode := by
  have hx' : x.toNat < 257 := by omega
  simp only [readCode_of_lt hx', hv, codesOf, getElem_writePaths _ _ hx', Tree.codeFor, Option.map_map,
    Vector.getElem_replicate, BitVec.toNat_inj, beq_eq_decide, Function.comp_def]

theorem readCode_of_codeFor (hv : v.code = codesOf t) {x : Sym} (hx : x.toNat ≤ 256) {p : Bits} (hp : t.codeFor x = some p) :
    readCode x.toNat v = codeOf p := by
  rw [readCode_codesOf hv hx, hp]; rfl

/-- The symbols with a code are those of the tree (R144). -/
theorem valid_readCode_codesOf (hv : v.code = codesOf t) {x : Sym} (hx : x.toNat ≤ 256) :
    (readCode x.toNat v).valid = true ↔ x ∈ t.symbols := by
  rw [readCode_codesOf hv hx, ← Tree.codeFor_isSome]
  cases t.codeFor x with
  | none => simp [noCode]
  | some p => simp [codeOf_valid]

/-- A valid entry holds the code of its symbol. -/
theorem exists_codeFor_of_valid (hv : v.code = codesOf t) {x : Sym} (hx : x.toNat ≤ 256)
    (h : (readCode x.toNat v).valid = true) : ∃ p, t.codeFor x = some p ∧ readCode x.toNat v = codeOf p := by
  rw [valid_readCode_codesOf hv hx, ← Tree.codeFor_isSome] at h
  obtain ⟨p, hp⟩ := Option.isSome_iff_exists.mp h
  exact ⟨p, hp, readCode_of_codeFor hv hx hp⟩

/-- The table of a tree with distinct symbols fills the code space (R144). -/
theorem sum_codeShare_codesOf (hv : v.code = codesOf t) (hi : t.internals ≤ 256) (hsym : SymbolsInRange t)
    (hnd : t.symbols.Nodup) : ((List.range 257).map fun i => codeShare (readCode i v)).sum = 2 ^ 256 := by
  have houtside : ∀ i ∈ List.range 257, i ∉ t.symbols.map BitVec.toNat → codeShare (readCode i v) = 0 := by
    intro i hi hnot
    have hi' : i ≤ 256 := by simpa [Nat.lt_succ_iff] using hi
    obtain ⟨x, rfl⟩ := exists_sym_toNat hi'
    exact codeShare_of_not_valid fun h =>
      hnot (List.mem_map_of_mem ((valid_readCode_codesOf hv hi').mp h))
  have hshare : ∀ q ∈ t.paths, codeShare (readCode q.1.toNat v) = 2 ^ (256 - q.2.length) := by
    intro q hq
    have hle : q.1.toNat ≤ 256 := hsym _ (t.symbols_eq_paths ▸ List.mem_map_of_mem hq)
    have hlen := t.length_path q hq
    rw [readCode_of_codeFor hv hle (Tree.codeFor_of_mem_paths hnd hq), codeShare_codeOf (by omega)]
  have hsub : ∀ i ∈ t.symbols.map BitVec.toNat, i ∈ List.range 257 := by
    intro i hi
    obtain ⟨x, hx, rfl⟩ := List.mem_map.mp hi
    exact List.mem_range.mpr (Nat.lt_succ_of_le (hsym x hx))
  calc ((List.range 257).map fun i => codeShare (readCode i v)).sum
      = ((t.symbols.map BitVec.toNat).map fun i => codeShare (readCode i v)).sum :=
        sum_map_eq_of_zero_outside (hnd.map fun _ _ => BitVec.eq_of_toNat_eq) List.nodup_range hsub houtside
    _ = (t.paths.map fun q => 2 ^ (256 - q.2.length)).sum := by
        rw [t.symbols_eq_paths, List.map_map, List.map_map]
        exact congrArg List.sum (List.map_congr_left hshare)
    _ = 2 ^ 256 := t.sum_paths hi

end

/-! ### What GENCODES ends with -/

/-- GENCODES on a ready block that holds a tree (R140). -/
theorem exec_gencodes {s : State} {t : Tree} (hs : Ready s) (hv : s.treeValid = true) (ht : HoldsTree s t) :
    exec .gencodes s =
      .next (({ s with code := codesOf t, codesValid := true } : State).finished .gencodes .gencodes) := by
  obtain ⟨hb, he⟩ := hs
  obtain ⟨hat, -, -, hi, -⟩ := ht
  have hl := t.leaves_eq
  have hbody := gencodes_leads (s := s.started .gencodes) rfl rfl hat
  exact exec_of_leads hb nofun (.inl he) hv (hbody.complete rfl rfl rfl) rfl (by rw [workBound]; omega)

theorem BuildEnds.ready {s u : State} {t : Tree} (h : BuildEnds s t u) (hs : Ready s) : Ready u := by
  rw [h.frame]; exact ⟨rfl, hs.2⟩

/-! ### The statements -/

/-- Settles O24: the walk's table (`codesOf`) and the frame are those of `exec_gencodes`. -/
theorem gencodesFillsTheTableWithPaths : Obligations.GencodesFillsTheTableWithPaths := by
  intro s t hs hv ht
  refine ⟨_, exec_gencodes hs hv ht, rfl, fun x hx => ?_⟩
  obtain ⟨-, -, -, hi, -⟩ := ht
  refine ⟨codeTable_codesOf rfl hi hx, ?_⟩
  rw [readCode_codesOf rfl hx]
  cases t.codeFor x with
  | none => rfl
  | some p => rfl

/-- Settles O25: the tree of BUILD has each counted symbol once, and the codes of such a tree are prefix-free and fill the code
space. -/
theorem codesOfABuiltTreeAreComplete : Obligations.CodesOfABuiltTreeAreComplete := by
  intro s hs
  obtain ⟨t, u, h⟩ := exec_build hs
  have hnd : t.symbols.Nodup := h.symbols_perm.nodup_iff.mpr (nodup_countedSymbols _)
  obtain ⟨-, -, -, hi, hsym⟩ := h.holdsTree
  refine ⟨u, _, h.exec, exec_gencodes (h.ready hs) h.treeValid h.holdsTree, rfl, fun i hle => ?counted, ?prefixFree,
    fun i hle hvalid => ?lengths, sum_codeShare_codesOf rfl hi hsym hnd⟩
  case counted =>
    obtain ⟨x, rfl⟩ := exists_sym_toNat hle
    rw [valid_readCode_codesOf rfl hle, h.mem_symbols, ← BitVec.toNat_inj, show eos.toNat = 256 from rfl]
    exact or_congr_right' fun hne => and_iff_right (by omega)
  case prefixFree =>
    intro i hle j hj p q hp hq hpq
    obtain ⟨x, rfl⟩ := exists_sym_toNat hle
    obtain ⟨y, rfl⟩ := exists_sym_toNat hj
    rw [codeTable_codesOf rfl hi hle] at hp
    rw [codeTable_codesOf rfl hi hj] at hq
    rw [Tree.codeFor_prefixFree hp hq hpq]
  case lengths =>
    obtain ⟨x, rfl⟩ := exists_sym_toNat hle
    obtain ⟨p, hp, hread⟩ := exists_codeFor_of_valid rfl hle hvalid
    have hlen : p.length ≤ 256 := (Tree.length_codeFor hp).trans hi
    rw [hread, toNat_len_codeOf hlen]
    refine ⟨hlen, fun ⟨b, hb⟩ => ?_⟩
    cases t with
    | leaf y => simp [h.counts_zero_of_leaf b] at hb
    | node l r => exact List.length_pos_iff.mpr (Tree.path_ne_nil (Tree.codeFor_mem hp))

end Sys2Proof.Machine

/-! PROOFS. The header codec (spec 43_header_codec.md R150 to R160): what WRHDR, RDMAGIC and RDTREE end with on a ready block, and
the round trip of the header (R159). -/

namespace Sys2Proof.Machine

/-- The start of a body reads nothing (R222). -/
@[simp] theorem rest_started (i : Instr) (s : State) : (s.started i).rest = s.rest := rest_congr rfl rfl

/-! ### WRHDR -/

/-- WRHDR on a ready block that holds a tree (R150). -/
theorem exec_wrhdr {s : State} {t : Tree} (hs : Ready s) (hv : s.treeValid = true) (ht : HoldsTree s t) :
    exec .wrhdr s =
      .next (({ s with out := s.out ++ bin 32 Config.magic ++ t.ser } : State).finished .wrhdr .wrhdr) := by
  obtain ⟨hb, he⟩ := hs
  obtain ⟨hat, -, -, hi, -⟩ := ht
  have hl := t.leaves_eq
  have hbody := wrhdr_leads (s := s.started .wrhdr) rfl rfl hat
  exact exec_of_leads hb nofun (.inl he) hv (hbody.complete rfl rfl rfl) rfl (by rw [workBound]; omega)

/-! ### RDMAGIC -/

/-- Bit strings of one length that hold the same number are equal. -/
theorem eq_of_natOfBits_eq {as bs : Bits} (hlen : as.length = bs.length) (h : natOfBits as = natOfBits bs) : as = bs := by
  refine List.ext_getElem hlen fun j ha hb => ?_
  rw [← testBit_natOfBits as ha, ← testBit_natOfBits bs hb, h, hlen]

/-- The number read is the field's value exactly when the bits read are those of the field (R66, R70). -/
theorem natOfBits_eq_toNat {n : Nat} {bs : Bits} {v : BitVec n} (hlen : bs.length = n) :
    natOfBits bs = v.toNat ↔ bs = bin n v := by
  rw [← natOfBits_bin]
  exact ⟨eq_of_natOfBits_eq (by rw [hlen, length_bin]), congrArg natOfBits⟩

/-- RDMAGIC on a ready block with a finite input (R152, R160). -/
theorem exec_rdmagic {s : State} (hs : Ready s) (hf : FiniteInput s) :
    let u : State := { s with inPos := s.inPos + 32 }
    exec .rdmagic s = .next
      (if s.rest.length < 32 then s.failed .rdmagic .rdmagic .truncated
      else if s.rest.take 32 = bin 32 Config.magic then u.finished .rdmagic .rdmagic
      else u.failed .rdmagic .rdmagic .format) := by
  intro u
  obtain ⟨hb, he⟩ := hs
  have hend {t : State} (h : Leads 2 (s.started .rdmagic) t) (ht : t.busy = false) : exec .rdmagic s = .next t :=
    exec_of_leads hb nofun (.inl he) rfl h ht (by rw [workBound]; omega)
  have hbody := rdmagic_leads (s := s.started .rdmagic) (hf.congr rfl) rfl rfl
  rw [rest_started] at hbody
  by_cases hlt : s.rest.length < 32
  · rw [if_pos hlt] at hbody ⊢
    exact hend (hbody.mono one_le_two) rfl
  · have hmagic := natOfBits_eq_toNat (v := Config.magic) (List.length_take_of_le (not_lt.mp hlt))
    rw [if_neg hlt] at hbody ⊢
    by_cases heq : s.rest.take 32 = bin 32 Config.magic
    · rw [if_pos (hmagic.mpr heq)] at hbody
      rw [if_pos heq]
      exact hend (hbody.complete rfl rfl rfl) rfl
    · rw [if_neg (mt hmagic.mp heq)] at hbody
      rw [if_neg heq]
      exact hend (hbody.mono one_le_two) rfl

/-! ### RDTREE -/

/-- `s` with the node store and the tree registers of `u`, TREE_VALID as `valid` says, no codes valid, and `n` bits more of
the input read: all that RDTREE changes beside the registers of its end (R153, R206). -/
def State.parsed (s u : State) (valid : Bool) (n : Nat) : State :=
  { s with
    treeValid := valid, codesValid := false, node := u.node, nNodes := u.nNodes, nLeaf := u.nLeaf, nInt := u.nInt,
    root := u.root, inPos := s.inPos + n }

section
variable {s : State} {n : Nat}

/-- RDTREE on bits that the parse accepts (R153, R154). -/
theorem exec_rdtree_of_tree {t : Tree} {k : Nat} (hs : Ready s) (hf : FiniteInput s) (h : refTree s.rest = .tree t n k) :
    ∃ u, exec .rdtree s = .next u ∧ u = (s.parsed u true n).finished .rdtree .rdtree ∧
      HoldsTree u t ∧ WeightsAt u.node (fun _ => 0) u.root t ∧ (slotsOf u.node u.root t).Nodup := by
  obtain ⟨hb, he⟩ := hs
  have hbody := rdtree_leads (s := s.started .rdtree) (hf.congr rfl) rfl rfl
  rw [rest_started, h] at hbody
  obtain ⟨nodes, nn, nl, ni, i, hlead, hold, hleaves, hinternals, hcap, hsym, hn⟩ := hbody
  have hbound : s.rest.length ≤ s.source.length := length_rest_le hf
  have hexec := exec_of_leads (i := .rdtree) hb nofun (.inl he) rfl (hlead.complete rfl rfl rfl) rfl
    (by rw [workBound]; omega)
  exact ⟨_, hexec, rfl, ⟨hold.holdsAt (le_refl _), hleaves, hinternals, hcap, hsym⟩, hold.weightsAt.1, hold.slots.1⟩

/-- RDTREE on bits that the parse refuses (R155, R157). -/
theorem exec_rdtree_of_error {e : ErrCode} (hs : Ready s) (hf : FiniteInput s) (h : refTree s.rest = .error e n) :
    ∃ u, exec .rdtree s = .next u ∧ u = (s.parsed u false n).failed .rdtree .rdtree e := by
  obtain ⟨hb, he⟩ := hs
  have hbody := rdtree_leads (s := s.started .rdtree) (hf.congr rfl) rfl rfl
  rw [rest_started, h] at hbody
  obtain ⟨nodes, nn, nl, ni, i, hlead, hn, -⟩ := hbody
  have hbound : s.rest.length ≤ s.source.length := length_rest_le hf
  have hexec := exec_of_leads (i := .rdtree) hb nofun (.inl he) rfl hlead rfl (by rw [workBound]; omega)
  exact ⟨_, hexec, rfl⟩

end

/-! ### The header -/

/-- RDMAGIC at the magic ends done on a ready block, with the position behind the magic (R152). -/
theorem exec_rdmagic_of_magic {s : State} {bs : Bits} (hs : Ready s) (hf : FiniteInput s)
    (hr : s.rest = bin 32 Config.magic ++ bs) :
    ∃ u, exec .rdmagic s = .next u ∧ Ready u ∧ FiniteInput u ∧ u.inPos = s.inPos + 32 ∧ u.rest = bs := by
  have hlen : ¬ s.rest.length < 32 := by rw [hr, List.length_append, length_bin]; omega
  have htake : s.rest.take 32 = bin 32 Config.magic := by rw [hr, List.take_left' (length_bin _ _)]
  let u : State := ({ s with inPos := s.inPos + 32 } : State).finished .rdmagic .rdmagic
  have hexec : exec .rdmagic s = .next u := by rw [exec_rdmagic hs hf, if_neg hlen, if_pos htake]
  have hrest : u.rest = bs := by
    rw [show u.rest = s.rest.drop 32 from rest_advance (s := s) 32, hr, List.drop_left' (length_bin _ _)]
  exact ⟨u, hexec, ⟨rfl, hs.2⟩, hf.congr rfl, rfl, hrest⟩

/-- RDTREE at the description of a tree ends done, with that tree and the position behind the description (R159). -/
theorem exec_rdtree_of_ser {s : State} {t : Tree} {bs : Bits} (hs : Ready s) (hf : FiniteInput s)
    (hr : s.rest = t.ser ++ bs) (hcap : t.internals ≤ 256) (hsym : SymbolsInRange t) (hroot : ∀ x, t = .leaf x → x = eos) :
    ∃ u, exec .rdtree s = .next u ∧ u.done = true ∧ u.err = false ∧ u.treeValid = true ∧ HoldsTree u t ∧
      u.inPos = s.inPos + t.ser.length := by
  have hparse : refTree s.rest = .tree t t.ser.length t.internals := by rw [hr, refTree_ser bs hcap hsym hroot]
  obtain ⟨u, hexec, hframe, hhold, -, -⟩ := exec_rdtree_of_tree hs hf hparse
  exact ⟨u, hexec, by rw [hframe]; rfl, by rw [hframe]; exact hs.2, by rw [hframe]; rfl, hhold, by rw [hframe]; rfl⟩

/-! ### The statements -/

/-- Settles O37: RDMAGIC takes the magic, and what is left begins with the description, whose parse gives the tree back. -/
theorem headerRoundTrip : Obligations.HeaderRoundTrip := by
  intro s t hs hvalid ht hroot
  refine ⟨_, bin 32 Config.magic ++ t.ser, exec_wrhdr hs hvalid ht, List.append_assoc _ _ _,
    fun v pre post hv hsrc hpos => ?_⟩
  obtain ⟨-, -, -, hcap, hsym⟩ := ht
  have hf : FiniteInput v := ⟨_, hsrc⟩
  have hr : v.rest = bin 32 Config.magic ++ (t.ser ++ post) := by
    rw [rest_of_bits hsrc, hpos, List.append_assoc, List.drop_left, List.append_assoc]
  obtain ⟨v₁, hmagic, hs₁, hf₁, hpos₁, hr₁⟩ := exec_rdmagic_of_magic hv hf hr
  obtain ⟨v₂, htree, hdone, herr, hvalid₂, hhold, hpos₂⟩ := exec_rdtree_of_ser hs₁ hf₁ hr₁ hcap hsym hroot
  refine ⟨v₁, v₂, hmagic, htree, hdone, herr, hvalid₂, hhold, ?_⟩
  rw [hpos₂, hpos₁, hpos, List.length_append, length_bin, Nat.add_assoc]

/-- Settles O26: the output and the frame are those of `exec_wrhdr`, and a description has a bit for each node and 9 more for
each leaf. -/
theorem wrhdrAppendsMagicAndDescription : Obligations.WrhdrAppendsMagicAndDescription := by
  intro s t hs hv ht
  refine ⟨exec_wrhdr hs hv ht, ?_⟩
  obtain ⟨-, hleaves, hinternals, -, -⟩ := ht
  rw [t.length_ser, hleaves, hinternals]

/-- Settles O29: the body reads a number, which is the magic exactly when the bits are its field. -/
theorem rdmagicComparesThirtyTwoBits : Obligations.RdmagicComparesThirtyTwoBits := fun _ => exec_rdmagic

/-- Settles O30, by the two ends of the parse. -/
theorem rdtreeParsesTheDescription : Obligations.RdtreeParsesTheDescription := by
  intro s hs hf
  cases h : refTree s.rest with
  | tree t n k => exact exec_rdtree_of_tree hs hf h
  | error e n => exact exec_rdtree_of_error hs hf h

end Sys2Proof.Machine

/-! PROOFS. The stream encoder (spec 44_stream_encoder.md R180 to R184): what ENCODE ends with, alone or as the last
sub-command of COMPRESS, and why it ends done there (46_control.md R203). -/

namespace Sys2Proof.Machine

/-! ### Sub-commands -/

/-- The state in which command `i` begins the body of its (sub-)command `j`, with `rest` still to start (R203, R222). -/
def State.atBody (i j : Instr) (rest : List Instr) (s : State) : State :=
  { s with busy := true, done := false, lastOp := opcode i, curop := opcode j, pos := entryOf j, todo := rest, stack := [] }

@[simp] theorem rest_atBody (i j : Instr) (l : List Instr) (s : State) : (s.atBody i j l).rest = s.rest :=
  rest_congr rfl rfl

section
variable {i j : Instr} {l : List Instr} {s : State}

/-- A sub-command that returns gives way to the next one (R203, R204). -/
theorem Leads.nextBody {n : Nat} {k : Instr} {u t : State} (h : Leads n u { t.atBody i j (k :: l) with pos := .ret }) :
    Leads (n + 1) u (t.atBody i k l) := h.nextSub rfl rfl rfl

/-- COUNT as a sub-command (R110). -/
theorem count_nextBody (hf : FiniteInput s) : Leads (2 * (s.rest.length / 8) + 258) (s.atBody i .count (j :: l))
    (State.atBody i j l
      { s with cnt := countsOf (bytesOf s.rest), inPos := s.inPos + 8 * (s.rest.length / 8) }) := by
  have hbody := count_leads (s := s.atBody i .count (j :: l)) (hf.congr rfl) rfl rfl
  rw [rest_atBody] at hbody
  exact hbody.nextBody

/-- The symbols of a tree made from the leaves of the counts are the counted ones (R121). -/
theorem Merges.mem_symbols_leafForest {w : Sym → Nat} {cnt : Vector Word 256} {t : Tree} (h : Merges w (leafForest cnt) t)
    {x : Sym} : x ∈ t.symbols ↔ x ∈ countedSymbols cnt := by
  rw [h.symbols_perm.mem_iff, symbols_leafForest]

/-- BUILD as a sub-command: the tree that it holds at its end, and its frame (R120). -/
theorem build_nextBody (s : State) (i j : Instr) (l : List Instr) :
    ∃ t w, Leads 516 (s.atBody i .build (j :: l)) (w.atBody i j l) ∧
      w = { s with
        treeValid := true, codesValid := false, node := w.node, nNodes := w.nNodes, nLeaf := w.nLeaf, nInt := w.nInt,
        root := w.root, pq := [], draws := w.draws } ∧
      HoldsTree w t ∧ WeightsAt w.node (leafWeight s.cnt) w.root t ∧ Merges (leafWeight s.cnt) (leafForest s.cnt) t := by
  obtain ⟨nodes, nn, nl, ni, r, d, t, hlead, hbuilt, hmerges, hleaves, hinternals, -, hle, -⟩ :=
    build_leads (s := s.atBody i .build (j :: l)) rfl rfl
  let w : State := { s with
    treeValid := true, codesValid := false, node := nodes, nNodes := nn, nLeaf := nl, nInt := ni, root := r, pq := [],
    draws := d }
  have hcap : t.internals ≤ 256 := by have := t.leaves_eq; omega
  have hsym : SymbolsInRange t := fun x hx => by
    rw [hmerges.mem_symbols_leafForest, mem_countedSymbols] at hx
    rcases hx with rfl | ⟨hlt, -⟩
    · exact le_refl 256
    · exact hlt.le
  exact ⟨t, w, hlead.nextBody (t := w), rfl, ⟨hbuilt.1, hleaves, hinternals, hcap, hsym⟩, hbuilt.2, hmerges⟩

/-- GENCODES as a sub-command (R140). -/
theorem gencodes_nextBody {t : Tree} (ht : HoldsTree s t) : Leads 773 (s.atBody i .gencodes (j :: l))
    (State.atBody i j l { s with code := codesOf t, codesValid := true }) := by
  obtain ⟨hat, -, -, hcap, -⟩ := ht
  have hl := t.leaves_eq
  have hbody := gencodes_leads (s := s.atBody i .gencodes (j :: l)) rfl rfl hat
  exact (hbody.mono (by omega)).nextBody

/-- WRHDR as a sub-command (R150). -/
theorem wrhdr_nextBody {t : Tree} (ht : HoldsTree s t) : Leads 773 (s.atBody i .wrhdr (j :: l))
    (State.atBody i j l { s with out := s.out ++ bin 32 Config.magic ++ t.ser }) := by
  obtain ⟨hat, -, -, hcap, -⟩ := ht
  have hl := t.leaves_eq
  have hbody := wrhdr_leads (s := s.atBody i .wrhdr (j :: l)) rfl rfl hat
  exact (hbody.mono (by omega)).nextBody

/-- REWIND as a sub-command (R202). -/
theorem rewind_nextBody : Leads 2 (s.atBody i .rewind (j :: l)) (State.atBody i j l { s with inPos := 0 }) :=
  Leads.nextBody (j := .rewind) (t := { s with inPos := 0 }) (Leads.step (p := .rewind) rfl rfl)

end

/-! ### ENCODE -/

/-- What command `i` leaves when ENCODE is its last body and starts in `s` (R180 to R182). -/
def State.encoded (i : Instr) (s : State) : State :=
  let r := refEncode (codeTable s) (bytesOf s.rest)
  let u : State := { s with out := s.out ++ r.1, inPos := s.inPos + 8 * r.2.1 }
  if r.2.2 then u.finished i .encode else u.failed i .encode .internalTable

theorem encoded_of_done {i : Instr} {s : State} (h : (refEncode (codeTable s) (bytesOf s.rest)).2.2 = true) :
    s.encoded i = ({ s with
      out := s.out ++ (refEncode (codeTable s) (bytesOf s.rest)).1,
      inPos := s.inPos + 8 * (refEncode (codeTable s) (bytesOf s.rest)).2.1 } : State).finished i .encode := if_pos h

theorem encoded_busy (i : Instr) (s : State) : (s.encoded i).busy = false := by
  unfold State.encoded
  dsimp only
  split <;> rfl

/-- ENCODE as the last body of a command: it returns and the command completes, or it aborts (R180, R223, R225). -/
theorem encode_leads {i : Instr} {s : State} (hf : FiniteInput s) :
    Leads (513 * (s.rest.length / 8) + 514) (s.atBody i .encode []) (s.encoded i) := by
  have hbody := encRead_leads _ (s.atBody i .encode []) rfl (hf.congr rfl) rfl rfl
  rw [codeTable_congr (show (s.atBody i .encode []).code = s.code from rfl), rest_atBody, length_bytesOf] at hbody
  unfold encodeEnd at hbody
  unfold State.encoded
  dsimp only at hbody ⊢
  split at hbody
  next hdone => rw [if_pos hdone]; exact hbody.complete rfl rfl rfl
  next hfail => rw [if_neg hfail]; exact hbody.mono (Nat.le_succ _)

/-- ENCODE on a ready block with a finite input (R180). -/
theorem exec_encode {s : State} (hs : Ready s) (hc : s.codesValid = true) (hf : FiniteInput s) :
    exec .encode s = .next (s.encoded .encode) := by
  obtain ⟨hb, he⟩ := hs
  have hbound : s.rest.length ≤ s.source.length := length_rest_le hf
  exact exec_of_leads hb nofun (.inl he) hc (encode_leads hf) (encoded_busy _ s) (by rw [workBound]; omega)

/-- Settles O27: `State.encoded` is the statement's end of ENCODE. -/
theorem encodeAppendsCodesAndTerminator : Obligations.EncodeAppendsCodesAndTerminator := fun _ => exec_encode

/-! ### The length of the output -/

theorem codeTable_of_valid {s : State} {k : Nat} (h : (readCode k s).valid = true) :
    codeTable s k = some (codeBits (readCode k s)) := if_pos h

theorem codeTable_of_not_valid {s : State} {k : Nat} (h : ¬ (readCode k s).valid = true) : codeTable s k = none := if_neg h

theorem length_codeBits_eq (e : CodeEntry) : (codeBits e).length = e.len.toNat := by simp [codeBits]

/-- R183: an ENCODE that ends done emits the code of each byte read and that of EOS. -/
theorem length_refEncode_of_done {s : State} {bytes : List Byte} (h : (refEncode (codeTable s) bytes).2.2 = true) :
    (refEncode (codeTable s) bytes).1.length =
      (bytes.map fun b => (readCode b.toNat s).len.toNat).sum + (readCode 256 s).len.toNat := by
  induction bytes with
  | nil =>
    by_cases hv : (readCode 256 s).valid = true
    · simp [refEncode, codeTable_of_valid hv, length_codeBits_eq]
    · simp [refEncode, codeTable_of_not_valid hv] at h
  | cons b bytes ih =>
    by_cases hv : (readCode b.toNat s).valid = true
    · simp only [refEncode, codeTable_of_valid hv] at h ⊢
      rw [List.length_append, length_codeBits_eq, ih h, List.map_cons, List.sum_cons, Nat.add_assoc]
    · simp [refEncode, codeTable_of_not_valid hv] at h

/-! ### COMPRESS -/

/-- COMPRESS takes `s` to `w`, in which it starts ENCODE: the counts, the tree `t` of them and its codes, the header on the
output, the input at its start, and the frame (R203). -/
structure CompressEncodes (s : State) (t : Tree) (w : State) : Prop where
  exec : exec .compress s = .next (w.encoded .compress)
  frame : w = { s with
    treeValid := true, codesValid := true, cnt := w.cnt, node := w.node, nNodes := w.nNodes, nLeaf := w.nLeaf,
    nInt := w.nInt, root := w.root, code := w.code, pq := [], draws := w.draws,
    out := s.out ++ bin 32 Config.magic ++ t.ser, inPos := 0 }
  cnt : w.cnt = countsOf (bytesOf s.rest)
  code : w.code = codesOf t
  holdsTree : HoldsTree w t
  weights : WeightsAt w.node (leafWeight w.cnt) w.root t
  merges : Merges (leafWeight w.cnt) (leafForest w.cnt) t

/-- COMPRESS on a ready block with a finite input, whatever the draws (R203). -/
theorem exec_compress {s : State} (hs : Ready s) (hf : FiniteInput s) : ∃ t w, CompressEncodes s t w := by
  obtain ⟨hb, he⟩ := hs
  have hstart : Leads 1 (s.started .compress) (s.atBody .compress .count [.build, .gencodes, .wrhdr, .rewind, .encode]) :=
    (Leads.refl _).nextSub rfl rfl rfl
  let s₁ : State := { s with cnt := countsOf (bytesOf s.rest), inPos := s.inPos + 8 * (s.rest.length / 8) }
  have hcount : Leads _ _ (s₁.atBody .compress .build [.gencodes, .wrhdr, .rewind, .encode]) := count_nextBody hf
  obtain ⟨t, s₂, hbuild, hframe, hhold, hweights, hmerges⟩ :=
    build_nextBody s₁ .compress .gencodes [.wrhdr, .rewind, .encode]
  let s₃ : State := { s₂ with code := codesOf t, codesValid := true }
  have hgen : Leads _ _ (s₃.atBody .compress .wrhdr [.rewind, .encode]) := gencodes_nextBody hhold
  let s₄ : State := { s₃ with out := s₃.out ++ bin 32 Config.magic ++ t.ser }
  have hhdr : Leads _ _ (s₄.atBody .compress .rewind [.encode]) := wrhdr_nextBody (s := s₃) hhold
  let w : State := { s₄ with inPos := 0 }
  have hrew : Leads _ _ (w.atBody .compress .encode []) := rewind_nextBody
  have hsource : w.source = s.source := by rw [show w.source = s₂.source from rfl, hframe]
  have hfw : FiniteInput w := hf.congr hsource
  have hbound : s.rest.length ≤ s.source.length := length_rest_le hf
  have hboundw : w.rest.length ≤ s.source.length := hsource ▸ length_rest_le hfw
  have hlead := (((((hstart.trans hcount).trans hbuild).trans hgen).trans hhdr).trans hrew).trans (encode_leads hfw)
  have hcnt : w.cnt = s₁.cnt := by rw [show w.cnt = s₂.cnt from rfl, hframe]
  refine ⟨t, w, ⟨?_, ?_, hcnt, rfl, hhold, hcnt ▸ hweights, hcnt ▸ hmerges⟩⟩
  · exact exec_of_leads hb nofun (.inl he) rfl hlead (encoded_busy _ w) (by rw [workBound]; omega)
  · simp only [w, s₄, s₃]
    rw [hframe]

section
variable {s w : State} {t : Tree}

/-- R184: EOS has a code. -/
theorem CompressEncodes.valid_eos (h : CompressEncodes s t w) : (readCode 256 w).valid = true :=
  (valid_readCode_codesOf (x := eos) h.code (le_refl 256)).mpr (h.merges.mem_symbols_leafForest.mpr eos_mem_countedSymbols)

/-- R184: a byte that COUNT has read has a positive count, so a leaf, so a code. -/
theorem CompressEncodes.valid_of_counted (h : CompressEncodes s t w) {b : Byte} (hb : b ∈ bytesOf s.rest) :
    (readCode b.toNat w).valid = true := by
  have hlt := b.isLt
  have hcount : 0 < (bytesOf s.rest).count b := List.count_pos_iff.mpr hb
  have hpos : 0 < (readCnt b.toNat w).toNat := by rw [readCnt_countsOf h.cnt]; omega
  have hsym : (b.setWidth 9).toNat = b.toNat := by rw [BitVec.toNat_setWidth]; omega
  rw [← hsym, valid_readCode_codesOf h.code (by omega), h.merges.mem_symbols_leafForest]
  exact byteSym_mem_countedSymbols.mpr hpos

/-- From the start of the input both passes read the same bytes. -/
theorem CompressEncodes.rest_eq (h : CompressEncodes s t w) (hpos : s.inPos = 0) : w.rest = s.rest :=
  rest_congr (by rw [h.frame]) (by rw [h.frame, hpos])

/-- R184: where both passes read the same bytes, ENCODE ends done. -/
theorem CompressEncodes.refEncode_done (h : CompressEncodes s t w) (hrest : w.rest = s.rest) :
    (refEncode (codeTable w) (bytesOf w.rest)).2.2 = true ∧
      (refEncode (codeTable w) (bytesOf w.rest)).2.1 = w.rest.length / 8 := by
  have hsome {k : Nat} (hv : (readCode k w).valid = true) : (codeTable w k).isSome := by rw [codeTable_of_valid hv]; rfl
  rw [← length_bytesOf]
  exact Machine.refEncode_done (hsome h.valid_eos) _ fun b hb => hsome (h.valid_of_counted (hrest ▸ hb))

end

/-- Settles O35: from the start both passes read the same bytes, so ENCODE ends done (R184), and the header has 32 bits, one
for each of the `nLeaf` - 1 internal nodes and 10 for each leaf (R105). -/
theorem compressFromTheStartEndsDone : Obligations.CompressFromTheStartEndsDone := by
  intro s bs hs hsrc hpos
  obtain ⟨t, w, h⟩ := exec_compress hs ⟨bs, hsrc⟩
  have hrest : s.rest = bs := by rw [rest_of_bits hsrc, hpos, List.drop_zero]
  have hrestw := h.rest_eq hpos
  obtain ⟨hdone, hread⟩ := h.refEncode_done hrestw
  have hlen := length_refEncode_of_done hdone
  rw [hrestw, hrest] at hread hlen
  obtain ⟨htree, hcodes, herr, hzero, hout⟩ : w.treeValid = true ∧ w.codesValid = true ∧ w.err = false ∧ w.inPos = 0 ∧
      w.out = s.out ++ bin 32 Config.magic ++ t.ser := by
    rw [h.frame]; exact ⟨rfl, rfl, hs.2, rfl, rfl⟩
  have hser : t.ser.length = 11 * w.nLeaf.toNat - 1 := by
    obtain ⟨-, hleaves, -⟩ := h.holdsTree
    have hl := t.leaves_eq
    rw [t.length_ser]; omega
  refine ⟨_, h.exec, ?_⟩
  rw [encoded_of_done hdone, hrestw, hrest, hread, hzero, hout]
  refine ⟨rfl, herr, rfl, htree, hcodes, Nat.zero_add _, ?_⟩
  simp only [finished_out, List.length_append, length_bin, hser, hlen]
  exact (Nat.add_assoc _ _ _).symm

end Sys2Proof.Machine

/-! PROOFS. The stream decoder (spec 45_stream_decoder.md R190 to R196): what DECODE ends with, alone or as the last
sub-command of DECOMPRESS (46_control.md R204), what it reads, and the round trip. -/

namespace Sys2Proof.Machine

/-! ### DECODE -/

/-- What command `i` leaves when DECODE is its last body and starts in `s`, which holds `t`; `c` is the cursor (R190 to
R192). -/
def State.decoded (i : Instr) (t : Tree) (c : NodeIx) (s : State) : State :=
  let r := refDecodeAll t s.rest
  let u : State := { s with out := s.out ++ bitsOfBytes r.1, inPos := s.inPos + r.2.1, cur := c }
  if r.2.2 then u.finished i .decode else u.failed i .decode .truncated

section
variable {i : Instr} {s : State} {t : Tree} {c : NodeIx}

theorem decoded_of_done (h : (refDecodeAll t s.rest).2.2 = true) :
    s.decoded i t c = ({ s with
      out := s.out ++ bitsOfBytes (refDecodeAll t s.rest).1, inPos := s.inPos + (refDecodeAll t s.rest).2.1,
      cur := c } : State).finished i .decode := if_pos h

theorem decoded_of_truncated (h : (refDecodeAll t s.rest).2.2 = false) :
    s.decoded i t c = ({ s with
      out := s.out ++ bitsOfBytes (refDecodeAll t s.rest).1, inPos := s.inPos + (refDecodeAll t s.rest).2.1,
      cur := c } : State).failed i .decode .truncated := if_neg (by rw [h]; exact nofun)

theorem decoded_done : (s.decoded i t c).done = (refDecodeAll t s.rest).2.2 := by
  cases h : (refDecodeAll t s.rest).2.2
  · rw [decoded_of_truncated h]; rfl
  · rw [decoded_of_done h]; rfl

theorem decoded_busy : (s.decoded i t c).busy = false := by
  cases h : (refDecodeAll t s.rest).2.2
  · rw [decoded_of_truncated h]; rfl
  · rw [decoded_of_done h]; rfl

/-- DECODE as the last body of a command: it returns and the command completes, or it aborts (R190, R223, R225). -/
theorem decode_ends (i : Instr) (hf : FiniteInput s) (ht : HoldsTree s t) :
    ∃ c, Leads (2 * s.rest.length + 3) (s.atBody i .decode []) (s.decoded i t c) := by
  obtain ⟨hat, -⟩ := ht
  obtain ⟨c, hbody⟩ := decode_leads (s := s.atBody i .decode []) (hf.congr rfl) rfl rfl hat
  rw [rest_atBody] at hbody
  refine ⟨c, ?_⟩
  cases h : (refDecodeAll t s.rest).2.2
  · rw [decoded_of_truncated h]
    rw [decodeEnd, h] at hbody
    exact hbody.mono (Nat.le_succ _)
  · rw [decoded_of_done h]
    rw [decodeEnd, h] at hbody
    exact hbody.complete rfl rfl rfl

/-- DECODE on a ready block that holds a tree, with a finite input (R190). -/
theorem exec_decode (hs : Ready s) (hv : s.treeValid = true) (ht : HoldsTree s t) (hf : FiniteInput s) :
    ∃ c, exec .decode s = .next (s.decoded .decode t c) := by
  obtain ⟨hb, he⟩ := hs
  have hbound : s.rest.length ≤ s.source.length := length_rest_le hf
  obtain ⟨c, hlead⟩ := decode_ends .decode hf ht
  exact ⟨c, exec_of_leads hb nofun (.inl he) hv hlead decoded_busy (by rw [workBound]; omega)⟩

end

/-- Settles O31: `State.decoded` is the statement's end of DECODE. -/
theorem decodeWalksTheTree : Obligations.DecodeWalksTheTree := fun _ _ hs hv ht hf => exec_decode hs hv ht hf

/-! ### The bits behind the terminator -/

/-- A decode that begins at an internal node reads a bit before it ends done (R190). -/
theorem refDecode_read_pos {root l r : Tree} {bs : Bits} (hdone : (refDecode root (.node l r) bs).2.2 = true) :
    0 < (refDecode root (.node l r) bs).2.1 := by
  cases bs with
  | nil => exact absurd hdone nofun
  | cons x bs =>
    rw [refDecode]
    cases if x then r else l with
    | leaf y => dsimp only; split <;> exact Nat.succ_pos _
    | node l' r' => exact Nat.succ_pos _

/-- A decode that begins at an internal node and reaches the EOS leaf within `as` is the same whatever stands behind `as`
(R193). -/
theorem refDecode_append {a b : Tree} {as bs : Bits} (cs : Bits) : ∀ {l r : Tree},
    (refDecode (.node a b) (.node l r) (as ++ bs)).2.2 = true →
    (refDecode (.node a b) (.node l r) (as ++ bs)).2.1 ≤ as.length →
    refDecode (.node a b) (.node l r) (as ++ cs) = refDecode (.node a b) (.node l r) (as ++ bs) := by
  induction as with
  | nil =>
    intro l r hdone hread
    exact absurd (refDecode_read_pos hdone) (Nat.not_lt.mpr hread)
  | cons x as ih =>
    intro l r hdone hread
    simp only [List.cons_append, refDecode, List.length_cons] at hdone hread ⊢
    cases hchild : if x then r else l with
    | leaf y =>
      simp only [hchild] at hdone hread ⊢
      by_cases hy : y = eos
      · simp only [if_pos hy]
      · simp only [if_neg hy] at hdone hread ⊢
        rw [ih hdone (by omega)]
    | node l' r' =>
      simp only [hchild] at hdone hread ⊢
      rw [ih hdone (by omega)]

theorem refDecodeAll_append {t : Tree} {as bs : Bits} (cs : Bits) (hdone : (refDecodeAll t (as ++ bs)).2.2 = true)
    (hread : (refDecodeAll t (as ++ bs)).2.1 ≤ as.length) : refDecodeAll t (as ++ cs) = refDecodeAll t (as ++ bs) := by
  cases t with
  | leaf x => rfl
  | node l r => exact refDecode_append cs hdone hread

/-- Settles O32: both decodes end done at the same terminator. -/
theorem decodeIgnoresBitsAfterTheTerminator : Obligations.DecodeIgnoresBitsAfterTheTerminator := by
  intro s u t pre post post' hs hv ht hsrc hpos hexec hdone hin
  have hrest : s.rest = pre.drop s.inPos ++ post := by rw [rest_of_bits hsrc, List.drop_append_of_le_length hpos]
  let s' : State := { s with source := .bits (pre ++ post') }
  have hrest' : s'.rest = pre.drop s.inPos ++ post' := by
    rw [rest_of_bits rfl]; exact List.drop_append_of_le_length hpos
  obtain ⟨c, hend⟩ := exec_decode hs hv ht ⟨_, hsrc⟩
  obtain ⟨c', hend'⟩ := exec_decode (s := s') hs hv ht ⟨_, rfl⟩
  obtain rfl : s.decoded .decode t c = u := Host.Outcome.next.inj (hend.symm.trans hexec)
  rw [decoded_done] at hdone
  rw [decoded_of_done hdone] at hin
  have hread : (refDecodeAll t s.rest).2.1 ≤ (pre.drop s.inPos).length := by
    rw [List.length_drop]
    exact Nat.le_sub_of_add_le' hin
  have hsame : refDecodeAll t s'.rest = refDecodeAll t s.rest := by
    rw [hrest] at hdone hread
    rw [hrest, hrest', refDecodeAll_append post' hdone hread]
  refine ⟨c', ?_⟩
  rw [hend', decoded_of_done hdone, decoded_of_done (by rw [hsame, hdone]), hsame]
  rfl

/-! ### Trees without EOS -/

/-- Under an internal node without an EOS leaf neither child has one. -/
theorem eos_not_mem_child {l r : Tree} (h : eos ∉ (Tree.node l r).symbols) : eos ∉ l.symbols ∧ eos ∉ r.symbols := by
  rwa [Tree.symbols, List.mem_append, not_or] at h

theorem ne_eos_of_leaf {x : Sym} (h : eos ∉ (Tree.leaf x).symbols) : ¬ x = eos :=
  fun hx => h (List.mem_singleton.mpr hx.symm)

/-- In a tree without an EOS leaf, at an internal node of it, the decoder reads all of a finite input and does not end
done (R194). -/
theorem refDecode_without_eos {a b : Tree} (hroot : eos ∉ (Tree.node a b).symbols) {bs : Bits} : ∀ {l r : Tree},
    eos ∉ (Tree.node l r).symbols → (refDecode (.node a b) (.node l r) bs).2 = (bs.length, false) := by
  induction bs with
  | nil => intros; rfl
  | cons x bs ih =>
    intro l r hno
    obtain ⟨hl, hr⟩ := eos_not_mem_child hno
    have hbelow : eos ∉ (if x then r else l).symbols := by
      cases x
      · exact hl
      · exact hr
    rw [refDecode]
    cases hchild : if x then r else l with
    | leaf y => simp only [if_neg (ne_eos_of_leaf (hchild ▸ hbelow)), ih hroot, List.length_cons]
    | node l' r' => simp only [ih (hchild ▸ hbelow), List.length_cons]

/-- The slot holds an internal node under which there is no EOS leaf. -/
def NoEosBelow (s : State) (i : NodeIx) : Prop :=
  ∃ l r, HoldsAt s.node s.nNodes.toNat i (.node l r) ∧ eos ∉ (Tree.node l r).symbols

/-- A child of such a node holds a tree without an EOS leaf. -/
theorem NoEosBelow.child {s : State} {i : NodeIx} (h : NoEosBelow s i) (v : BitVec 1) :
    ∃ t, HoldsAt s.node s.nNodes.toNat (childOf v s.node[i]) t ∧ eos ∉ t.symbols := by
  obtain ⟨l, r, ⟨-, -, hl, hr⟩, hno⟩ := h
  obtain ⟨hnol, hnor⟩ := eos_not_mem_child hno
  unfold childOf
  split
  · exact ⟨l, hl, hnol⟩
  · exact ⟨r, hr, hnor⟩

/-- DECODE is inside its body on an endless channel, on a tree without an EOS leaf. -/
structure DecodeRunning (s : State) : Prop where
  busy : s.busy = true
  endless : s.source = .endless
  root : NoEosBelow s s.root
  inBody : s.pos = .decStart ∨ s.pos = .decEmit ∨ s.pos = .decRead ∧ NoEosBelow s s.cur

/-- The cursor has moved to a node of the tree: a byte leaf is written next, an internal node reads on (R190). -/
theorem decodeRunning_decArrive {s : State} {t : Tree} (hb : s.busy = true) (hsrc : s.source = .endless)
    (hroot : NoEosBelow s s.root) (ht : HoldsAt s.node s.nNodes.toNat s.cur t) (hno : eos ∉ t.symbols) :
    DecodeRunning (decArrive s) := by
  rw [decArrive, readNode_eq, ht.leaf_eq]
  cases t with
  | leaf x =>
    have hx : ¬ s.node[s.cur].sym = eos := by rw [ht.2.2]; exact ne_eos_of_leaf hno
    rw [if_pos rfl, if_neg hx]
    exact ⟨hb, hsrc, hroot, .inr (.inl rfl)⟩
  | node l r => exact ⟨hb, hsrc, hroot, .inr (.inr ⟨rfl, l, r, ht, hno⟩)⟩

/-- Only `End` and the EOS leaf lead out of DECODE's body (R190, R194). -/
theorem DecodeRunning.step {s : State} (h : DecodeRunning s) : DecodeRunning (stepAt s.pos s) := by
  obtain ⟨hb, hsrc, hroot, hp | hp | ⟨hp, hcur⟩⟩ := h
  · obtain ⟨l, r, ht, -⟩ := id hroot
    rw [hp, stepAt, decStartStep, readNode_eq, ht.leaf_eq]
    exact ⟨hb, hsrc, hroot, .inr (.inr ⟨rfl, hroot⟩)⟩
  · rw [hp]
    exact ⟨hb, hsrc, hroot, .inr (.inr ⟨rfl, hroot⟩)⟩
  · obtain ⟨v, hv⟩ := chanRead_endless hsrc 1
    obtain ⟨t, ht, hno⟩ := hcur.child v
    rw [← readNode_eq] at ht
    rw [hp, stepAt, decReadStep, hv]
    exact decodeRunning_decArrive hb hsrc hroot ht hno

/-- Settles O33: the decoder reads a finite input to its end, and on an endless one DECODE stays `DecodeRunning`. -/
theorem decodeWithoutEosNeverEndsDone : Obligations.DecodeWithoutEosNeverEndsDone := by
  intro s l r hs hv ht hno
  refine ⟨fun hf => ?_, fun hsrc n => ?_⟩
  · obtain ⟨c, hexec⟩ := exec_decode hs hv ht hf
    have hend : (refDecodeAll (.node l r) s.rest).2 = (s.rest.length, false) := refDecode_without_eos hno hno
    rw [decoded_of_truncated (by rw [hend]), hend] at hexec
    exact ⟨_, c, hexec⟩
  · obtain ⟨hidle, hnoErr⟩ := hs
    obtain ⟨hat, -⟩ := ht
    have hstart : hostWrite 0x00 (encode .decode) s = s.started .decode := submit_started hidle nofun (.inl hnoErr) hv
    rw [hstart]
    exact runCore_busy_of_kept (fun _ h => h.busy) (fun _ h => h.step) n (P := DecodeRunning)
      ⟨rfl, hsrc, ⟨l, r, hat, hno⟩, .inl rfl⟩

/-! ### DECOMPRESS at a good header -/

theorem rest_parsed (s u : State) (valid : Bool) (n : Nat) : (s.parsed u valid n).rest = s.rest.drop n :=
  (rest_congr (s := { s with inPos := s.inPos + n }) rfl rfl).trans (rest_advance n)

section
variable {i j : Instr} {l : List Instr} {s : State} {bs : Bits}

/-- RDMAGIC as a sub-command, at the magic (R152). -/
theorem rdmagic_nextBody (hf : FiniteInput s) (hr : s.rest = bin 32 Config.magic ++ bs) :
    Leads 2 (s.atBody i .rdmagic (j :: l)) (State.atBody i j l { s with inPos := s.inPos + 32 }) := by
  have hbody := rdmagic_leads (s := s.atBody i .rdmagic (j :: l)) (hf.congr rfl) rfl rfl
  have hlen : ¬ s.rest.length < 32 := by rw [hr, List.length_append, length_bin]; omega
  have hmagic : natOfBits (s.rest.take 32) = Config.magic.toNat := by
    rw [hr, List.take_left' (length_bin _ _), natOfBits_bin]
  rw [rest_atBody, if_neg hlen, if_pos hmagic] at hbody
  exact hbody.nextBody (t := { s with inPos := s.inPos + 32 })

/-- RDTREE as a sub-command, on bits that the parse accepts: the tree that it holds at its end, and its frame (R153). -/
theorem rdtree_nextBody {t : Tree} {n k : Nat} (hf : FiniteInput s) (h : refTree s.rest = .tree t n k) :
    ∃ u, Leads (4 * n + 3) (s.atBody i .rdtree (j :: l)) (State.atBody i j l (s.parsed u true n)) ∧
      HoldsTree (s.parsed u true n) t ∧ n ≤ s.rest.length := by
  have hbody := rdtree_leads (s := s.atBody i .rdtree (j :: l)) (hf.congr rfl) rfl rfl
  rw [rest_atBody, h] at hbody
  obtain ⟨nodes, nn, nl, ni, r, hlead, hold, hleaves, hinternals, hcap, hsym, hn⟩ := hbody
  let u : State := { s with node := nodes, nNodes := nn, nLeaf := nl, nInt := ni, root := r }
  exact ⟨u, hlead.nextBody (t := s.parsed u true n), ⟨hold.holdsAt (le_refl _), hleaves, hinternals, hcap, hsym⟩, hn⟩

/-- DECOMPRESS on a ready block, at the magic and a description that the parse accepts: it decodes what stands behind them
with the tree (R204). -/
theorem exec_decompress_of_tree {t : Tree} {n k : Nat} (hs : Ready s) (hf : FiniteInput s)
    (hr : s.rest = bin 32 Config.magic ++ bs) (h : refTree bs = .tree t n k) :
    ∃ u c, exec .decompress s = .next ((s.parsed u true (32 + n)).decoded .decompress t c) ∧
      HoldsTree (s.parsed u true (32 + n)) t ∧ (s.parsed u true (32 + n)).rest = bs.drop n := by
  obtain ⟨hb, he⟩ := hs
  have hstart : Leads 1 (s.started .decompress) (s.atBody .decompress .rdmagic [.rdtree, .decode]) :=
    (Leads.refl _).nextSub rfl rfl rfl
  have hmagic : Leads 2 _ _ := rdmagic_nextBody (i := .decompress) (j := .rdtree) (l := [.decode]) hf hr
  let s₁ : State := { s with inPos := s.inPos + 32 }
  have hr₁ : s₁.rest = bs := by rw [rest_advance, hr, List.drop_left' (length_bin _ _)]
  have hf₁ : FiniteInput s₁ := hf.congr rfl
  obtain ⟨u, htree, hhold, hn⟩ := rdtree_nextBody (i := .decompress) (j := .decode) (l := []) hf₁ (hr₁ ▸ h)
  have hparsed : s₁.parsed u true n = s.parsed u true (32 + n) := by
    simp only [s₁, State.parsed, Nat.add_assoc]
  rw [hparsed] at htree hhold
  have hrest : (s.parsed u true (32 + n)).rest = bs.drop n := by
    rw [rest_parsed, ← List.drop_drop, hr, List.drop_left' (length_bin _ _)]
  obtain ⟨c, hdecode⟩ := decode_ends .decompress (hf.congr (t := s.parsed u true (32 + n)) rfl) hhold
  have hlead := ((hstart.trans hmagic).trans htree).trans hdecode
  have hbound : s.rest.length ≤ s.source.length := length_rest_le hf
  refine ⟨u, c, exec_of_leads hb nofun (.inl he) rfl hlead decoded_busy ?_, hhold, hrest⟩
  rw [hrest, List.length_drop, workBound]
  rw [hr₁] at hn
  rw [hr, List.length_append] at hbound
  omega

end

/-! ### The round trip -/

section
variable {s w : State} {t : Tree}

/-- COMPRESS encodes with the codes of its tree (R142, R203). -/
theorem CompressEncodes.refEncode_eq (h : CompressEncodes s t w) (bytes : List Byte) :
    refEncode (codeTable w) bytes = refEncode (treeLook t) bytes := by
  obtain ⟨-, -, -, hcap, -⟩ := h.holdsTree
  refine refEncode_congr (fun k hk => ?_) bytes
  obtain ⟨x, rfl⟩ := exists_sym_toNat hk
  rw [codeTable_codesOf h.code hcap hk, treeLook, BitVec.ofNat_toNat, BitVec.setWidth_eq]

/-- EOS has a leaf, so a tree of one leaf is that of EOS (R121). -/
theorem CompressEncodes.leaf_eq_eos (h : CompressEncodes s t w) {x : Sym} (hx : t = .leaf x) : x = eos := by
  have heos : eos ∈ t.symbols := h.merges.mem_symbols_leafForest.mpr eos_mem_countedSymbols
  rw [hx] at heos
  exact (List.mem_singleton.mp heos).symm

/-- From the start of a finite input COMPRESS ends done, with the magic, the description of a tree and the payload under
its codes on the output (R184, R203). -/
theorem CompressEncodes.ends (h : CompressEncodes s t w) (hs : Ready s) (hpos : s.inPos = 0) :
    (refEncode (treeLook t) (bytesOf s.rest)).2.2 = true ∧
      (w.encoded .compress).done = true ∧ (w.encoded .compress).err = false ∧
      (w.encoded .compress).out = s.out ++ bin 32 Config.magic ++ t.ser ++ (refEncode (treeLook t) (bytesOf s.rest)).1 := by
  have hrest := h.rest_eq hpos
  obtain ⟨hdone, -⟩ := h.refEncode_done hrest
  rw [encoded_of_done hdone, ← h.refEncode_eq, ← hrest]
  obtain ⟨herr, hout⟩ : w.err = false ∧ w.out = s.out ++ bin 32 Config.magic ++ t.ser := by
    rw [h.frame]; exact ⟨hs.2, rfl⟩
  exact ⟨hdone, rfl, herr, congrArg (· ++ _) hout⟩

end

/-- DECOMPRESS of a header and of a payload that ENCODE ended done gives the bytes back, and reads exactly the header and the
payload (R159, R196). -/
theorem exec_decompress_of_payload {s : State} {t : Tree} {bytes : List Byte} {pad : Bits} (hs : Ready s)
    (hf : FiniteInput s) (hcap : t.internals ≤ 256) (hsym : SymbolsInRange t) (hroot : ∀ x, t = .leaf x → x = eos)
    (hdone : (refEncode (treeLook t) bytes).2.2 = true)
    (hr : s.rest = bin 32 Config.magic ++ (t.ser ++ ((refEncode (treeLook t) bytes).1 ++ pad))) :
    ∃ u, exec .decompress s = .next u ∧ u.done = true ∧ u.err = false ∧ u.out = s.out ++ bitsOfBytes bytes ∧
      u.inPos = s.inPos + (32 + t.ser.length) + (refEncode (treeLook t) bytes).1.length := by
  obtain ⟨v, c, hexec, -, hrest⟩ := exec_decompress_of_tree hs hf hr (refTree_ser _ hcap hsym hroot)
  rw [List.drop_left] at hrest
  have hend := refDecodeAll_refEncode t pad bytes hroot hdone
  rw [← hrest] at hend
  rw [decoded_of_done (by rw [hend]), hend] at hexec
  exact ⟨_, hexec, rfl, hs.2, rfl, rfl⟩

/-- Settles O38: COMPRESS writes the header and the payload of one tree (`CompressEncodes.ends`), and DECOMPRESS undoes both
(`exec_decompress_of_payload`). -/
theorem compressThenDecompressGivesTheBytesBack : Obligations.CompressThenDecompressGivesTheBytesBack := by
  intro s bytes hs hsrc hpos hout
  obtain ⟨t, w, h⟩ := exec_compress hs ⟨_, hsrc⟩
  obtain ⟨hpayload, hdone, herr, hwritten⟩ := h.ends hs hpos
  have hbytes : bytesOf s.rest = bytes := by rw [rest_of_bits hsrc, hpos, List.drop_zero, bytesOf_bitsOfBytes]
  rw [hbytes] at hpayload hwritten
  rw [hout, List.nil_append] at hwritten
  obtain ⟨-, -, -, hcap, hsym⟩ := h.holdsTree
  refine ⟨_, h.exec, hdone, herr, fun v pad hv hsrcv hposv => ?_⟩
  have hr : v.rest = bin 32 Config.magic ++ (t.ser ++ ((refEncode (treeLook t) bytes).1 ++ pad)) := by
    simp only [rest_of_bits hsrcv, hposv, List.drop_zero, hwritten, List.append_assoc]
  obtain ⟨u, hexec, hdoneu, herru, houtu, hposu⟩ :=
    exec_decompress_of_payload hv ⟨_, hsrcv⟩ hcap hsym (fun _ => h.leaf_eq_eos) hpayload hr
  refine ⟨u, hexec, hdoneu, herru, houtu, ?_⟩
  rw [hposu, hposv, hwritten]
  simp only [List.length_append, length_bin, Nat.zero_add]

end Sys2Proof.Machine

/-! PROOFS. CLEAR, REWIND, NOP and the two pipelines (spec 46_control.md R200 to R206): what each ends with, the
prerequisites, and the validity bits along the run of a command. -/

namespace Sys2Proof.Machine

/-! ### Prerequisites -/

/-- A command whose prerequisite is false raises SEQUENCE and runs no core step (R205). -/
theorem exec_sequence {i : Instr} {s : State} (hs : Ready s) (hi : i ≠ .nop) (hp : prerequisite i s = false) :
    exec i s = .next (s.failed i i .sequence) := by
  have hend : Leads 0 (submit (encode i) s) (s.failed i i .sequence) := by
    rw [submit_sequence hs hi hp]
    exact .refl _
  rw [exec_eq_runWord, runWord_of_leads hs.1 hend rfl (Nat.zero_le _)]

/-- A command whose prerequisite holds runs after the write of its word (R205, R222). -/
theorem busy_hostWrite_cmd {i : Instr} {s : State} (hs : Ready s) (hi : i ≠ .nop) (hp : prerequisite i s = true) :
    (hostWrite 0x00 (encode i) s).busy = true := by
  rw [show hostWrite 0x00 (encode i) s = submit (encode i) s from rfl, submit_started hs.1 hi (.inl hs.2) hp]
  rfl

/-- Settles O13: with the prerequisite the write leaves the block busy, and without it the command ends at once. -/
theorem unmetPrerequisiteRaisesSequence : Obligations.UnmetPrerequisiteRaisesSequence := by
  intro s hs
  refine ⟨fun i hi => ?_, fun hc => exec_sequence hs nofun hc, fun hc => busy_hostWrite_cmd hs nofun hc, fun i hi => ?_⟩
  · have hne : i ≠ .nop := by rintro rfl; exact absurd hi (by decide)
    have hp : prerequisite i s = s.treeValid := by
      simp only [List.mem_cons, List.not_mem_nil, or_false] at hi
      rcases hi with rfl | rfl | rfl <;> rfl
    exact ⟨fun hv => exec_sequence hs hne (hp.trans hv), fun hv => busy_hostWrite_cmd hs hne (hp.trans hv)⟩
  · have hne : i ≠ .nop := by rintro rfl; exact absurd hi (by decide)
    have hp : prerequisite i s = true := by
      simp only [List.mem_cons, List.not_mem_nil, or_false] at hi
      rcases hi with rfl | rfl | rfl | rfl | rfl | rfl | rfl | rfl <;> rfl
    exact busy_hostWrite_cmd hs hne hp

/-! ### NOP -/

/-- NOP on an idle block, in the error state too (R200). -/
theorem exec_nop {s : State} (hb : s.busy = false) : exec .nop s = .next s := by
  have hend : Leads 0 (submit 0#32 s) s := by
    rw [submit_zero hb]
    exact .refl s
  rw [exec_eq_runWord, encode_eq_zero.mpr rfl, runWord_of_leads hb hend hb (Nat.zero_le _)]

theorem exec_of_busy {s : State} (hb : s.busy = true) (i : Instr) : exec i s = .next (dropWord s) := by
  rw [exec_eq_runWord, runWord, if_pos hb, submit_busy hb]

/-- Settles O14: NOP is dropped on a busy block, and a word with reserved bits set is no command whatever its opcode. -/
theorem nopChangesNothing : Obligations.NopChangesNothing :=
  ⟨rfl, fun _ => ⟨exec_nop, fun hb => exec_of_busy hb _⟩, fun _ hr _ => ⟨_, decode_reservedBits hr⟩⟩

/-! ### CLEAR -/

/-- The state after CLEAR: SEL, the node slots, the channels and what is not the block's stay (R201, R253; log entries 6
and 13). -/
def State.cleared (s : State) : State :=
  { s with
    cnt := Vector.replicate 256 0#32, code := Vector.replicate 257 noCode, nNodes := 0#10, nLeaf := 0#9, nInt := 0#9,
    root := 0, pq := [], stack := [], cur := 0, curop := 0x00#8, pos := .idle, todo := [], busy := false, done := true,
    err := false, treeValid := false, codesValid := false, cmdDropped := false, lastOp := 0x01#8, errCode := 0#4,
    errOp := 0#8 }

/-- CLEAR on an idle block, in the error state too (R201, R230). -/
theorem exec_clear {s : State} (hb : s.busy = false) : exec .clear s = .next s.cleared := by
  have hbody := clear_leads (s := s.started .clear) rfl rfl
  exact exec_of_leads hb nofun (.inr rfl) rfl (hbody.complete rfl rfl rfl) rfl (by rw [workBound]; omega)

theorem statusWord_cleared (s : State) : statusWord s.cleared = 0x00000102#32 := by
  simp [statusWord, bitAt, State.cleared]

theorem errinfoWord_cleared (s : State) : errinfoWord s.cleared = 0#32 := by simp [errinfoWord, State.cleared]

/-- A word with reserved bits set is neither NOP's nor CLEAR's (R95). -/
theorem ne_of_reservedBits {w : Word} (h : rsvdField w ≠ 0#24) : w ≠ 0#32 ∧ w ≠ 1#32 := by
  constructor <;> rintro rfl <;> exact absurd h (by decide)

/-- Settles O15: the state after CLEAR is `State.cleared`, whose STATUS and ERRINFO are closed words. -/
theorem clearClearsAllButSel : Obligations.ClearClearsAllButSel := by
  refine ⟨rfl, fun s hb => ⟨⟨s.cleared, exec_clear hb, rfl, statusWord_cleared s, errinfoWord_cleared s⟩,
    fun r hr _ => ⟨⟨_, decode_reservedBits hr⟩, fun he => ?_⟩⟩⟩
  obtain ⟨h₀, h₁⟩ := ne_of_reservedBits hr
  exact submit_error hb he h₀ h₁

/-! ### REWIND -/

/-- Settles O16: the body is the one step of `ChanRewind()`. -/
theorem rewindGoesToTheStart : Obligations.RewindGoesToTheStart := by
  refine ⟨rfl, fun s ⟨hb, he⟩ => ?_⟩
  have hbody : Leads 1 (s.started .rewind) (rewindStep (s.started .rewind)) := Leads.step rfl rfl
  exact exec_of_leads hb nofun (.inl he) rfl (hbody.complete rfl rfl rfl) rfl (by rw [workBound]; omega)

/-! ### COMPRESS -/

theorem encoded_stores (i : Instr) (s : State) : (s.encoded i).stores = s.stores := by
  unfold State.encoded
  dsimp only
  split <;> rfl

theorem encoded_draws (i : Instr) (s : State) : (s.encoded i).draws = s.draws := by
  unfold State.encoded
  dsimp only
  split <;> rfl

/-- The code table that COMPRESS encodes with is that of its tree (R142, R203). -/
theorem CompressEncodes.codeTable_eq {s w : State} {t : Tree} (h : CompressEncodes s t w) :
    ∀ k ≤ 256, codeTable w k = treeLook t k := by
  intro k hk
  obtain ⟨-, -, -, hcap, -⟩ := h.holdsTree
  obtain ⟨x, rfl⟩ := exists_sym_toNat hk
  rw [codeTable_codesOf h.code hcap hk, treeLook, BitVec.ofNat_toNat, BitVec.setWidth_eq]

/-- Settles O34: ENCODE, the last body, writes no store, so the tree, counts and codes at the end are those that it starts
with (`CompressEncodes`), and it reads the input from its start. -/
theorem compressRunsItsSubcommands : Obligations.CompressRunsItsSubcommands := by
  intro s bs hs hsrc
  obtain ⟨t, w, h⟩ := exec_compress hs ⟨bs, hsrc⟩
  have hstores := encoded_stores .compress w
  simp only [State.stores, State.store, Prod.mk.injEq] at hstores
  obtain ⟨hcnt, hcode, hnode, hnNodes, hnLeaf, hnInt, hroot⟩ := hstores
  have hrest : w.rest = bs := by rw [h.frame]; simp [State.rest, hsrc]
  refine ⟨t, w.encoded .compress, h.exec, readCnt_countsOf (hcnt.trans h.cnt), h.holdsTree.congr ?_, ?_, ?_, ?_, ?_⟩
  · simp only [State.store, hnode, hnNodes, hnLeaf, hnInt, hroot]
  · rw [hcnt, hnode, hroot]; exact h.weights
  · rw [hcnt]; exact h.merges
  · rw [codeTable_congr hcode]; exact h.codeTable_eq
  · rw [hcnt, hcode, hnode, hnNodes, hnLeaf, hnInt, hroot, encoded_draws, ← h.refEncode_eq, ← hrest, State.encoded]
    generalize refEncode (codeTable w) (bytesOf w.rest) = r
    dsimp only
    split <;> rw [h.frame, Nat.zero_add]

/-! ### DECOMPRESS -/

section
variable {i : Instr} {l : List Instr} {s : State}

/-- RDMAGIC as a sub-command, with too few bits left for the magic (R152). -/
theorem rdmagic_truncated (hf : FiniteInput s) (hlt : s.rest.length < 32) :
    Leads 1 (s.atBody i .rdmagic l) (s.failed i .rdmagic .truncated) := by
  have hbody := rdmagic_leads (s := s.atBody i .rdmagic l) (hf.congr rfl) rfl rfl
  rw [rest_atBody, if_pos hlt] at hbody
  exact hbody

/-- RDMAGIC as a sub-command, at 32 bits that are not the magic (R160). -/
theorem rdmagic_format (hf : FiniteInput s) (hlt : ¬ s.rest.length < 32) (hne : s.rest.take 32 ≠ bin 32 Config.magic) :
    Leads 1 (s.atBody i .rdmagic l) (({ s with inPos := s.inPos + 32 } : State).failed i .rdmagic .format) := by
  have hbody := rdmagic_leads (s := s.atBody i .rdmagic l) (hf.congr rfl) rfl rfl
  have hmagic := natOfBits_eq_toNat (v := Config.magic) (List.length_take_of_le (not_lt.mp hlt))
  rw [rest_atBody, if_neg hlt, if_neg (mt hmagic.mp hne)] at hbody
  exact hbody

/-- RDTREE as a sub-command, on bits that the parse refuses (R155, R157). -/
theorem rdtree_refused {e : ErrCode} {n : Nat} (hf : FiniteInput s) (h : refTree s.rest = .error e n) :
    ∃ u, Leads (4 * n + 6) (s.atBody i .rdtree l) ((s.parsed u false n).failed i .rdtree e) ∧ n ≤ s.rest.length := by
  have hbody := rdtree_leads (s := s.atBody i .rdtree l) (hf.congr rfl) rfl rfl
  rw [rest_atBody, h] at hbody
  obtain ⟨nodes, nn, nl, ni, r, hlead, hn, -⟩ := hbody
  exact ⟨{ s with node := nodes, nNodes := nn, nLeaf := nl, nInt := ni, root := r }, hlead, hn⟩

/-- DECOMPRESS on a ready block, from where its first sub-command leads (R204). -/
theorem exec_decompress_of_leads {n : Nat} {t : State} (hs : Ready s)
    (h : Leads n (s.atBody .decompress .rdmagic [.rdtree, .decode]) t) (ht : t.busy = false) (hn : n + 1 ≤ workBound s) :
    exec .decompress s = .next t := by
  have hstart : Leads 1 (s.started .decompress) (s.atBody .decompress .rdmagic [.rdtree, .decode]) :=
    (Leads.refl _).nextSub rfl rfl rfl
  exact exec_of_leads hs.1 nofun (.inl hs.2) rfl (hstart.trans h) ht (by omega)

/-- DECOMPRESS on a ready block, at the magic and a description that the parse refuses (R204). -/
theorem exec_decompress_of_error {bs : Bits} {e : ErrCode} {n : Nat} (hs : Ready s) (hf : FiniteInput s)
    (hr : s.rest = bin 32 Config.magic ++ bs) (h : refTree bs = .error e n) :
    ∃ u, exec .decompress s = .next ((s.parsed u false (32 + n)).failed .decompress .rdtree e) := by
  have hmagic : Leads 2 _ _ := rdmagic_nextBody (i := .decompress) (j := .rdtree) (l := [.decode]) hf hr
  let s₁ : State := { s with inPos := s.inPos + 32 }
  have hr₁ : s₁.rest = bs := by rw [rest_advance, hr, List.drop_left' (length_bin _ _)]
  obtain ⟨u, htree, hn⟩ := rdtree_refused (i := .decompress) (l := [.decode]) (hf.congr (t := s₁) rfl) (hr₁ ▸ h)
  have hparsed : s₁.parsed u false n = s.parsed u false (32 + n) := by simp only [s₁, State.parsed, Nat.add_assoc]
  have hbound : s₁.rest.length ≤ s₁.source.length := length_rest_le (hf.congr rfl)
  rw [hparsed] at htree
  exact ⟨u, exec_decompress_of_leads hs (hmagic.trans htree) rfl
    (by rw [workBound, show s.source = s₁.source from rfl]; omega)⟩

end

/-- Settles O36: one case for each sub-command that may raise, and the case in which DECODE runs. -/
theorem decompressRunsItsSubcommands : Obligations.DecompressRunsItsSubcommands := by
  intro s hs hf
  by_cases hlt : s.rest.length < 32
  · exact ⟨_, exec_decompress_of_leads hs (rdmagic_truncated hf hlt) rfl (by rw [workBound]; omega), by rw [if_pos hlt]⟩
  by_cases hne : s.rest.take 32 ≠ bin 32 Config.magic
  · exact ⟨_, exec_decompress_of_leads hs (rdmagic_format hf hlt hne) rfl (by rw [workBound]; omega),
      by rw [if_neg hlt, if_pos hne]⟩
  have hr : s.rest = bin 32 Config.magic ++ s.rest.drop 32 := by rw [← not_not.mp hne, List.take_append_drop]
  cases h : refTree (s.rest.drop 32) with
  | error e n =>
    obtain ⟨u, hexec⟩ := exec_decompress_of_error hs hf hr h
    refine ⟨_, hexec, ?_⟩
    rw [if_neg hlt, if_neg hne]
    simp only [State.parsed, Nat.add_assoc]
    rfl
  | tree t n k =>
    obtain ⟨u, c, hexec, hhold, hrest⟩ := exec_decompress_of_tree hs hf hr h
    refine ⟨_, hexec, ?_⟩
    rw [if_neg hlt, if_neg hne]
    rw [List.drop_drop] at hrest
    simp only [State.decoded, hrest, Nat.add_assoc s.inPos 32 n]
    generalize refDecodeAll t (s.rest.drop (32 + n)) = r
    split <;> exact ⟨hhold.congr rfl, rfl⟩

/-! ### The run of a command with one body -/

/-- A running command `i` with one body stands in that body or at its end, and no sub-command is left (R203, R222). -/
structure InBody (i : Instr) (u : State) : Prop where
  done : u.done = false
  todo : u.todo = []
  pos : u.pos = .ret ∨ bodyOf u.pos = some i

theorem subsOf_eq_nil_of_body {i : Instr} : bodyOf (entryOf i) = some i → subsOf i = [] := by cases i <;> decide

section
variable {i : Instr} {u : State}

theorem BodyStep.inBody {v : State} (hk : BodyStep i u v) (h : InBody i u) : InBody i v :=
  ⟨(congrArg Control.done hk.same).trans h.done, (congrArg Control.todo hk.same).trans h.todo, hk.pos⟩

/-- The step in a body other than CLEAR's is a step inside it or an abort. -/
theorem stepAt_of_body (hbody : bodyOf u.pos = some i) (hc : i ≠ .clear) :
    BodyStep i u (stepAt u.pos u) ∨ ∃ e v, stepAt u.pos u = raiseErr e v ∧ Aborts i e u v := by
  refine stepAt_cases rfl hbody fun hr => hc ?_
  rw [hr] at hbody
  exact (Option.some.inj hbody).symm

/-- The step at the end of the only body completes the command (R223). -/
theorem stepAt_ret (hpos : u.pos = .ret) (htodo : u.todo = []) : stepAt u.pos u = complete u := by
  rw [hpos, show stepAt .ret u = retStep u from rfl, retStep, htodo]

/-- What holds along the run of a command with one body holds where the run ends: it holds where the command raises SEQUENCE
or its body starts, and the steps of the body and the completion keep it (R205, R222, R223). -/
theorem exec_kept {s t : State} {P : State → Prop} (hs : Ready s) (hi : bodyOf (entryOf i) = some i) (hc : i ≠ .clear)
    (hsequence : prerequisite i s = false → P (s.failed i i .sequence)) (hstart : P (s.started i))
    (hstep : ∀ u, P u → u.busy = true → u.done = false → bodyOf u.pos = some i → P (stepAt u.pos u))
    (hcomplete : ∀ u, P u → u.busy = true → u.pos = .ret → P (complete u)) (h : exec i s = .next t) : P t := by
  have hnop : i ≠ .nop := by rintro rfl; cases hi
  cases hp : prerequisite i s with
  | false =>
    rw [exec_sequence hs hnop hp] at h
    cases h
    exact hsequence hp
  | true =>
    rw [exec_eq_runWord, runWord, hs.1, if_neg Bool.false_ne_true, submit_started hs.1 hnop (.inl hs.2) hp] at h
    cases h
    refine (runCore_kept (P := fun u => P u ∧ (u.busy = true → InBody i u)) ?_ _
      ⟨hstart, fun _ => ⟨rfl, subsOf_eq_nil_of_body hi, .inr hi⟩⟩).1
    rintro u ⟨hu, hin⟩ hb
    rcases (hin hb).pos with hpos | hbody
    · rw [stepAt_ret hpos (hin hb).todo]
      exact ⟨hcomplete u hu hb hpos, nofun⟩
    · refine ⟨hstep u hu hb (hin hb).done hbody, fun hb' => ?_⟩
      rcases stepAt_of_body hbody hc with hk | ⟨e, v, hv, -⟩
      · exact hk.inBody (hin hb)
      · rw [hv] at hb'
        cases hb'

/-! ### The validity bits -/

/-- Only BUILD, RDTREE and CLEAR write TREE_VALID (R206). -/
theorem stepAt_treeValid (hbody : bodyOf u.pos = some i) (hi : i ∉ [Instr.clear, .build, .rdtree]) :
    (stepAt u.pos u).treeValid = u.treeValid := by
  simp only [List.mem_cons, List.not_mem_nil, or_false, not_or] at hi
  obtain ⟨hc, hbuild, hrdtree⟩ := hi
  rcases stepAt_of_body hbody hc with hk | ⟨e, v, hv, ha⟩
  · exact hk.tree.resolve_right (not_or.mpr ⟨hbuild, hrdtree⟩)
  · rw [hv]; exact ha.tree

/-- Only BUILD, RDTREE, GENCODES and CLEAR write CODES_VALID (R206). -/
theorem stepAt_codesValid (hbody : bodyOf u.pos = some i) (hi : i ∉ [Instr.clear, .build, .rdtree, .gencodes]) :
    (stepAt u.pos u).codesValid = u.codesValid := by
  simp only [List.mem_cons, List.not_mem_nil, or_false, not_or] at hi
  obtain ⟨hc, hbuild, hrdtree, hgen⟩ := hi
  rcases stepAt_of_body hbody hc with hk | ⟨e, v, hv, ha⟩
  · rcases hk.codes with h | h | ⟨h | h, -⟩
    · exact h
    · exact absurd h hgen
    · exact absurd h hbuild
    · exact absurd h hrdtree
  · rw [hv]; exact ha.codes

end

section
variable {s t : State} (hs : Ready s)
include hs

/-- The commands with no row of their own in the table leave both bits alone (R206). -/
theorem validity_of_plain {i : Instr} (hi : i ∈ [Instr.count, .wrhdr, .rewind, .encode, .rdmagic, .decode])
    (h : exec i s = .next t) : t.treeValid = s.treeValid ∧ t.codesValid = s.codesValid := by
  obtain ⟨hentry, hnot, hnot'⟩ : bodyOf (entryOf i) = some i ∧ i ∉ [Instr.clear, .build, .rdtree, .gencodes] ∧
      i ∉ [Instr.clear, .build, .rdtree] := by
    revert hi; cases i <;> decide
  refine exec_kept (P := fun u => u.treeValid = s.treeValid ∧ u.codesValid = s.codesValid) hs hentry
    (fun hc => hnot (hc ▸ List.mem_cons_self)) (fun _ => ⟨rfl, rfl⟩) ⟨rfl, rfl⟩ ?_ (fun _ hu _ _ => hu) h
  rintro u ⟨htree, hcodes⟩ - - hbody
  exact ⟨(stepAt_treeValid hbody hnot').trans htree, (stepAt_codesValid hbody hnot).trans hcodes⟩

/-- GENCODES keeps TREE_VALID and sets CODES_VALID before its body returns (R140, R206). -/
theorem validity_of_gencodes (h : exec .gencodes s = .next t) :
    t.treeValid = s.treeValid ∧ (t.done = true → t.codesValid = true) := by
  have hend : t.treeValid = s.treeValid ∧ (t.pos = .ret ∨ t.done = true → t.codesValid = true) := by
    refine exec_kept (i := .gencodes)
      (P := fun u => u.treeValid = s.treeValid ∧ (u.pos = .ret ∨ u.done = true → u.codesValid = true)) hs rfl nofun
      (fun _ => ⟨rfl, nofun⟩) ⟨rfl, nofun⟩ ?_ (fun u hu _ hpos => ⟨hu.1, fun _ => hu.2 (.inl hpos)⟩) h
    rintro u ⟨htree, -⟩ - hdone hbody
    refine ⟨(stepAt_treeValid hbody (by decide)).trans htree, fun hret => ?_⟩
    rcases stepAt_of_body hbody nofun with hk | ⟨e, v, hv, -⟩
    · have hdone' : (stepAt u.pos u).done = false := (congrArg Control.done hk.same).trans hdone
      exact hk.codesEnd rfl (hret.resolve_right (by simp [hdone']))
    · rw [hv] at hret
      exact absurd hret (by simp)
  exact ⟨hend.1, fun hdone => hend.2 (.inr hdone)⟩

end

/-- The validity bits once RDTREE's parse has begun: no codes are valid, and a tree is valid exactly when the parse has
succeeded, at the end of the body or after completion (R153, R206). -/
structure ParseBits (u : State) : Prop where
  codes : u.codesValid = false
  tree : u.treeValid = true ↔ u.busy = true ∧ u.pos = .ret ∨ u.done = true

/-- Only the end of the parse sets TREE_VALID (R153). -/
theorem stepAt_parse_treeValid {p : Pos} {u : State} (hbody : bodyOf p = some .rdtree) (hv : u.treeValid = false) :
    (stepAt p u).treeValid = false ∨ (stepAt p u).pos = .ret := by
  cases p <;> simp only [bodyOf, Option.some.injEq, reduceCtorEq] at hbody
  case treeStart => exact .inl rfl
  case parseBit =>
    left
    show (parseBitStep u).treeValid = false
    unfold parseBitStep
    rcases chanRead_cases 1 u with ⟨v, d, h⟩ | ⟨d, h⟩ <;> rw [h]
    · dsimp only
      split_ifs <;> exact hv
    · exact hv
  case parseInternal => exact .inl hv
  case parseSym =>
    left
    show (parseSymStep u).treeValid = false
    unfold parseSymStep
    rcases chanRead_cases 9 u with ⟨v, d, h⟩ | ⟨d, h⟩ <;> rw [h]
    · dsimp only
      split_ifs <;> exact hv
    · exact hv
  case parseLeaf sym => exact .inl hv
  case parseRet k =>
    show (parseRetStep k u).treeValid = false ∨ (parseRetStep k u).pos = .ret
    unfold parseRetStep
    split
    · unfold parseEnd
      dsimp only
      split_ifs
      · exact .inl hv
      · exact .inr rfl
    all_goals exact .inl hv

/-- The step that begins the parse, and each step of it, leave both bits as `ParseBits` says (R153, R206). -/
theorem parseBits_stepAt {u : State} (hu : u.pos = .treeStart ∨ ParseBits u) (hb : u.busy = true) (hdone : u.done = false)
    (hbody : bodyOf u.pos = some .rdtree) : ParseBits (stepAt u.pos u) := by
  have hret : u.pos ≠ .ret := by intro h; rw [h] at hbody; cases hbody
  rcases hu with hpos | ⟨hcodes, htree⟩
  · rw [hpos]
    refine ⟨rfl, ?_⟩
    show false = true ↔ u.busy = true ∧ Pos.parseBit = .ret ∨ u.done = true
    simp [hdone]
  · have hv : u.treeValid = false := by
      rw [← Bool.not_eq_true, htree]
      simp [hret, hdone]
    rcases stepAt_of_body hbody nofun with hk | ⟨e, v, hv', ha⟩
    · have hend : (stepAt u.pos u).treeValid = true ↔ (stepAt u.pos u).pos = .ret :=
        ⟨fun h => (stepAt_parse_treeValid hbody hv).resolve_left (by simp [h]), hk.treeEnd (.inr rfl)⟩
      have hb' : (stepAt u.pos u).busy = true := (congrArg Control.busy hk.same).trans hb
      have hdone' : (stepAt u.pos u).done = false := (congrArg Control.done hk.same).trans hdone
      refine ⟨?_, by rw [hend, hb', hdone']; simp⟩
      rcases hk.codes with h | h | ⟨-, h, -⟩
      · exact h.trans hcodes
      · cases h
      · exact h
    · rw [hv']
      exact ⟨ha.codes.trans hcodes, by simp [ha.tree, hv]⟩

/-- RDTREE ends with no codes valid, and with a tree exactly when it ends done (R153, R206). -/
theorem validity_of_rdtree {s t : State} (hs : Ready s) (h : exec .rdtree s = .next t) (hb : t.busy = false) :
    t.codesValid = false ∧ (t.treeValid = true ↔ t.done = true) := by
  have hend : t.busy = true ∧ t.pos = .treeStart ∨ ParseBits t := by
    refine exec_kept (i := .rdtree) (P := fun u => u.busy = true ∧ u.pos = .treeStart ∨ ParseBits u) hs rfl nofun nofun
      (.inl ⟨rfl, rfl⟩) (fun u hu hb hdone hbody => .inr (parseBits_stepAt (hu.imp_left And.right) hb hdone hbody)) ?_ h
    intro u hu hb hpos
    rcases hu with ⟨-, hstart⟩ | ⟨hcodes, htree⟩
    · rw [hpos] at hstart; cases hstart
    · exact .inr ⟨hcodes, by simp [htree.mpr (.inl ⟨hb, hpos⟩)]⟩
  rcases hend with ⟨hb', -⟩ | ⟨hcodes, htree⟩
  · rw [hb] at hb'; cases hb'
  · exact ⟨hcodes, by simpa [hb] using htree⟩

/-- BUILD ends with a tree and no codes valid (R120, R206). -/
theorem validity_of_build {s t : State} (hs : Ready s) (h : exec .build s = .next t) :
    t.treeValid = true ∧ t.codesValid = false := by
  obtain ⟨x, u, hu⟩ := exec_build hs
  cases hu.exec.symm.trans h
  exact ⟨hu.treeValid, by rw [hu.frame]; rfl⟩

/-- CLEAR ends with neither valid (R201, R206). -/
theorem validity_of_clear {s t : State} (hs : Ready s) (h : exec .clear s = .next t) :
    t.treeValid = false ∧ t.codesValid = false := by
  cases (exec_clear hs.1).symm.trans h
  exact ⟨rfl, rfl⟩

theorem coreStep_at {v : State} {p : Pos} (hb : v.busy = true) (hp : v.pos = p) : coreStep v = stepAt p v := by
  rw [coreStep, if_pos hb, hp]

/-- Settles O54: one lemma for each row of the table; the starts of BUILD, RDTREE and GENCODES are single steps. -/
theorem validityBitsFollowTheTable : Obligations.ValidityBitsFollowTheTable := by
  intro i s t hs h
  refine ⟨?_, ?_, ?_, ?_, ⟨rfl, rfl⟩, fun hi => ?_, ?_, ?_⟩
  · rintro rfl; exact validity_of_build hs h
  · rintro rfl; exact validity_of_rdtree hs h
  · rintro rfl; exact validity_of_gencodes hs h
  · rintro rfl; exact validity_of_clear hs h
  · by_cases hnop : i = .nop
    · subst hnop
      cases (exec_nop hs.1).symm.trans h
      exact ⟨rfl, rfl⟩
    · exact validity_of_plain hs (by simpa [hnop] using hi) h
  · rintro v hb (hp | hp) <;> rw [coreStep_at hb hp] <;> exact ⟨rfl, rfl⟩
  · intro v hb hp
    rw [coreStep_at hb hp]
    exact ⟨rfl, rfl⟩

end Sys2Proof.Machine

/-! PROOFS. Acceptance, completion and errors (spec 60_exceptions.md R222 to R231, 70_reset_and_hazards.md R239): what a write to
CMD does, what one step is made of, and how a core step ends a command. -/

namespace Sys2Proof.Machine

/-! ### Acceptance -/

theorem coreStep_idle {s : State} (hb : s.busy = false) : coreStep s = s := if_neg (by simp [hb])

/-- Settles O7: with an empty script the core moves, and an idle core does nothing. -/
theorem idleBlockDoesNothing : Obligations.IdleBlockDoesNothing := by
  intro s hb hs
  rw [step, hs]
  exact congrArg _ (coreStep_idle hb)

/-- Settles O8: a busy block drops a word, written or called. -/
theorem wordIsDroppedWhileBusy : Obligations.WordIsDroppedWhileBusy := fun _ hb => ⟨submit_busy hb, exec_of_busy hb⟩

/-- A word whose handling leaves the block idle starts no core step. -/
theorem runWord_of_idle {w : Word} {s : State} (h : (submit w s).busy = false) : runWord w s = submit w s := by
  unfold runWord
  split
  · rfl
  · exact runCore_idle h _

/-- CLEAR starts in the error state too (R229, R230). -/
theorem submit_clear {s : State} (hb : s.busy = false) : submit 1#32 s = s.started .clear :=
  submit_started (i := .clear) hb nofun (.inr rfl) rfl

/-- Settles O9: a dropped word leaves the block idle, and CLEAR starts in the error state too. -/
theorem errorStateAcceptsOnlyNopAndClear : Obligations.ErrorStateAcceptsOnlyNopAndClear := by
  intro s hb he
  have hclear : hostWrite 0x00 0x00000001#32 s = s.started .clear := submit_clear hb
  refine ⟨fun w h₀ h₁ => submit_error hb he h₀ h₁, fun i hnop hne => ?_, submit_zero hb, by rw [hclear]; rfl,
    by rw [hclear]; rfl, s.cleared, exec_clear hb, rfl, rfl⟩
  have hdrop : submit (encode i) s = dropWord s :=
    submit_error hb he (by rwa [Ne, encode_eq_zero]) (by rwa [Ne, encode_eq_one])
  rw [exec_eq_runWord, runWord_of_idle (by rw [hdrop]; exact hb), hdrop]
  rfl

/-- A word that is a command is refused under its own opcode (R205, R225). -/
theorem raiseErr_acceptWord_encode (e : ErrCode) (i : Instr) (s : State) :
    raiseErr e (acceptWord (encode i) s) = s.failed i i e := by
  simp only [raiseErr, acceptWord, State.failed, opField_encode]

/-- Settles O11: one law of the handling of a word for each condition, and the decoder's answer for a word that is accepted. -/
theorem acceptanceFollowsThePriority : Obligations.AcceptanceFollowsThePriority := by
  intro s w
  show submit w s = _
  split
  next hb => exact submit_busy hb w
  next hb =>
    have hb : s.busy = false := by simpa using hb
    split
    next h =>
      obtain ⟨he, h₀, h₁⟩ := h
      exact submit_error hb he h₀ h₁
    next hno =>
      split
      next h₀ => rw [h₀, submit_zero hb]
      next h₀ =>
        have haccepted : s.err = false ∨ w = 1#32 := by grind
        rw [submit_accepted hb h₀ haccepted, startWord]
        cases hd : decode w with
        | error e => rfl
        | ok i =>
          obtain rfl := eq_encode_of_decode hd
          simp only [raiseErr_acceptWord_encode]
          rfl

/-! ### The acts of a step -/

/-- What lands on the block in one step from `u`: nothing, one core step, a write to CMD, a called word, or a reset. -/
inductive Act (u : State) : State → Prop
  | nothing : Act u u
  | core : Act u (coreStep u)
  | write (w : Word) : Act u (submit w u)
  | call (w : Word) : Act u (runWord w u)
  | reset : Act u (resetBlock u)

/-- `t` comes from `s` by one act, up to fields that the block's control state does not read. -/
def Acts (s t : State) : Prop := ∃ u, AgreeInside s u ∧ Act u t

section
variable {s t : State}

theorem Acts.outside (h : AgreeInside s t) : Acts s t := ⟨t, h, .nothing⟩

theorem agreeInside_hostRead (offset : Nat) (s : State) : AgreeInside s (hostRead offset s) := by
  rw [hostRead_eq]
  rfl

theorem acts_hostWrite (rest : List Move) (offset : Nat) (v : Word) (s : State) :
    Acts s (hostWrite offset v (s.withScript rest)) := by
  unfold hostWrite
  split
  · exact ⟨s.withScript rest, rfl, .write v⟩
  · unfold writeCtrl
    split
    · exact ⟨s.withScript rest, rfl, .reset⟩
    · exact .outside rfl
  · exact .outside rfl
  · exact .outside rfl

theorem acts_hostRead (rest : List Move) (offset : Nat) (s : State) : Acts s (hostRead offset (s.withScript rest)) :=
  .outside (by rw [hostRead_eq]; rfl)

theorem acts_hostAccess {a : Access} {rest : List Move} (h : hostAccess a (s.withScript rest) = .next t) : Acts s t := by
  unfold hostAccess at h
  split_ifs at h
  split at h <;> cases h
  · exact acts_hostWrite rest _ _ s
  · exact acts_hostRead rest _ s

theorem acts_runMove {m : Move} {rest : List Move} (h : runMove m rest s = .next t) : Acts s t := by
  cases m with
  | access a => exact acts_hostAccess (rest := rest) h
  | call w => cases h; exact ⟨s.withScript rest, rfl, .call w⟩
  | wait =>
    cases h
    unfold waitPoll
    split
    · exact ⟨hostRead 0x04 s, agreeInside_hostRead 0x04 s, .core⟩
    · exact .outside rfl
  | check offset v =>
    change (if _ then _ else _) = _ at h
    split at h
    · cases h
      refine .outside ?_
      unfold checkRead
      rw [hostRead_eq]
      rfl
    · exact acts_hostAccess (rest := rest) h
  | core => cases h; exact ⟨s.withScript rest, rfl, .core⟩
  | rst => cases h; exact ⟨s.withScript rest, rfl, .reset⟩
  | present src => cases h; exact .outside rfl
  | closeOutput => cases h; exact .outside rfl
  | freshOutput => cases h; exact .outside rfl

/-- Every step is one act (R76). -/
theorem acts_step (h : step s = .next t) : Acts s t := by
  unfold step at h
  split at h
  next => cases h; exact ⟨s, rfl, .core⟩
  next w rest _ =>
    refine ⟨s.withScript rest, rfl, ?_⟩
    unfold stepCall at h
    split at h
    next i _ => rw [exec_eq_runWord] at h; cases h; exact .call _
    next => cases h; exact .call w
  next => exact acts_runMove h

end

/-! ### One core step of a running command -/

section
variable {s t : State}

/-- What a core step of a busy block is: the end of a body, the last writes of CLEAR, a step inside a body, or an abort. -/
theorem coreStep_cases (h : ControlInv s) (hb : s.busy = true) :
    s.pos = .ret ∧ coreStep s = retStep s ∨ s.pos = .clearRegs ∧ coreStep s = clearRegsStep s ∨
      ∃ i, bodyOf s.pos = some i ∧
        (BodyStep i s (coreStep s) ∨ ∃ e u, coreStep s = raiseErr e u ∧ Aborts i e s u) := by
  have hstep : coreStep s = stepAt s.pos s := if_pos hb
  rw [hstep]
  cases hbody : bodyOf s.pos with
  | none =>
    obtain ⟨-, hidle, -⟩ := h
    rcases bodyOf_eq_none.mp hbody with hp | hp
    · rw [hidle.mpr hp] at hb; cases hb
    · exact .inl ⟨hp, by rw [hp]; rfl⟩
  | some i =>
    by_cases hr : s.pos = .clearRegs
    · exact .inr (.inl ⟨hr, by rw [hr]; rfl⟩)
    · exact .inr (.inr ⟨i, rfl, stepAt_cases rfl hbody hr⟩)

theorem retStep_err (s : State) : (retStep s).err = s.err := by
  unfold retStep
  split <;> rfl

/-- CLEAR cannot raise, nor can any command but ENCODE and the three that read a header or a payload (R220). -/
theorem Aborts.mem {i : Instr} {e : ErrCode} {u : State} (h : Aborts i e s u) :
    i ∈ [Instr.encode, .rdmagic, .rdtree, .decode] := by
  obtain ⟨rfl, -⟩ | ⟨rfl, -⟩ | ⟨rfl, -⟩ | ⟨rfl, -⟩ := h.raiser <;> decide

/-- A running body raises one of the codes 1 to 6: SEQUENCE and ILLEGAL_CMD are raised at acceptance (R220, R224). -/
theorem Aborts.errCode_bounds {i : Instr} {e : ErrCode} {u : State} (h : Aborts i e s u) :
    0x1 ≤ (errCodeOf e).toNat ∧ (errCodeOf e).toNat ≤ 0x6 := by
  obtain ⟨-, rfl⟩ | ⟨-, rfl | rfl⟩ | ⟨-, rfl | rfl | rfl | rfl⟩ | ⟨-, rfl⟩ := h.raiser <;> decide

/-- Settles O58: of the four kinds of core step only the end of the last body leaves the block idle without an error. -/
theorem completionSetsDone : Obligations.CompletionSetsDone := by
  intro s hs hb hidle herr
  have hcomplete : coreStep s = complete s := by
    rcases coreStep_cases hs hb with ⟨-, hk⟩ | ⟨-, hk⟩ | ⟨i, -, hk | ⟨e, u, hk, -⟩⟩
    · rw [hk] at hidle ⊢
      unfold retStep at hidle ⊢
      split
      next => rfl
      next htodo =>
        simp only [htodo] at hidle
        exact absurd hb (by simp [hidle])
    · rw [hk] at hidle
      exact absurd hb (by simpa [clearRegsStep] using hidle)
    · have hsame : (coreStep s).busy = s.busy := congrArg Control.busy hk.same
      rw [hsame, hb] at hidle
      cases hidle
    · rw [hk] at herr
      cases herr
  obtain ⟨⟨-, hclear, -⟩, -⟩ := controlInv_kept.coreStep hs
  exact ⟨hcomplete, hclear herr⟩

/-! ### The record of an error -/

/-- ERRINFO (R25). -/
def State.record (s : State) := (s.errCode, s.errOp)

/-- In the error state only CLEAR runs, which cannot raise, and its last writes end the error state (R229, R231). -/
theorem coreStep_record (h : ControlInv s) (he : s.err = true) (he' : (coreStep s).err = true) :
    (coreStep s).record = s.record := by
  cases hb : s.busy with
  | false => rw [coreStep_idle hb]
  | true =>
    have hclear : bodyOf s.pos = some .clear := by
      obtain ⟨-, -, -, -, hclear⟩ := h
      exact hclear hb he
    rcases coreStep_cases h hb with ⟨hp, -⟩ | ⟨-, hk⟩ | ⟨i, hi, hk | ⟨e, u, -, ha⟩⟩
    · rw [hp] at hclear; cases hclear
    · rw [hk] at he'; cases he'
    · exact congrArg (fun c => (c.errCode, c.errOp)) hk.same
    · obtain rfl := Option.some.inj (hclear.symm.trans hi)
      exact absurd ha.mem (by decide)

/-- An idle block in the error state drops every word but NOP's and CLEAR's (R229). -/
theorem submit_in_error (hb : s.busy = false) (he : s.err = true) {w : Word} (h : w ≠ 1#32) :
    submit w s = s ∨ submit w s = dropWord s := by
  by_cases h₀ : w = 0#32
  · exact .inl (h₀ ▸ submit_zero hb)
  · exact .inr (submit_error hb he h₀ h)

theorem runWord_clear (hb : s.busy = false) : runWord 1#32 s = s.cleared :=
  Host.Outcome.next.inj ((exec_eq_runWord .clear s).symm.trans (exec_clear hb))

/-- The handling of a word in the error state keeps the record (R229). -/
theorem submit_record (he : s.err = true) (w : Word) : (submit w s).record = s.record := by
  cases hb : s.busy with
  | true => rw [submit_busy hb]; rfl
  | false =>
    by_cases h : w = 1#32
    · rw [h, submit_clear hb]; rfl
    · rcases submit_in_error hb he h with hw | hw <;> rw [hw]; rfl

/-- A called word keeps the record in the error state, or is CLEAR's and ends it (R229, R230). -/
theorem runWord_record (he : s.err = true) {w : Word} (he' : (runWord w s).err = true) :
    (runWord w s).record = s.record := by
  cases hb : s.busy with
  | true => rw [runWord, if_pos hb]; exact submit_record he w
  | false =>
    by_cases h : w = 1#32
    · rw [h, runWord_clear hb] at he'; cases he'
    · have hidle : (submit w s).busy = false := by rcases submit_in_error hb he h with hw | hw <;> rw [hw] <;> exact hb
      rw [runWord_of_idle hidle, submit_record he w]

theorem Act.record (h : Act s t) (hs : ControlInv s) (he : s.err = true) (he' : t.err = true) : t.record = s.record := by
  cases h with
  | nothing => rfl
  | core => exact coreStep_record hs he he'
  | write w => exact submit_record he w
  | call w => exact runWord_record he he'
  | reset => cases he'

end

/-- Settles O10: every act of a step keeps the record while ERR stays 1, and with ERR = 0 the invariant clears it. -/
theorem firstErrorIsKeptUntilErrIsCleared : Obligations.FirstErrorIsKeptUntilErrIsCleared := by
  intro s t hs he h
  refine ⟨fun he' => ?_, fun he' => ?_⟩
  · obtain ⟨u, hu, hact⟩ := acts_step h
    have hrecord : t.record = s.record := by
      rw [hact.record (by rw [hu]; exact hs) (by rw [hu]; exact he) he', hu]
      rfl
    simpa only [State.record, Prod.mk.injEq] using hrecord
  · obtain ⟨⟨-, hclear, -⟩, -⟩ := controlInv_kept.step hs h
    exact hclear he'

/-! ### What an abort leaves unwritten -/

/-- The output and what a command writes in the stores and their counters. -/
def State.written (s : State) := (s.out, s.cnt, s.node, s.code, s.nNodes, s.nLeaf, s.nInt)

/-- `t` comes from `s` by one read of `n` bits or its `End`, and no write (R66, R67). -/
structure ReadsOnly (n : Nat) (s t : State) : Prop where
  written : t.written = s.written
  inPos : t.inPos = s.inPos ∨ t.inPos = s.inPos + n

theorem chanRead_readsOnly (n : Nat) (s : State) : ReadsOnly n s (chanRead n s).2 := by
  rcases chanRead_cases n s with ⟨v, d, h⟩ | ⟨d, h⟩ <;> rw [h]
  · exact ⟨rfl, .inr rfl⟩
  · exact ⟨rfl, .inl rfl⟩

/-- What follows the read in the same core step writes nothing and does not move in the input. -/
theorem ReadsOnly.trans {n : Nat} {s t u : State} (h : ReadsOnly n s t)
    (hu : (u.written, u.inPos) = (t.written, t.inPos)) : ReadsOnly n s u := by
  obtain ⟨hwritten, hpos⟩ := Prod.mk.inj hu
  exact ⟨hwritten.trans h.written, by rw [hpos]; exact h.inPos⟩

/-- The width of the read that a position makes (R74). -/
def readWidth : Pos → Option Nat
  | .countRead | .encRead => some 8
  | .rdMagic => some 32
  | .parseBit | .decRead => some 1
  | .parseSym => some 9
  | _ => none

/-- A core step that reads the input writes nothing. -/
theorem stepAt_readsOnly {p : Pos} {n : Nat} (hp : readWidth p = some n) (s : State) : ReadsOnly n s (stepAt p s) := by
  refine (chanRead_readsOnly n s).trans ?_
  cases p <;> simp only [readWidth, Option.some.injEq, reduceCtorEq] at hp <;> subst hp
  case countRead =>
    simp only [stepAt, countReadStep]
    rcases chanRead 8 s with ⟨_ | v, t⟩ <;> rfl
  case encRead =>
    simp only [stepAt, encReadStep, emitEntry]
    rcases chanRead 8 s with ⟨_ | v, t⟩ <;> dsimp only <;> split <;> rfl
  case rdMagic =>
    simp only [stepAt, rdMagicStep]
    rcases chanRead 32 s with ⟨_ | v, t⟩
    · rfl
    · dsimp only; split <;> rfl
  case parseBit =>
    simp only [stepAt, parseBitStep]
    rcases chanRead 1 s with ⟨_ | v, t⟩
    · rfl
    · dsimp only; split_ifs <;> rfl
  case parseSym =>
    simp only [stepAt, parseSymStep]
    rcases chanRead 9 s with ⟨_ | v, t⟩
    · rfl
    · dsimp only; split <;> rfl
  case decRead =>
    simp only [stepAt, decReadStep, decArrive]
    rcases chanRead 1 s with ⟨_ | v, t⟩
    · rfl
    · dsimp only; split_ifs <;> rfl

/-- An abort is the refusal of what a read answers, or of the root at the end of a parse (R157): neither writes. -/
theorem stepAt_written_of_err {p : Pos} {i : Instr} {s : State} (hi : i ∈ [Instr.encode, .rdmagic, .rdtree, .decode])
    (hp : bodyOf p = some i) (he : s.err = false) (he' : (stepAt p s).err = true) :
    (stepAt p s).written = s.written := by
  have hno : s.err ≠ true := by simp [he]
  cases hw : readWidth p with
  | some n => exact (stepAt_readsOnly hw s).written
  | none =>
    cases p <;> simp only [bodyOf, Option.some.injEq, reduceCtorEq] at hp <;> subst hp <;>
      simp only [readWidth, List.mem_cons, List.not_mem_nil, reduceCtorEq, or_self] at hi hw
    case encEmit left last => cases left <;> exact absurd he' hno
    case treeStart | parseInternal | parseLeaf | decEmit => exact absurd he' hno
    case parseRet k =>
      simp only [stepAt, parseRetStep] at he' ⊢
      split at he'
      next =>
        simp only [parseEnd]
        split <;> rfl
      all_goals exact absurd he' hno
    case decStart =>
      simp only [stepAt, decStartStep] at he'
      split at he' <;> exact absurd he' hno

/-- Settles O57: the step is an abort, which records `curop` and leaves the block idle, and what it reads before writes
nothing. -/
theorem abortIsPrecise : Obligations.AbortIsPrecise := by
  intro s hs he he' t
  have hb : s.busy = true := by
    by_contra hb
    rw [coreStep_idle (by simpa using hb), he] at he'
    cases he'
  rcases coreStep_cases hs hb with ⟨-, hk⟩ | ⟨-, hk⟩ | ⟨i, hi, hk | ⟨e, u, hk, ha⟩⟩
  · rw [hk, retStep_err, he] at he'; cases he'
  · rw [hk] at he'; cases he'
  · have hsame : (coreStep s).err = s.err := congrArg Control.err hk.same
    rw [hsame, he] at he'
    cases he'
  · have hwritten : t.written = s.written := by
      have hstep : coreStep s = stepAt s.pos s := if_pos hb
      show (coreStep s).written = s.written
      rw [hstep] at he' ⊢
      exact stepAt_written_of_err ha.mem hi he he'
    simp only [State.written, Prod.mk.injEq] at hwritten
    obtain ⟨hout, hcnt, hnode, hcode, hnNodes, hnLeaf, hnInt⟩ := hwritten
    have ht : t = raiseErr e u := hk
    have hidle : t.busy = false := by rw [ht]; rfl
    obtain ⟨hlow, hhigh⟩ := ha.errCode_bounds
    exact ⟨by rw [ht]; exact congrArg Control.curop ha.same, by rwa [ht], by rwa [ht], hidle, by rw [ht]; rfl, hout, hcnt,
      hnode, hcode, hnNodes, hnLeaf, hnInt, by rw [ht]; exact ha.tree, by rw [ht]; exact ha.codes, runCore_idle hidle⟩

end Sys2Proof.Machine

/-! PROOFS. Reset, the accesses of a core step, and the hazard of a forgotten REWIND (spec 70_reset_and_hazards.md R250 to
R262, 46_control.md R201). -/

namespace Sys2Proof.Machine

/-! ### Reset -/

theorem statusWord_resetBlock (s : State) : statusWord (resetBlock s) = 0#32 := by
  simp [statusWord, bitAt, State.reset]

theorem errinfoWord_resetBlock (s : State) : errinfoWord (resetBlock s) = 0#32 := by
  simp [errinfoWord, State.reset]

theorem step_rst {s : State} {rest : List Move} (h : s.script = .rst :: rest) :
    step s = .next (resetBlock (s.withScript rest)) := by
  rw [step, h]
  rfl

/-- A write of 1 to CTRL.SOFT_RESET does what `RST` does (R26, R250). -/
theorem step_softReset {s : State} {v : Word} {rest : List Move} (hv : v.getLsbD 0 = true)
    (h : s.script = wordWrite 0x0C v :: rest) : step s = .next (resetBlock (s.withScript rest)) := by
  rw [step_regWrite (r := .ctrl) h]
  exact congrArg _ (if_pos hv)

/-- Settles O42: both are `resetBlock`, which gives the node slots their blank contents. -/
theorem resetRestoresTheBlockState : Obligations.ResetRestoresTheBlockState := by
  intro s rest v hs
  refine ⟨State.reset.node, resetBlock (s.withScript rest), ?_, rfl, statusWord_resetBlock _, errinfoWord_resetBlock _, rfl⟩
  rcases hs with h | ⟨hv, h⟩
  · exact step_rst h
  · exact step_softReset hv h

/-- Settles O17: the state after CLEAR is `State.cleared`. -/
theorem clearAgreesWithResetApartFromSel : Obligations.ClearAgreesWithResetApartFromSel := by
  intro s t hb h
  cases (exec_clear hb).symm.trans h
  rfl

/-! ### Reset between core steps -/

theorem stepN_add {n : Nat} (m : Nat) {s u : State} (h : stepN n s = some u) : stepN (n + m) s = stepN m u := by
  induction n generalizing s with
  | zero => cases h; rw [Nat.zero_add]
  | succ n ih =>
    rw [Nat.add_right_comm]
    rw [stepN] at h ⊢
    cases hstep : step s <;> rw [hstep] at h
    case next t => exact ih h
    all_goals cases h

/-- No core step presents another input (R66). -/
theorem stepAt_source (s : State) : (stepAt s.pos s).source = s.source := by
  cases hbody : bodyOf s.pos with
  | none =>
    rcases bodyOf_eq_none.mp hbody with hp | hp <;> rw [hp]
    · rfl
    · show (retStep s).source = s.source
      unfold retStep
      split <;> rfl
  | some i => exact (stepAt_channelUse hbody s).source

theorem runCore_source (n : Nat) (s : State) : (runCore n s).source = s.source :=
  runCore_kept (P := fun u => u.source = s.source) (fun u hu _ => (stepAt_source u).trans hu) n rfl

/-- Settles O43: the core moves before the reset are core steps, and those after it find an idle block. -/
theorem resetCutsACommandBetweenCoreSteps : Obligations.ResetCutsACommandBetweenCoreSteps := by
  intro s n m rest hs
  have hcut : stepN n s = some ((runCore n s).withScript (.rst :: (List.replicate m .core ++ rest))) := by
    rw [← stepN_core, ← hs]
    rfl
  have hreset : stepN 1 ((runCore n s).withScript (.rst :: (List.replicate m .core ++ rest))) =
      some ((resetBlock (runCore n s)).withScript (List.replicate m .core ++ rest)) := rfl
  have hidle : runCore m (resetBlock (runCore n s)) = resetBlock (runCore n s) := runCore_idle rfl m
  refine ⟨(resetBlock (runCore n s)).withScript rest, ?_, rfl, rfl, runCore_source n s, rfl, rfl, rfl,
    statusWord_resetBlock (runCore n s)⟩
  rw [Nat.add_assoc, stepN_add _ hcut, stepN_add _ hreset, stepN_core, hidle]

/-! ### The accesses of a core step -/

/-- The stores, the output and the position in the input. -/
def State.touched (s : State) := (s.cnt, s.node, s.code, s.out, s.inPos)

/-- The widths of a channel transaction (R74). -/
def widths : List Nat := [1, 8, 9, 32]

/-- `t` comes from `s` by at most one store write or channel transaction (R251). -/
inductive OneAccess (s t : State) : Prop
  | none (h : t.touched = s.touched)
  | cnt (i : Nat) (v : Word) (h : t.touched = { s with cnt := s.cnt.setIfInBounds i v }.touched)
  | node (i : Nat) (e : NodeEntry) (h : t.touched = { s with node := s.node.setIfInBounds i e }.touched)
  | code (i : Nat) (e : CodeEntry) (h : t.touched = { s with code := s.code.setIfInBounds i e }.touched)
  | write (n : Nat) (hn : n ∈ widths) (v : BitVec n) (h : t.touched = { s with out := s.out ++ bin n v }.touched)
  | move (k : Nat) (hk : k = 0 ∨ ∃ n ∈ widths, k = s.inPos + n) (h : t.touched = { s with inPos := k }.touched)

theorem set_eq_setIfInBounds {α : Type} {n i : Nat} (xs : Vector α n) (x : α) (h : i < n) :
    xs.set i x h = xs.setIfInBounds i x := by
  ext j hj
  simp [Vector.getElem_set, Vector.getElem_setIfInBounds]

section
variable {s t : State}

theorem touched_eq_iff : t.touched = s.touched ↔
    t.cnt = s.cnt ∧ t.node = s.node ∧ t.code = s.code ∧ t.out = s.out ∧ t.inPos = s.inPos := by
  simp only [State.touched, Prod.mk.injEq]

theorem OneAccess.of_readsOnly {n : Nat} (hn : n ∈ widths) (h : ReadsOnly n s t) : OneAccess s t := by
  obtain ⟨hwritten, hpos⟩ := h
  simp only [State.written, Prod.mk.injEq] at hwritten
  obtain ⟨hout, hcnt, hnode, hcode, -⟩ := hwritten
  rcases hpos with hpos | hpos
  · exact .none (touched_eq_iff.mpr ⟨hcnt, hnode, hcode, hout, hpos⟩)
  · exact .move (s.inPos + n) (.inr ⟨n, hn, rfl⟩) (touched_eq_iff.mpr ⟨hcnt, hnode, hcode, hout, hpos⟩)

theorem OneAccess.congr {u : State} (h : OneAccess s u) (ht : t.touched = u.touched) : OneAccess s t := by
  cases h with
  | none h => exact .none (ht.trans h)
  | cnt i v h => exact .cnt i v (ht.trans h)
  | node i e h => exact .node i e (ht.trans h)
  | code i e h => exact .code i e (ht.trans h)
  | write n hn v h => exact .write n hn v (ht.trans h)
  | move k hk h => exact .move k hk (ht.trans h)

end

section
variable (s : State)

theorem oneAccess_writeCnt (i : Nat) (v : Word) : OneAccess s (writeCnt i v s) := by
  unfold writeCnt
  split
  next hi => exact .cnt i v (by rw [← set_eq_setIfInBounds _ _ hi])
  next => exact .none rfl

theorem oneAccess_writeCode (i : Nat) (e : CodeEntry) : OneAccess s (writeCode i e s) :=
  .code i e (congrArg State.touched (writeCode_eq i e s))

theorem oneAccess_writeNode (i : NodeIx) (e : NodeEntry) : OneAccess s (writeNode i e s) :=
  .node i e (by rw [← set_eq_setIfInBounds _ _ i.isLt]; rfl)

theorem oneAccess_newLeaf (sym : Sym) (w : Weight) : OneAccess s (newLeaf sym w s) :=
  (oneAccess_writeNode s _ _).congr rfl

theorem oneAccess_newInternal (w : Weight) (a b : NodeIx) : OneAccess s (newInternal w a b s) :=
  (oneAccess_writeNode s _ _).congr rfl

theorem oneAccess_chanWrite {n : Nat} (hn : n ∈ widths) (v : BitVec n) : OneAccess s (chanWrite n v s) :=
  .write n hn v rfl

theorem oneAccess_mergeStep : OneAccess s (mergeStep s) := by
  unfold mergeStep
  split
  · exact .none rfl
  · split
    · exact .none rfl
    · exact (oneAccess_newInternal s _ _ _).congr rfl

theorem mem_widths_of_readWidth {p : Pos} {n : Nat} (h : readWidth p = some n) : n ∈ widths := by
  cases p <;> simp only [readWidth, Option.some.injEq, reduceCtorEq] at h <;> subst h <;> decide

/-- The step at a position makes at most one access: a read where the position is one that reads, and else the write of the
operation in which the position's pseudocode line ends. -/
theorem oneAccess_stepAt (p : Pos) : OneAccess s (stepAt p s) := by
  cases hw : readWidth p with
  | some n => exact .of_readsOnly (mem_widths_of_readWidth hw) (stepAt_readsOnly hw s)
  | none =>
    cases p <;> simp only [readWidth, reduceCtorEq] at hw
    case ret =>
      simp only [stepAt, retStep]
      split <;> exact .none rfl
    case clearCnt i => exact (oneAccess_writeCnt s i _).congr rfl
    case clearCode i => exact (oneAccess_writeCode s i _).congr rfl
    case countZero i => exact (oneAccess_writeCnt s i _).congr rfl
    case countBump v => exact (oneAccess_writeCnt s _ _).congr rfl
    case buildLeaf i =>
      simp only [stepAt, buildLeafStep]
      split_ifs
      · exact (oneAccess_newLeaf s _ _).congr rfl
      · exact .none rfl
      · exact (oneAccess_newLeaf s _ _).congr rfl
    case buildMerge =>
      simp only [stepAt, buildMergeStep]
      split
      · exact oneAccess_mergeStep s
      · exact .none rfl
    case genZero i =>
      simp only [stepAt, genZeroStep]
      split <;> exact (oneAccess_writeCode s i _).congr rfl
    case genWalk =>
      simp only [stepAt, genWalkStep, walkNode]
      split
      · exact .none rfl
      · split
        · exact (oneAccess_writeCode s _ _).congr rfl
        · exact .none rfl
      · exact .none rfl
    case hdrMagic => exact (oneAccess_chanWrite s (by decide) Config.magic).congr rfl
    case hdrWalk =>
      simp only [stepAt, hdrWalkStep, serNode]
      split
      · exact .none rfl
      · split
        · exact (oneAccess_chanWrite s (by decide) 1#1).congr rfl
        · exact (oneAccess_chanWrite s (by decide) 0#1).congr rfl
      · exact .none rfl
    case hdrSym sym => exact (oneAccess_chanWrite s (by decide) sym).congr rfl
    case rewind => exact .move 0 (.inl rfl) rfl
    case encEmit left last =>
      cases left with
      | nil => exact .none rfl
      | cons b left => exact (oneAccess_chanWrite s (by decide) (BitVec.ofBool b)).congr rfl
    case parseInternal => exact (oneAccess_newInternal s _ _ _).congr rfl
    case parseLeaf sym => exact (oneAccess_newLeaf s sym _).congr rfl
    case parseRet i =>
      simp only [stepAt, parseRetStep, parseEnd]
      split
      · split <;> exact .none rfl
      · exact (oneAccess_writeNode s _ _).congr rfl
      · exact (oneAccess_writeNode s _ _).congr rfl
      · exact .none rfl
    case decStart =>
      simp only [stepAt, decStartStep]
      split <;> exact .none rfl
    case decEmit =>
      exact (oneAccess_chanWrite s (by decide) ((readNode s.cur s).sym.extractLsb' 0 8)).congr rfl
    case idle | clearRegs | buildStart | genStart | treeStart => exact .none rfl

end

/-- Settles O44: `OneAccess` of a core step, one case of the statement for each kind of access. -/
theorem coreStepMakesAtMostOneAccess : Obligations.CoreStepMakesAtMostOneAccess := by
  intro s t
  have h : OneAccess s t := by
    cases hb : s.busy with
    | false => exact .none (congrArg State.touched (coreStep_idle hb))
    | true => exact (oneAccess_stepAt s s.pos).congr (congrArg State.touched (if_pos hb))
  cases h with
  | none h => exact .inl (touched_eq_iff.mp h)
  | cnt i v h => exact .inr (.inl ⟨i, v, touched_eq_iff.mp h⟩)
  | node i e h =>
    obtain ⟨hcnt, hnode, hrest⟩ := touched_eq_iff.mp h
    exact .inr (.inr (.inl ⟨i, e, hnode, hcnt, hrest⟩))
  | code i e h =>
    obtain ⟨hcnt, hnode, hcode, hrest⟩ := touched_eq_iff.mp h
    exact .inr (.inr (.inr (.inl ⟨i, e, hcode, hcnt, hnode, hrest⟩)))
  | write n hn v h =>
    obtain ⟨hcnt, hnode, hcode, hout, hpos⟩ := touched_eq_iff.mp h
    exact .inr (.inr (.inr (.inr (.inl ⟨n, hn, v, hout, hcnt, hnode, hcode, hpos⟩))))
  | move k hk h =>
    obtain ⟨hcnt, hnode, hcode, hout, hpos⟩ := touched_eq_iff.mp h
    have hk : t.inPos = 0 ∨ ∃ n ∈ widths, t.inPos = s.inPos + n := hpos ▸ hk
    exact .inr (.inr (.inr (.inr (.inr ⟨hk, hcnt, hnode, hcode, hout⟩))))

/-! ### ENCODE without a REWIND -/

/-- With less than a byte left ENCODE emits the code of EOS and stays where it is (R180, R262). -/
theorem encoded_of_short {s : State} (hlen : s.rest.length < 8) (hv : (readCode 256 s).valid = true) :
    s.encoded .encode = ({ s with out := s.out ++ codeBits (readCode 256 s) } : State).finished .encode .encode := by
  have hbytes : bytesOf s.rest = [] := List.eq_nil_of_length_eq_zero (by rw [length_bytesOf]; omega)
  have hencode : refEncode (codeTable s) (bytesOf s.rest) = (codeBits (readCode 256 s), 0, true) := by
    simp only [hbytes, refEncode, codeTable_of_valid hv]
  rw [encoded_of_done (by rw [hencode]), hencode]
  rfl

/-- COUNT leaves less than a byte of the input, and neither the codes nor the output are changed (R110). -/
theorem count_leaves_short {s : State} (hs : Ready s) (hf : FiniteInput s) :
    ∃ u, exec .count s = .next u ∧ Ready u ∧ FiniteInput u ∧ u.rest.length < 8 ∧ u.codesValid = s.codesValid ∧
      readCode 256 u = readCode 256 s ∧ u.out = s.out := by
  obtain ⟨-, he⟩ := id hs
  have hlen : (s.rest.drop (8 * (s.rest.length / 8))).length < 8 := by
    rw [List.length_drop]
    omega
  rw [← rest_advance] at hlen
  exact ⟨_, exec_count hs hf, ⟨rfl, he⟩, hf.congr rfl, hlen, rfl, rfl, rfl⟩

/-- Settles O28: less than a byte is left for ENCODE, which comes to the terminator at once. -/
theorem encodeWithoutRewindEmitsOnlyTheTerminator : Obligations.EncodeWithoutRewindEmitsOnlyTheTerminator := by
  intro s hs hf hc hv
  obtain ⟨u, hcount, hu, hfu, hlen, hcodes, hcode, hout⟩ := count_leaves_short hs hf
  have hencode := exec_encode hu (hcodes.trans hc) hfu
  rw [encoded_of_short hlen (hcode ▸ hv), hcode, hout] at hencode
  obtain ⟨-, he⟩ := hu
  exact ⟨u, _, hcount, hencode, rfl, he, rfl, rfl⟩

end Sys2Proof.Machine
